-- ==== Sys2Proof/Word.lean ====
section
/-!
DEFINITION. The word types of PFBW: a byte, a nibble, the 12-bit colour of 00_scope.md R11, the 16-bit
operand field and code point of R8, the 128-bit command record of 30_encoding.md R80. Only the types:
the bit-field helpers stand in Machine/Bits.lean.
-/

namespace Sys2Proof

/-- A byte: 8 bits (00_scope.md section 6). -/
abbrev Byte := BitVec 8

/-- A nibble: "a 4-bit half of a byte" (00_scope.md section 6). -/
abbrev Nibble := BitVec 4

/-- A colour: R in bits 11:8, G in bits 7:4, B in bits 3:0 (00_scope.md R11). -/
abbrev Colour := BitVec 12

/-- A coordinate, radius, index or length operand: `COORD_BITS` = 16 bits, unsigned (00_scope.md R8). -/
abbrev Coord := BitVec 16

/-- A code point: `CP_BITS` = 16 bits (00_scope.md R8). -/
abbrev CodePoint := BitVec 16

/-- A command record: exactly 128 bits (30_encoding.md R80). -/
abbrev Record := BitVec 128

end Sys2Proof
end

