-- ==== Sys2Proof/Config.lean ====
section
/-!
DEFINITION. What is fixed before reset and constant afterwards (00_scope.md R7, R8; 10_state.md R20, R30,
R34): the framebuffer size, the font and image assets, the size of the text buffer; and the free values
of the model (10_state.md R38; 93_implementation_defined.md U4). Only types and opaque constants: the
functions over the assets stand in Machine/Assets.lean.
-/

namespace Sys2Proof

/-- How a font maps code points to glyph indices: "exactly one of the two" (10_state.md R30). -/
inductive Coverage where
  /-- An explicit ordered list of code points. -/
  | list (cps : List CodePoint)
  /-- A contiguous `[first, last]` range. -/
  | range (first last : CodePoint)
  deriving DecidableEq, Repr

/-- A glyph descriptor: pixel width (16 bits) and byte offset into the blob (32 bits) (10_state.md R30,
41_glyph_decoder.md R146). The widths are checked by `Font.wf`. -/
structure GlyphDesc where
  width : Nat
  offset : Nat
  deriving DecidableEq, Repr

/-- A font asset, the document's BitmapFont (10_state.md R30). The 16-bit ranges of the number fields are
checked by `Font.wf`. -/
structure Font where
  height : Nat
  topSkip : Nat
  bottomSkip : Nat
  spacing : Nat
  coverage : Coverage
  desc : List GlyphDesc
  blob : List Byte
  deriving DecidableEq, Repr

/-- Font number `f` of a configuration: the asset `FONT[f]` and its flag `MONO[f]` (00_scope.md R8). -/
structure FontEntry where
  font : Font
  mono : Bool
  deriving DecidableEq, Repr

/-- An image asset, the document's Image (10_state.md R34). -/
structure Image where
  width : Nat
  height : Nat
  alpha : Bool
  bytes : List Byte
  deriving DecidableEq, Repr

/-- A configuration of the hardware (00_scope.md R7, R8). `NFONT` and `NIMG` are the lengths of the two
asset lists. `Config.wf` (Machine/Assets.lean) says which configurations the hardware has. -/
structure Config where
  /-- Framebuffer width in pixels. -/
  w : Nat
  /-- Framebuffer height in pixels. -/
  h : Nat
  fonts : List FontEntry
  images : List Image
  /-- Number of entries of the text buffer `TXT`. -/
  ntxt : Nat
  deriving DecidableEq, Repr

/-- FREE VALUE (log entry 1; 10_state.md R38, 93_implementation_defined.md U4): what byte `a` of `FB` holds
since draw number `draw` while nothing has written it. Nothing constrains it. -/
opaque Config.fbDraw (draw a : Nat) : Byte

/-- FREE VALUE (log entry 1; 10_state.md R38, 93_implementation_defined.md U4): what entry `k` of `TXT`
holds since draw number `draw` while the host has not written it. Nothing constrains it. -/
opaque Config.txtDraw (draw k : Nat) : CodePoint

/-- `HOSTBUS`, the binding of a port number to a bus address: OPEN, and no rule depends on it
(00_scope.md R8, 10_state.md R29). Nothing in the model reads it. -/
opaque Config.hostBus (port : Nat) : Nat

end Sys2Proof
end

