-- ==== Sys2Proof/Machine/ResetConfig.lean ====
section
/-!
DEFINITION. The configuration of State.reset (DESIGN CHOICE, log entry 4): the product's screen size
(00_scope.md R7) with the test assets of 95_test_vectors.md section 3, configuration K2. The spec leaves
every asset a parameter (93_implementation_defined.md U14); no statement rests on this choice.
-/

namespace Sys2Proof.Machine

/-- Test font `T0` (95_test_vectors.md section 3). -/
def fontT0 : Font where
  height := 4
  topSkip := 1
  bottomSkip := 1
  spacing := 1
  coverage := .list [0x31, 0x38, 0x41]
  desc := [⟨1, 0⟩, ⟨3, 4⟩, ⟨2, 12⟩]
  blob := [0x1F, 0xA0, 0x5C, 0xFF, 0x12, 0x34, 0x9A, 0xBC, 0x0F, 0x7E, 0xFF, 0xFF, 0x00, 0x3D, 0xE4, 0x11]

/-- Test font `T1` (95_test_vectors.md section 3). -/
def fontT1 : Font where
  height := 1
  topSkip := 0
  bottomSkip := 0
  spacing := 0
  coverage := .range 0x30 0x32
  desc := [⟨1, 0⟩, ⟨2, 1⟩, ⟨1, 2⟩]
  blob := [0xA0, 0x12, 0xF0]

/-- Test image `I0` (95_test_vectors.md section 3). -/
def imageI0 : Image where
  width := 3
  height := 2
  alpha := false
  bytes := [0x10, 0x20, 0x30, 0x4F, 0x5F, 0x6F, 0xFF, 0x00, 0x80, 0xAA, 0xBB, 0xCC,
    0x0F, 0x1F, 0x2F, 0xF0, 0xE0, 0xD0, 0x01, 0x02, 0x03, 0xDD, 0xEE, 0xFF]

/-- Test image `I1` (95_test_vectors.md section 3). -/
def imageI1 : Image where
  width := 2
  height := 1
  alpha := true
  bytes := [0x12, 0x34, 0x56, 0x78, 0x9A, 0xBC, 0xDE, 0xF0]

/-- Configuration K2 of 95_test_vectors.md section 3 at a given screen size. -/
def configK2 (w h : Nat) : Config where
  w := w
  h := h
  fonts := [⟨fontT0, true⟩, ⟨fontT1, true⟩]
  images := [imageI0, imageI1]
  ntxt := 8

/-- The configuration of State.reset: K2 at the product's size, 320 by 240 (00_scope.md R7). -/
def resetConfig : Config := configK2 320 240

end Sys2Proof.Machine
end

