-- ==== Sys2Proof/Machine/State.lean ====
section
/-!
DEFINITION. The state of PFBW (10_state.md R20) as plain data, with the configuration it is a machine of
(log entry 3) and the host's side of the ports (log entries 2, 5); the faults the block takes
(60_exceptions.md R231), which are next states; the reasons the MODEL stops; the state after reset (R38).
-/

namespace Sys2Proof.Machine

/-- The read ports of the host (10_state.md R29, 20_memory.md R63). -/
inductive ReadPort where
  /-- Port 1. -/
  | status
  /-- Port 2. -/
  | res
  /-- Port 3. -/
  | finfo
  /-- Port 4. -/
  | cfgW
  /-- Port 5. -/
  | cfgH
  /-- Port 7, the transport's: byte `a` of `FB`. -/
  | fbr (a : Nat)
  deriving DecidableEq, Repr

/-- What the host can do to the block (10_state.md R29, 70_reset_and_hazards.md R260). There is no move that
reads a write-only port or writes a read-only one (log entry 5). -/
inductive HostMove where
  /-- A write of a command record to port 0, `CMD`. -/
  | writeCmd (r : BitVec 128)
  /-- A write to port 6, `TXTW`: index in bits 31:16, value in bits 15:0. -/
  | writeTxtw (w : BitVec 32)
  /-- A read of a read port. -/
  | read (p : ReadPort)
  /-- The `RESET` input asserted. -/
  | reset
  deriving DecidableEq, Repr

/-- The faults of the block (60_exceptions.md R231). Taking one is a next state (State.raise, R238). -/
inductive BlockFault where
  /-- `F_ILLEGAL`, code 1 (R232). -/
  | illegal
  /-- `F_PRECOND`, code 2 (R233). -/
  | precond
  /-- `F_OOB`, code 3, with the coordinate that was out of bounds (R234). -/
  | oob (x y : Int)
  /-- `F_ASSET`, code 4 (R235). -/
  | asset
  deriving DecidableEq, Repr

/-- Why the model stops with a fault. None is raised by a command. -/
inductive Fault where
  /-- Raised by the step on a host read of FBR at an address `a ≥ FB_BYTES`, which 20_memory.md R63 gives no
  value (log entry 6). SAFE: the model stops where a real port would return something. -/
  | fbrOutOfRange (a : Nat)
  deriving DecidableEq, Repr

/-- Why the model refuses. None is raised by a command that has its meaning. -/
inductive Refusal where
  /-- Raised by exec on a command without a meaning yet. SAFE. No arm is left with it. -/
  | notModelled (mnemonic : String)
  /-- Raised by the step on a state whose configuration is no configuration of this hardware: "a model refuses
  it" (00_scope.md R7; 10_state.md R31, R35; 93_implementation_defined.md U10). SAFE. -/
  | illFormedConfiguration
  /-- Raised by the step on a host access that the spec excludes while `BUSY = 1` (10_state.md R29,
  20_memory.md R67, 93_implementation_defined.md U3). SAFE. No run from reset reaches a state with `BUSY = 1`. -/
  | hostAccessWhileBusy
  deriving DecidableEq, Repr

/-- The state. `fb`, `txt`, `status`, `res`, `finfo` are the architectural state (10_state.md R20). -/
structure State where
  /-- Which machine this is: fixed before reset, constant afterwards (10_state.md R20; log entry 3). -/
  cfg : Config
  /-- The bytes of `FB` written since reset, addresses strictly rising (10_state.md R21). -/
  fb : List Host.Cell
  /-- The entries of `TXT` written since reset, indices strictly rising (10_state.md R36). -/
  txt : List (Nat × BitVec 16)
  /-- `STATUS` (10_state.md R26). -/
  status : BitVec 8
  /-- `RES` (10_state.md R27). -/
  res : BitVec 32
  /-- `FINFO` (10_state.md R28). -/
  finfo : BitVec 32
  /-- The model's own: the moves the host will still make, in order (log entry 2). -/
  host : List HostMove
  /-- The model's own: what the host's last port read returned (log entry 5). -/
  portOut : BitVec 32
  /-- The model's own: the number of the current free draw of `FB` and `TXT` (log entry 1). -/
  draw : Nat
  deriving DecidableEq, Repr

/-- The state right after reset of a machine with configuration `c` (10_state.md R38), the host having no move
to make; `draw` numbers the free draw of `FB` and `TXT`. -/
def State.resetWith (c : Config) (draw : Nat) : State where
  cfg := c
  fb := []
  txt := []
  status := 0x00
  res := 0
  finfo := 0
  host := []
  portOut := 0
  draw := draw

/-- The state right after reset (10_state.md R38) of the configuration of log entry 4. -/
def State.reset : State := State.resetWith resetConfig 0

end Sys2Proof.Machine
end

