-- ==== Sys2Proof/Machine/Flags.lean ====
section
/-!
DEFINITION. The fields of `STATUS` (10_state.md R26) and the fault codes and fault information
(60_exceptions.md R231, R238). PFBW has no condition codes: no command sets a flag (10_state.md R25).
-/

namespace Sys2Proof.Machine

/-- `BUSY`, bit 0 of `STATUS`. -/
def statusBusy (st : BitVec 8) : Bool := st.getLsbD 0

/-- `FAULT`, bit 1 of `STATUS`. -/
def statusFault (st : BitVec 8) : Bool := st.getLsbD 1

/-- `FCODE`, bits 7:4 of `STATUS`. -/
def statusFcode (st : BitVec 8) : BitVec 4 := st.extractLsb' 4 4

/-- The fault code written to `FCODE` (60_exceptions.md R231). -/
def faultCode : BlockFault → BitVec 4
  | .illegal => 1
  | .precond => 2
  | .oob _ _ => 3
  | .asset => 4

/-- `STATUS` after fault entry: `FCODE = code`, bits 3:2 zero, `FAULT = 1`, `BUSY = 0` (60_exceptions.md R238,
10_state.md R26). -/
def statusOfFault (f : BlockFault) : BitVec 8 := faultCode f ++ 0b0010#4

/-- `FINFO` after fault entry: `(y mod 2^16, x mod 2^16)` for `F_OOB`, 0 otherwise (10_state.md R28,
60_exceptions.md R238). -/
def finfoOfFault : BlockFault → BitVec 32
  | .oob x y => BitVec.ofInt 16 y ++ BitVec.ofInt 16 x
  | .illegal => 0
  | .precond => 0
  | .asset => 0

end Sys2Proof.Machine
end

