-- ==== Sys2Proof/Machine/Memory.lean ====
section
/-!
DEFINITION. Sparse storage as plain data: (index, value) pairs, indices strictly rising (20_memory.md R50).
`FB` is a list of Host.Cell, `TXT` a list of the same shape with 16-bit values. An unlisted index holds no
value in the list: nothing has written it since reset (log entry 1 says what the block then reads).
-/

namespace Sys2Proof.Machine

/-- The value listed at an index, none if nothing has written it. -/
def cellsRead {α : Type} : List (Nat × α) → Nat → Option α
  | [], _ => none
  | (b, w) :: rest, a => if a = b then some w else cellsRead rest a

/-- Write one value, keeping the indices strictly rising. -/
def cellsWrite {α : Type} : List (Nat × α) → Nat → α → List (Nat × α)
  | [], a, v => [(a, v)]
  | (b, w) :: rest, a, v =>
    if a < b then (a, v) :: (b, w) :: rest
    else if a = b then (a, v) :: rest
    else (b, w) :: cellsWrite rest a v

/-- Indices strictly rising, and every index below the bound. -/
def cellsWf {α : Type} (bound : Nat) : List (Nat × α) → Bool
  | [] => true
  | [(a, _)] => decide (a < bound)
  | (a, _) :: (b, w) :: rest => decide (a < b) && cellsWf bound ((b, w) :: rest)

/-- The canonical form of `FB` storage for a framebuffer of `bytes` bytes: addresses strictly rising and all
of them addresses of the framebuffer (20_memory.md R50). An unlisted address holds no value, so no entry can
equal what an unlisted address holds. -/
def Memory.wf (bytes : Nat) (m : List Host.Cell) : Bool := cellsWf bytes m

end Sys2Proof.Machine
end

