-- ==== Sys2Proof/Machine/Bits.lean ====
section
/-!
DEFINITION. The bit-field helpers and the integer notation of 00_scope.md section 6 and R11, R12: nibbles of
a byte, channels of a colour, gray levels, `even_up`, half-open integer ranges.
-/

namespace Sys2Proof.Machine

/-- The high nibble of a byte, `b[7:4]` (00_scope.md section 6). -/
def hiNib (b : Byte) : Nibble := b.extractLsb' 4 4

/-- The low nibble of a byte, `b[3:0]` (00_scope.md section 6). -/
def loNib (b : Byte) : Nibble := b.extractLsb' 0 4

/-- The byte with the given high and low nibbles, `(hi << 4) | lo`. -/
def pack (hi lo : Nibble) : Byte := hi ++ lo

/-- `R(c) = c[11:8]` (00_scope.md R11). -/
def chanR (c : Colour) : Nibble := c.extractLsb' 8 4

/-- `G(c) = c[7:4]` (00_scope.md R11). -/
def chanG (c : Colour) : Nibble := c.extractLsb' 4 4

/-- `B(c) = c[3:0]` (00_scope.md R11). -/
def chanB (c : Colour) : Nibble := c.extractLsb' 0 4

/-- The colour with the given channels, `(R << 8) | (G << 4) | B` (00_scope.md R11). -/
def rgb (r g b : Nibble) : Colour := r ++ g ++ b

/-- `gray12(v) = (v, v, v)` (00_scope.md R12). -/
def gray12 (v : Nibble) : Colour := rgb v v v

/-- `WHITE = 0xFFF` (00_scope.md R11). -/
def white : Colour := 0xFFF

/-- `BLACK = 0x000` (00_scope.md R11). -/
def black : Colour := 0x000

/-- `even_up(n) = n + (n mod 2)` (00_scope.md section 6). -/
def evenUp (n : Nat) : Nat := n + n % 2

/-- The integers of `[a, b)` in increasing order, none when `a ≥ b` (00_scope.md section 7, Loops). -/
def irange (a b : Int) : List Int := (List.range' 0 (b - a).toNat).map fun k : Nat => a + (k : Int)

end Sys2Proof.Machine
end

