-- ==== Sys2Proof/Machine/Assets.lean ====
section
/-!
DEFINITION. The functions over the configuration: which configurations the hardware has (00_scope.md R7, R8;
10_state.md R31, R35), the glyph table (41_glyph_decoder.md R140, R141), `look` (R142), the 4-bit unpack
`GINT` (R143), the colour of an image pixel (43_layout_and_blit.md R206).
-/

namespace Sys2Proof.Machine

/-- `FB_BYTES = W*H*3/2` (00_scope.md R7). -/
def fbBytesOf (c : Config) : Nat := c.w * c.h * 3 / 2

/-- The number of code points a coverage lists; none when a range has `first > last` (10_state.md R31 b). -/
def coverageCount : Coverage → Option Nat
  | .list cps => some cps.length
  | .range first last => if first.toNat ≤ last.toNat then some (last.toNat - first.toNat + 1) else none

/-- A descriptor's fields fit their widths and its storage lies inside the blob (10_state.md R30, R31 c). -/
def descWf (f : Font) (d : GlyphDesc) : Bool :=
  decide (d.width < 2 ^ 16) && decide (d.offset < 2 ^ 32) &&
    decide (d.offset + evenUp d.width * f.height / 2 ≤ f.blob.length)

/-- A font asset is well formed (10_state.md R31), its number fields 16 bits wide (R30). -/
def fontWf (f : Font) : Bool :=
  decide (f.height < 2 ^ 16) && decide (f.topSkip < 2 ^ 16) && decide (f.bottomSkip < 2 ^ 16) &&
    decide (f.spacing < 2 ^ 16) && decide (f.topSkip + f.bottomSkip ≤ f.height) &&
    decide (coverageCount f.coverage = some f.desc.length) && decide (f.desc.length ≤ 65536) &&
    f.desc.all (descWf f)

/-- Bytes per source pixel: 4 with an interleaved alpha byte, 3 without (10_state.md R35). -/
def bytesPerPixel (m : Image) : Nat := if m.alpha then 4 else 3

/-- An image asset is well formed (10_state.md R35), its size fields 16 bits wide (R34). -/
def imageWf (m : Image) : Bool :=
  decide (m.width < 2 ^ 16) && decide (m.height < 2 ^ 16) &&
    decide (evenUp m.width * m.height * bytesPerPixel m ≤ m.bytes.length)

/-- A screen dimension of this hardware: even, 2 to 65534 (00_scope.md R7, R8). -/
def dimWf (n : Nat) : Bool := decide (n % 2 = 0) && decide (2 ≤ n) && decide (n ≤ 65534)

/-- A configuration of this hardware (00_scope.md R7, R8; 10_state.md R31, R35). -/
def configWf (c : Config) : Bool :=
  dimWf c.w && dimWf c.h && decide (c.fonts.length ≤ 65536) && decide (c.images.length ≤ 65536) &&
    decide (c.ntxt ≤ 65536) && c.fonts.all (fun e => fontWf e.font) && c.images.all imageWf

/-- A glyph of the glyph table (10_state.md R32). `height` is an integer so that no arithmetic of a rule is
truncated (00_scope.md R9). -/
structure Glyph where
  width : Nat
  bitmapWidth : Nat
  height : Int
  widthWithSpacing : Nat
  topSkip : Nat
  base : Nat
  deriving DecidableEq, Repr

/-- `font.height - top_skip - bottom_skip` (41_glyph_decoder.md R140). -/
def drawnHeight (f : Font) : Int := (f.height : Int) - f.topSkip - f.bottomSkip

/-- A glyph as the first pass of `build` makes it (41_glyph_decoder.md R140). -/
def firstPass (f : Font) (d : GlyphDesc) : Glyph where
  width := d.width
  bitmapWidth := d.width
  height := drawnHeight f
  widthWithSpacing := d.width + f.spacing
  topSkip := f.topSkip
  base := d.offset

/-- The code point glyph `g` belongs to: `cp[g]` of a list, `first + g` of a range (41_glyph_decoder.md R140). -/
def codePointOf : Coverage → Nat → Option Nat
  | .list cps, g => (cps[g]?).map BitVec.toNat
  | .range first _, g => some (first.toNat + g)

/-- Glyph `g` belongs to one of the ASCII digits, code points 0x30 to 0x39 (41_glyph_decoder.md R141). -/
def isDigitGlyph (f : Font) (g : Nat) : Bool :=
  match codePointOf f.coverage g with
  | none => false
  | some cp => decide (0x30 ≤ cp) && decide (cp ≤ 0x39)

/-- The greatest width among the digit glyphs, 0 if there are none (41_glyph_decoder.md R141). -/
def maxDigitWidth (f : Font) : Nat :=
  (f.desc.mapIdx fun g d => if isDigitGlyph f g then d.width else 0).foldr max 0

/-- The second pass of `build` on glyph `g` (41_glyph_decoder.md R141; 90_conflicts.md C6): with the
monospace flag set, a digit glyph takes the greatest digit width. -/
def secondPass (f : Font) (mono : Bool) (g : Nat) (G : Glyph) : Glyph :=
  if mono && isDigitGlyph f g then
    { G with width := maxDigitWidth f, widthWithSpacing := maxDigitWidth f + f.spacing }
  else G

/-- `build(font, mono)`, the glyph table `GT[f]` (10_state.md R33; 41_glyph_decoder.md R140, R141). -/
def glyphTable (e : FontEntry) : List Glyph :=
  e.font.desc.mapIdx fun g d => secondPass e.font e.mono g (firstPass e.font d)

/-- `look(f, cp)` (41_glyph_decoder.md R142): the smallest index of a list, `cp - first` of a range. -/
def look : Coverage → CodePoint → Option Nat
  | .list cps, cp => cps.findIdx? (fun q => decide (q = cp))
  | .range first last, cp =>
    if first.toNat ≤ cp.toNat ∧ cp.toNat ≤ last.toNat then some (cp.toNat - first.toNat) else none

/-- `GINT(f, g, x, y)` (41_glyph_decoder.md R143) on the glyph `G` and the blob of its font; none when the
blob has no such byte, which a well-formed font excludes. -/
def gint (blob : List Byte) (G : Glyph) (x y : Int) : Option Nibble :=
  let bx := x - ((G.width : Int) - G.bitmapWidth) / 2
  if y < 0 ∨ y ≥ G.height then some 0
  else if bx < 0 ∨ bx ≥ G.bitmapWidth then some 0
  else
    let off := ((y + G.topSkip) * (evenUp G.bitmapWidth : Nat) + bx).toNat
    match blob[G.base + off / 2]? with
    | none => none
    | some byte => some (if off % 2 = 0 then hiNib byte else loNib byte)

/-- The byte offset of source pixel `(ix, iy)` (43_layout_and_blit.md R206). -/
def imageOffset (m : Image) (ix iy : Nat) : Nat := (iy * evenUp m.width + ix) * bytesPerPixel m

/-- The colour of source pixel `(ix, iy)` of an image (20_memory.md R62; 43_layout_and_blit.md R206): bytes in
the order blue, green, red, the high nibble of each; none when a byte lies outside the image. -/
def imageColour (m : Image) (ix iy : Nat) : Option Colour :=
  let o := imageOffset m ix iy
  match m.bytes[o]?, m.bytes[o + 1]?, m.bytes[o + 2]? with
  | some b, some g, some r => some (rgb (hiNib r) (hiNib g) (hiNib b))
  | _, _, _ => none

end Sys2Proof.Machine
end

