-- ==== Sys2Proof/Machine/Operands.lean ====
section
/-!
DEFINITION. The operand forms: a field as an integer (00_scope.md R8, R9), the pixel bounds test
(60_exceptions.md R234), the linear index (20_memory.md R51), a font, an image, the background and
foreground of a flag.
-/

namespace Sys2Proof.Machine

/-- An operand field as the integer it stands for: unsigned (00_scope.md R8, 30_encoding.md R84). -/
def opInt (v : Coord) : Int := (v.toNat : Int)

/-- `0 ≤ x < W` and `0 ≤ y < H`, tested on the integers (60_exceptions.md R234). -/
def State.inBounds (s : State) (x y : Int) : Bool :=
  decide (0 ≤ x) && decide (x < s.cfg.w) && decide (0 ≤ y) && decide (y < s.cfg.h)

/-- The linear index `i = y*W + x` of a pixel (20_memory.md R51). -/
def State.linear (s : State) (x y : Int) : Nat := y.toNat * s.cfg.w + x.toNat

/-- `FB_BYTES` of the machine (00_scope.md R7). -/
def State.fbBytes (s : State) : Nat := fbBytesOf s.cfg

/-- Font number `f`, none when `f ≥ NFONT` (41_glyph_decoder.md R142). -/
def State.font? (s : State) (f : Coord) : Option FontEntry := s.cfg.fonts[f.toNat]?

/-- Image number `m`, none when `m ≥ NIMG` (43_layout_and_blit.md R208). -/
def State.image? (s : State) (m : Coord) : Option Image := s.cfg.images[m.toNat]?

/-- The background colour of a flag: black if `white_on_black`, else white (42_rounded_rect.md R172,
43_layout_and_blit.md R203). -/
def bgColour (wob : Bool) : Colour := if wob then black else white

/-- The foreground colour of a flag, the other one (42_rounded_rect.md R172). -/
def fgColour (wob : Bool) : Colour := if wob then white else black

end Sys2Proof.Machine
end

