-- ==== Sys2Proof/Machine/Ops.lean ====
section
/-!
DEFINITION. The named operations over the state: bytes of `FB` and entries of `TXT` with the free draw of an
unwritten one (10_state.md R38), reading and writing one pixel (20_memory.md R55, R56, R57), filling
(40_pixel_writer.md R113), taking a fault (60_exceptions.md R238), and running the unit calls a command
expands into (00_scope.md R2, 20_memory.md R64).
-/

namespace Sys2Proof.Machine

/-- `FB[a]` (00_scope.md section 7). What an unwritten byte reads as is its free draw, fixed at reset and the
same at every read until written (10_state.md R38; log entry 1). -/
def State.fbByte (s : State) (a : Nat) : Byte := (cellsRead s.fb a).getD (Config.fbDraw s.draw a)

/-- `FB[a] <- v` (00_scope.md section 7). -/
def State.fbWrite (s : State) (a : Nat) (v : Byte) : State := { s with fb := cellsWrite s.fb a v }

/-- `TXT[k]`; an unwritten entry reads as its free draw (10_state.md R36, R38; log entry 1). -/
def State.txtEntry (s : State) (k : Nat) : CodePoint := (cellsRead s.txt k).getD (Config.txtDraw s.draw k)

/-- `TXT[k] <- v` (10_state.md R29). -/
def State.txtWrite (s : State) (k : Nat) (v : CodePoint) : State := { s with txt := cellsWrite s.txt k v }

/-- `RES <- v` (10_state.md R27). -/
def State.setRes (s : State) (v : BitVec 32) : State := { s with res := v }

/-- Taking a fault (60_exceptions.md R238): `STATUS` and `FINFO` written, everything else, the writes made so
far included, as it stands. There is no return from a fault but RESET (R239; State.applyReset). -/
def State.raise (s : State) (f : BlockFault) : State :=
  { s with status := statusOfFault f, finfo := finfoOfFault f }

/-- The byte a pixel write fills whole: `3k` of an even pixel, `3k+2` of an odd one, `k = i div 2`
(20_memory.md R55, R56). -/
def wholeByte (i : Nat) : Nat := if i % 2 = 0 then 3 * (i / 2) else 3 * (i / 2) + 2

/-- The byte a pixel shares with its neighbour, `3k+1` (20_memory.md R55, R56). -/
def sharedByte (i : Nat) : Nat := 3 * (i / 2) + 1

/-- The value of the whole byte of pixel `i` (20_memory.md R55, R56). -/
def wholeValue (i : Nat) (c : Colour) : Byte := if i % 2 = 0 then pack (chanR c) (chanG c) else pack (chanG c) (chanB c)

/-- The value of the shared byte of pixel `i`, the neighbour's nibble kept (20_memory.md R55, R56). -/
def sharedValue (i : Nat) (c : Colour) (old : Byte) : Byte :=
  if i % 2 = 0 then pack (chanB c) (loNib old) else pack (hiNib old) (chanR c)

/-- Store colour `c` at the pixel with linear index `i`: the masked read-modify-write of 20_memory.md R55, R56,
through which every pixel write of every command goes (R58). -/
def State.setPixel (s : State) (i : Nat) (c : Colour) : State :=
  (s.fbWrite (wholeByte i) (wholeValue i c)).fbWrite (sharedByte i) (sharedValue i c (s.fbByte (sharedByte i)))

/-- The colour stored at the pixel with linear index `i` (20_memory.md R57). -/
def State.pixelAt (s : State) (i : Nat) : Colour :=
  if i % 2 = 0 then
    rgb (hiNib (s.fbByte (3 * (i / 2)))) (loNib (s.fbByte (3 * (i / 2)))) (hiNib (s.fbByte (3 * (i / 2) + 1)))
  else
    rgb (loNib (s.fbByte (3 * (i / 2) + 1))) (hiNib (s.fbByte (3 * (i / 2) + 2))) (loNib (s.fbByte (3 * (i / 2) + 2)))

/-- The colour stored at column `x`, row `y` (20_memory.md R51, R57). -/
def State.pixel (s : State) (x y : Nat) : Colour := s.pixelAt (y * s.cfg.w + x)

/-- Nibble `n` of `FB` seen as a stream of nibbles (20_memory.md R53). -/
def State.nibble (s : State) (n : Nat) : Nibble :=
  if n % 2 = 0 then hiNib (s.fbByte (n / 2)) else loNib (s.fbByte (n / 2))

/-- The byte triples of `n` pairs from pair `k` on, all of colour `c`, before the cells `rest`
(40_pixel_writer.md R113). -/
def fillCells (c : Colour) : Nat → Nat → List Host.Cell → List Host.Cell
  | _, 0, rest => rest
  | k, n + 1, rest =>
    (3 * k, pack (chanR c) (chanG c)) :: (3 * k + 1, pack (chanB c) (chanR c)) ::
      (3 * k + 2, pack (chanG c) (chanB c)) :: fillCells c (k + 1) n rest

/-- Every pair `k` in `[0, W*H/2)` written (40_pixel_writer.md R113); a cell past them, which a well-formed
memory does not list, is kept. -/
def State.fillAll (s : State) (c : Colour) : State :=
  let pairs := s.cfg.w * s.cfg.h / 2
  { s with fb := fillCells c 0 pairs (s.fb.filter fun cell => decide (3 * pairs ≤ cell.1)) }

/-- What a command expands into (00_scope.md R2): the unchecked pixel write of unit PW, with integer
arguments not truncated to 16 bits (00_scope.md section 7), or a fault reached in the pseudocode. -/
inductive Micro where
  /-- `WPXU(x, y, c)` (40_pixel_writer.md R110). -/
  | wpxu (x y : Int) (c : Colour)
  /-- `raise Fault(..)` (00_scope.md section 7). -/
  | raise (f : BlockFault)
  deriving DecidableEq, Repr

/-- Run unit calls in program order (20_memory.md R64): the first fault reached ends the command, the writes
before it stand (60_exceptions.md R237, R238). -/
def runMicro : List Micro → State → State
  | [], s => s
  | .raise f :: _, s => s.raise f
  | .wpxu x y c :: rest, s =>
    if s.inBounds x y then runMicro rest (s.setPixel (s.linear x y) c) else s.raise (.oob x y)

end Sys2Proof.Machine
end

