-- ==== Sys2Proof/Syntax.lean ====
section
/-!
DEFINITION. The twelve commands of 30_encoding.md R84, one constructor each, with the operands in the
order of the assembler syntax R88 where that order is free; the twelve opcodes; the fields of a command
record (R81); and the reasons a record is illegal (R86).
-/

namespace Sys2Proof

/-- A command with its operands (30_encoding.md R84, R88). Every operand is the unsigned value of its
field; `align` is the 2-bit field `ALIGN` (R82: 0 centre, 1 left, 2 right, 3 reserved). -/
inductive Instr where
  /-- WPXU, `write_pixel_unchecked` (40_pixel_writer.md R110). -/
  | wpxu (x y : Coord) (c : Colour)
  /-- WPX, `write_pixel` (40_pixel_writer.md R111). -/
  | wpx (x y : Coord) (c : Colour)
  /-- RPX, the pixel read (40_pixel_writer.md R112). -/
  | rpx (x y : Coord)
  /-- FILL, `fill` (40_pixel_writer.md R113). -/
  | fill (c : Colour)
  /-- FRECT, `fill_rect` (40_pixel_writer.md R115). -/
  | frect (x0 y0 x1 y1 : Coord) (c : Colour)
  /-- LOOKUP, `lookup` (41_glyph_decoder.md R142). -/
  | lookup (font : Coord) (cp : CodePoint)
  /-- GPIX, `glyph.pixel_intensity` (41_glyph_decoder.md R144). -/
  | gpix (font glyph gx gy : Coord)
  /-- DGLYPH, `draw_glyph` (41_glyph_decoder.md R145). -/
  | dglyph (font glyph x y : Coord) (wob sp : Bool)
  /-- RRECT, `draw_rounded_rect` (42_rounded_rect.md R184). -/
  | rrect (x0 y0 x1 y1 : Coord) (wob rl rr : Bool) (radius : Coord)
  /-- DSTR, `draw_string` (43_layout_and_blit.md R205). -/
  | dstr (toff tlen x0 y0 x1 font : Coord) (wob clear : Bool) (align : BitVec 2)
  /-- DIMG, `draw_image` (43_layout_and_blit.md R208). -/
  | dimg (image x y : Coord)
  /-- DIMGC, `draw_image_centered` (43_layout_and_blit.md R209). -/
  | dimgc (image cx cy : Coord)
  deriving DecidableEq, Repr

/-- The twelve opcodes of 30_encoding.md R84. -/
inductive Opcode where
  | wpxu | wpx | rpx | fill | frect | lookup | gpix | dglyph | rrect | dstr | dimg | dimgc
  deriving DecidableEq, Repr

/-- The fields of a command record, named as 30_encoding.md R81 names them. -/
structure Fields where
  opc : BitVec 8
  flg : BitVec 8
  a : Coord
  b : Coord
  c : Coord
  d : Coord
  col : Colour
  z : BitVec 4
  e : Coord
  f : Coord
  deriving DecidableEq, Repr

/-- Why a record is illegal (30_encoding.md R86), by name. `shortRecord` is the byte decoder's alone: fewer
than the sixteen bytes of a record (R80). -/
inductive Illegal where
  | unassignedOpcode (opc : BitVec 8)
  | reservedField
  | reservedFlags
  | unusedField
  | unusedFlag
  | reservedAlign
  | shortRecord
  deriving DecidableEq, Repr

end Sys2Proof
end

