-- ==== Sys2Proof/Machine/GlyphDecoder.lean ====
section
/-!
DEFINITION. Unit GD, 41_glyph_decoder.md: LOOKUP (R142), GPIX (R144), DGLYPH (R145). The functions they rest
on (build, look, GINT) stand in Machine/Assets.lean.
-/

namespace Sys2Proof.Machine

/-- What LOOKUP writes to `RES`: found in bit 16 and the index in bits 15:0, or 0 (10_state.md R27). -/
def lookupResult : Option Nat → BitVec 32
  | some g => 1#16 ++ BitVec.ofNat 16 g
  | none => 0

/-- LOOKUP (41_glyph_decoder.md R142). -/
def execLookup (font : Coord) (cp : CodePoint) (s : State) : Host.Outcome State Fault Refusal :=
  .next (match s.font? font with
    | none => s.raise .asset
    | some e => s.setRes (lookupResult (look e.font.coverage cp)))

/-- GPIX (41_glyph_decoder.md R144). -/
def execGpix (font glyph gx gy : Coord) (s : State) : Host.Outcome State Fault Refusal :=
  .next (match s.font? font with
    | none => s.raise .asset
    | some e =>
      match (glyphTable e)[glyph.toNat]? with
      | none => s.raise .asset
      | some G =>
        match gint e.font.blob G (opInt gx) (opInt gy) with
        | none => s.raise .asset
        | some v => s.setRes (v.setWidth 32))

/-- The width DGLYPH draws: `width_with_spacing` or `width`, rounded up to even (41_glyph_decoder.md R145). -/
def drawnWidth (G : Glyph) (sp : Bool) : Nat := evenUp (if sp then G.widthWithSpacing else G.width)

/-- The intensity DGLYPH writes: inverted unless `white_on_black` (41_glyph_decoder.md R145). -/
def inkOf (wob : Bool) (v : Nibble) : Nibble := if wob then v else 15#4 - v

/-- The unit call of DGLYPH for the local coordinate `(gx, gy)` (41_glyph_decoder.md R145). -/
def glyphPixelMicro (blob : List Byte) (G : Glyph) (x y : Int) (wob : Bool) (gx gy : Int) : Micro :=
  match gint blob G gx gy with
  | none => .raise .asset
  | some v => .wpxu (x + gx) (y + gy) (gray12 (inkOf wob v))

/-- The unit calls of `DGLYPH(f, g, x, y, wob, sp)` for a font entry (41_glyph_decoder.md R145): `F_ASSET` when
`g` is no index of its glyph table, before any write; rows top to bottom, each left to right. -/
def glyphMicro (e : FontEntry) (g : Nat) (x y : Int) (wob sp : Bool) : List Micro :=
  match (glyphTable e)[g]? with
  | none => [.raise .asset]
  | some G =>
    (irange 0 G.height).flatMap fun gy =>
      (irange 0 (drawnWidth G sp)).map fun gx => glyphPixelMicro e.font.blob G x y wob gx gy

/-- DGLYPH (41_glyph_decoder.md R145). -/
def execDglyph (font glyph x y : Coord) (wob sp : Bool) (s : State) : Host.Outcome State Fault Refusal :=
  .next (match s.font? font with
    | none => s.raise .asset
    | some e => runMicro (glyphMicro e glyph.toNat (opInt x) (opInt y) wob sp) s)

end Sys2Proof.Machine
end

