-- ==== Sys2Proof/Machine/PixelWriter.lean ====
section
/-!
DEFINITION. Unit PW, 40_pixel_writer.md: WPXU (R110), WPX (R111), RPX (R112), FILL (R113), FRECT (R115).
-/

namespace Sys2Proof.Machine

/-- WPXU (40_pixel_writer.md R110). -/
def execWpxu (x y : Coord) (c : Colour) (s : State) : Host.Outcome State Fault Refusal :=
  .next (runMicro [.wpxu (opInt x) (opInt y) c] s)

/-- WPX (40_pixel_writer.md R111): nothing when `x ≥ W` or `y ≥ H`, else WPXU. -/
def execWpx (x y : Coord) (c : Colour) (s : State) : Host.Outcome State Fault Refusal :=
  .next (if s.cfg.w ≤ x.toNat ∨ s.cfg.h ≤ y.toNat then s else runMicro [.wpxu (opInt x) (opInt y) c] s)

/-- RPX (40_pixel_writer.md R112). -/
def execRpx (x y : Coord) (s : State) : Host.Outcome State Fault Refusal :=
  .next (if s.inBounds (opInt x) (opInt y) then s.setRes ((s.pixelAt (s.linear (opInt x) (opInt y))).setWidth 32)
    else s.raise (.oob (opInt x) (opInt y)))

/-- FILL (40_pixel_writer.md R113; R114: its fast path is not observable). -/
def execFill (c : Colour) (s : State) : Host.Outcome State Fault Refusal :=
  .next (s.fillAll c)

/-- The unit calls of `FRECT(x0, y0, x1, y1, c)` on a screen of `w` by `h` (40_pixel_writer.md R115): `x1` and
`y1` clamped to the screen, `x0` to the clamped `x1`; rows top to bottom, each left to right. -/
def frectMicro (w h : Nat) (x0 y0 x1 y1 : Int) (c : Colour) : List Micro :=
  (irange y0 (min y1 h)).flatMap fun y =>
    (irange (min x0 (min x1 w)) (min x1 w)).map fun x => .wpxu x y c

/-- FRECT (40_pixel_writer.md R115). -/
def execFrect (x0 y0 x1 y1 : Coord) (c : Colour) (s : State) : Host.Outcome State Fault Refusal :=
  .next (runMicro (frectMicro s.cfg.w s.cfg.h (opInt x0) (opInt y0) (opInt x1) (opInt y1) c) s)

end Sys2Proof.Machine
end

