-- ==== Sys2Proof/Machine/Layout.lean ====
section
/-!
DEFINITION. Tier 2, 43_layout_and_blit.md: string layout (R200 to R204) and DSTR (R205); image blit (R206 to
R208), DIMG (R208) and DIMGC (R209).
-/

namespace Sys2Proof.Machine

/-- The text of DSTR: the `n` entries of `TXT` from `toff` on (30_encoding.md R85). -/
def State.text (s : State) (toff n : Nat) : List CodePoint := (List.range' toff n).map s.txtEntry

/-- `w(k)`: the width of a character's glyph, 0 for a missing one (43_layout_and_blit.md R201). -/
def charWidth (e : FontEntry) (cp : CodePoint) : Nat :=
  match look e.font.coverage cp with
  | none => 0
  | some g => (((glyphTable e)[g]?).map Glyph.width).getD 0

/-- The total text width `tw` (43_layout_and_blit.md R201): a missing glyph still counts one spacing
(90_conflicts.md C7). -/
def textWidth (e : FontEntry) (text : List CodePoint) : Int :=
  (e.font.spacing : Int) * ((text.length : Int) - 1) + ((text.map (charWidth e)).sum : Nat)

/-- The start column (43_layout_and_blit.md R202): `align` 1 is left, 2 right, 0 centre (30_encoding.md R82);
only the centre start is clamped; the division is floor division. -/
def textStart (align : BitVec 2) (x0 x1 tw : Int) : Int :=
  if align = 1 then x0
  else if align = 2 then x1 - tw
  else max x0 (x0 + (x1 - x0 - tw) / 2)

/-- The unit calls of the glyphs of a text from column `x` on (43_layout_and_blit.md R204): a non-final glyph is
drawn with its spacing, the final one without; an uncovered character is skipped; the spacing advances after
every character but the last. -/
def textMicro (e : FontEntry) (y0 : Int) (wob : Bool) : Int → List CodePoint → List Micro
  | _, [] => []
  | x, cp :: rest =>
    (match look e.font.coverage cp with
      | none => []
      | some g => glyphMicro e g x y0 wob (!rest.isEmpty)) ++
    textMicro e y0 wob (x + charWidth e cp + (if rest.isEmpty then 0 else e.font.spacing)) rest

/-- The two side fills of `clear_sides` (43_layout_and_blit.md R203), over the rows a glyph draws. -/
def sidesMicro (w h : Nat) (e : FontEntry) (x0 y0 x1 start stop : Int) (wob : Bool) : List Micro :=
  frectMicro w h x0 y0 start (y0 + drawnHeight e.font) (bgColour wob) ++
    frectMicro w h stop y0 x1 (y0 + drawnHeight e.font) (bgColour wob)

/-- The unit calls of DSTR after its head tests (43_layout_and_blit.md R205). -/
def dstrMicro (w h : Nat) (e : FontEntry) (text : List CodePoint) (x0 y0 x1 : Int) (wob clear : Bool)
    (align : BitVec 2) : List Micro :=
  let tw := textWidth e text
  let start := textStart align x0 x1 tw
  (if clear then sidesMicro w h e x0 y0 x1 start (start + tw) wob else []) ++ textMicro e y0 wob start text

/-- DSTR (43_layout_and_blit.md R205): the tests at its head in the order of R205 and 60_exceptions.md R237. -/
def execDstr (toff tlen x0 y0 x1 font : Coord) (wob clear : Bool) (align : BitVec 2) (s : State) :
    Host.Outcome State Fault Refusal :=
  .next (if align = 3 then s.raise .illegal
    else match s.font? font with
      | none => s.raise .asset
      | some e =>
        if tlen.toNat = 0 ∨ x1.toNat < x0.toNat then s
        else if s.cfg.ntxt < toff.toNat + tlen.toNat then s.raise .asset
        else runMicro (dstrMicro s.cfg.w s.cfg.h e (s.text toff.toNat tlen.toNat) (opInt x0) (opInt y0) (opInt x1)
          wob clear align) s)

/-- The unit call of the blit for the destination pixel `(ix, iy)` of the image (43_layout_and_blit.md R206,
R207, R208): black past the true width, `F_ASSET` when a source byte lies outside the image. -/
def imagePixelMicro (m : Image) (x y : Int) (ix iy : Nat) : Micro :=
  if ix < m.width then
    match imageColour m ix iy with
    | none => .raise .asset
    | some c => .wpxu (x + ix) (y + iy) c
  else .wpxu (x + ix) (y + iy) black

/-- The unit calls of `DIMG(m, x, y)` (43_layout_and_blit.md R208): rows top to bottom, each left to right, the
width rounded up to even. -/
def imageMicro (m : Image) (x y : Int) : List Micro :=
  (List.range' 0 m.height).flatMap fun iy =>
    (List.range' 0 (evenUp m.width)).map fun ix => imagePixelMicro m x y ix iy

/-- DIMG (43_layout_and_blit.md R208). -/
def execDimg (image x y : Coord) (s : State) : Host.Outcome State Fault Refusal :=
  .next (match s.image? image with
    | none => s.raise .asset
    | some m => runMicro (imageMicro m (opInt x) (opInt y)) s)

/-- DIMGC (43_layout_and_blit.md R209): DIMG at `(cx - width div 2, cy - height div 2)`, on integers. -/
def execDimgc (image cx cy : Coord) (s : State) : Host.Outcome State Fault Refusal :=
  .next (match s.image? image with
    | none => s.raise .asset
    | some m => runMicro (imageMicro m (opInt cx - (m.width / 2 : Nat)) (opInt cy - (m.height / 2 : Nat))) s)

end Sys2Proof.Machine
end

