-- ==== Sys2Proof/Machine/RoundedRect.lean ====
section
/-!
DEFINITION. Unit RR, 42_rounded_rect.md: the fixed-point edge function (R174), the octant steps (R175), the
colour of a scan pixel (R176 to R179), the two scans in four corners (R173, R180), the cross fill (R181), the
order (R182), and RRECT (R184).
-/

namespace Sys2Proof.Machine

/-- Binary search of `isqrt`: the bits from `2^(b-1)` down, `s` the root found so far. -/
def isqrtFrom (n : Nat) : Nat → Nat → Nat
  | 0, s => s
  | b + 1, s => if (s + 2 ^ b) * (s + 2 ^ b) ≤ n then isqrtFrom n b (s + 2 ^ b) else isqrtFrom n b s

/-- `isqrt(n)`: the integer `s` with `s*s ≤ n < (s+1)*(s+1)` (00_scope.md section 6). -/
def isqrt (n : Nat) : Nat := isqrtFrom n (n.log2 / 2 + 1) 0

/-- `X16(e) = isqrt(256 * (r*r - e*e))`, `0 ≤ e ≤ r` (42_rounded_rect.md R174). -/
def x16 (r e : Nat) : Nat := isqrt (256 * (r * r - e * e))

/-- `xi(e) = X16(e) >> 4` (42_rounded_rect.md R174). -/
def xi (r e : Nat) : Nat := x16 r e / 16

/-- The coverage value `a(e) = X16(e) & 0xF` (42_rounded_rect.md R174). -/
def coverageValue (r e : Nat) : Nibble := BitVec.ofNat 4 (x16 r e)

/-- The anti-aliased colour `AA(e)` (42_rounded_rect.md R177). -/
def aaColour (wob : Bool) (r e : Nat) : Colour :=
  if wob then gray12 (15#4 - coverageValue r e) else gray12 (coverageValue r e)

/-- `colour(e, d, rounded)`: the colour of the scan pixel at offset `d` in step `e` (42_rounded_rect.md R176,
R178). At `e = 0` no offset of the box reaches `xi = r`, so no boundary pixel is drawn (R179). -/
def scanColour (wob : Bool) (r e d : Nat) (rounded : Bool) : Colour :=
  if d < xi r e then bgColour wob
  else if !rounded then bgColour wob
  else if d = xi r e then aaColour wob r e
  else fgColour wob

/-- The octant steps: `e = 0, 1, 2, ...` while `e ≤ r` and `e ≤ xi(e)`, ended by the first that fails
(42_rounded_rect.md R175). -/
def octantSteps (r : Nat) : List Nat := (List.range' 0 (r + 1)).takeWhile fun e => decide (e ≤ xi r e)

/-- A corner: its centre pixel, the outward direction of its offsets, and whether it is rounded
(42_rounded_rect.md R173). -/
structure Corner where
  cx : Int
  cy : Int
  sx : Int
  sy : Int
  rounded : Bool
  deriving DecidableEq, Repr

/-- The pixel of a corner box at offsets `(dx, dy)` from the centre pixel outward (42_rounded_rect.md R173). -/
def cornerPixel (q : Corner) (dx dy : Nat) (c : Colour) : Micro :=
  .wpxu (q.cx + q.sx * dx) (q.cy + q.sy * dy) c

/-- The row scan of step `e` in a corner: `dy = e`, `dx = 0 .. r-1` (42_rounded_rect.md R180). -/
def rowScan (wob : Bool) (r e : Nat) (q : Corner) : List Micro :=
  (List.range' 0 r).map fun d => cornerPixel q d e (scanColour wob r e d q.rounded)

/-- The column scan of step `e` in a corner: `dx = e`, `dy = 0 .. r-1` (42_rounded_rect.md R180). -/
def colScan (wob : Bool) (r e : Nat) (q : Corner) : List Micro :=
  (List.range' 0 r).map fun d => cornerPixel q e d (scanColour wob r e d q.rounded)

/-- The four corners in the order TL, TR, BL, BR (42_rounded_rect.md R173, R182). -/
def corners (x0 y0 x1 y1 : Int) (r : Nat) (rl rr : Bool) : List Corner :=
  [⟨x0 + r - 1, y0 + r - 1, -1, -1, rl⟩, ⟨x1 - r, y0 + r - 1, 1, -1, rr⟩,
   ⟨x0 + r - 1, y1 - r, -1, 1, rl⟩, ⟨x1 - r, y1 - r, 1, 1, rr⟩]

/-- The scans: steps in increasing order, inside a step the corners in order, inside a corner the row scan then
the column scan (42_rounded_rect.md R180, R182). -/
def scanMicro (x0 y0 x1 y1 : Int) (r : Nat) (wob rl rr : Bool) : List Micro :=
  (octantSteps r).flatMap fun e =>
    (corners x0 y0 x1 y1 r rl rr).flatMap fun q => rowScan wob r e q ++ colScan wob r e q

/-- The cross fill: the full-width band, then the two vertical bands (42_rounded_rect.md R181). -/
def crossMicro (w h : Nat) (x0 y0 x1 y1 : Int) (r : Nat) (wob : Bool) : List Micro :=
  frectMicro w h x0 (y0 + r - 1) x1 (y1 - r + 1) (bgColour wob) ++
    frectMicro w h (x0 + r - 1) y0 (x1 - r + 1) (y0 + r - 1) (bgColour wob) ++
    frectMicro w h (x0 + r - 1) (y1 - r + 1) (x1 - r + 1) y1 (bgColour wob)

/-- The preconditions of RRECT: the document's (42_rounded_rect.md R170) and the spec's three (R171). -/
def rrectPre (w h : Nat) (x0 y0 x1 y1 r : Nat) : Bool :=
  decide (x0 ≤ x1) && decide (x1 ≤ w) && decide (y0 ≤ y1) && decide (y1 ≤ h) &&
    decide (1 ≤ r) && decide (2 * r ≤ x1 - x0) && decide (2 * r ≤ y1 - y0)

/-- RRECT (42_rounded_rect.md R184). -/
def execRrect (x0 y0 x1 y1 : Coord) (wob rl rr : Bool) (radius : Coord) (s : State) :
    Host.Outcome State Fault Refusal :=
  .next (if rrectPre s.cfg.w s.cfg.h x0.toNat y0.toNat x1.toNat y1.toNat radius.toNat then
      runMicro (scanMicro (opInt x0) (opInt y0) (opInt x1) (opInt y1) radius.toNat wob rl rr ++
        crossMicro s.cfg.w s.cfg.h (opInt x0) (opInt y0) (opInt x1) (opInt y1) radius.toNat wob) s
    else s.raise .precond)

end Sys2Proof.Machine
end

