-- ==== Sys2Proof/Machine/Dispatch.lean ====
section
/-! DEFINITION. The meaning of each command of 30_encoding.md R84, one arm each. -/

namespace Sys2Proof.Machine

def exec (i : Instr) (s : State) : Host.Outcome State Fault Refusal :=
  match i with
  | .wpxu x y c => Sys2Proof.Machine.execWpxu x y c s
  | .wpx x y c => Sys2Proof.Machine.execWpx x y c s
  | .rpx x y => Sys2Proof.Machine.execRpx x y s
  | .fill c => Sys2Proof.Machine.execFill c s
  | .frect x0 y0 x1 y1 c => Sys2Proof.Machine.execFrect x0 y0 x1 y1 c s
  | .lookup font cp => Sys2Proof.Machine.execLookup font cp s
  | .gpix font glyph gx gy => Sys2Proof.Machine.execGpix font glyph gx gy s
  | .dglyph font glyph x y wob sp => Sys2Proof.Machine.execDglyph font glyph x y wob sp s
  | .rrect x0 y0 x1 y1 wob rl rr radius => Sys2Proof.Machine.execRrect x0 y0 x1 y1 wob rl rr radius s
  | .dstr toff tlen x0 y0 x1 font wob clear align => Sys2Proof.Machine.execDstr toff tlen x0 y0 x1 font wob clear align s
  | .dimg image x y => Sys2Proof.Machine.execDimg image x y s
  | .dimgc image cx cy => Sys2Proof.Machine.execDimgc image cx cy s

end Sys2Proof.Machine
end

