-- ==== Sys2Proof/WellFormed.lean ====
section
/-!
DEFINITION. Which commands have a record: all but a DSTR whose `ALIGN` is the reserved value 3
(30_encoding.md R82, R86). The other bounds of R81 are the widths of the operands' types.
-/

namespace Sys2Proof

/-- The command has a legal record (30_encoding.md R86). -/
def Instr.wf : Instr → Bool
  | .dstr _ _ _ _ _ _ _ _ align => align != 3#2
  | .wpxu .. | .wpx .. | .rpx .. | .fill .. | .frect .. | .lookup .. | .gpix .. | .dglyph .. | .rrect ..
  | .dimg .. | .dimgc .. => true

end Sys2Proof
end

