-- ==== Sys2Proof/Decode.lean ====
section
/-!
DEFINITION. Command encoding, 30_encoding.md: the fields of a record (R81, R82), the opcode map (R84),
legality (R86), the decoder and the encoder written from the same table, and the little-endian
serialisation of a record (R83).
-/

namespace Sys2Proof

/-- The fields of a record, bit 0 least significant (30_encoding.md R81). -/
def Fields.ofRecord (r : Record) : Fields where
  opc := r.extractLsb' 0 8
  flg := r.extractLsb' 8 8
  a := r.extractLsb' 16 16
  b := r.extractLsb' 32 16
  c := r.extractLsb' 48 16
  d := r.extractLsb' 64 16
  col := r.extractLsb' 80 12
  z := r.extractLsb' 92 4
  e := r.extractLsb' 96 16
  f := r.extractLsb' 112 16

/-- The record made of the fields (30_encoding.md R81). -/
def Fields.toRecord (x : Fields) : Record :=
  x.f ++ x.e ++ x.z ++ x.col ++ x.d ++ x.c ++ x.b ++ x.a ++ x.flg ++ x.opc

/-- `WOB`, bit 0 of `FLG` (30_encoding.md R82). -/
def Fields.wob (x : Fields) : Bool := x.flg.getLsbD 0

/-- `SP`, bit 1 of `FLG`: `include_spacing` of DGLYPH, `clear_sides` of DSTR (30_encoding.md R82). -/
def Fields.sp (x : Fields) : Bool := x.flg.getLsbD 1

/-- `RL`, bit 2 of `FLG` (30_encoding.md R82). -/
def Fields.rl (x : Fields) : Bool := x.flg.getLsbD 2

/-- `RR`, bit 3 of `FLG` (30_encoding.md R82). -/
def Fields.rr (x : Fields) : Bool := x.flg.getLsbD 3

/-- `ALIGN`, bits 5:4 of `FLG` (30_encoding.md R82). -/
def Fields.align (x : Fields) : BitVec 2 := x.flg.extractLsb' 4 2

/-- `FLG` from its subfields, bits 7:6 zero (30_encoding.md R82). -/
def flgOf (align : BitVec 2) (rr rl sp wob : Bool) : BitVec 8 :=
  0#2 ++ align ++ BitVec.ofBool rr ++ BitVec.ofBool rl ++ BitVec.ofBool sp ++ BitVec.ofBool wob

/-- The opcode numbers of 30_encoding.md R84. -/
def Opcode.code : Opcode → BitVec 8
  | .wpxu => 0x01
  | .wpx => 0x02
  | .rpx => 0x03
  | .fill => 0x04
  | .frect => 0x05
  | .lookup => 0x10
  | .gpix => 0x11
  | .dglyph => 0x12
  | .rrect => 0x20
  | .dstr => 0x30
  | .dimg => 0x31
  | .dimgc => 0x32

/-- The command an opcode byte selects; none for the 244 unassigned values (30_encoding.md R84, R87). -/
def Opcode.ofByte (b : BitVec 8) : Option Opcode :=
  if b = 0x01 then some .wpxu
  else if b = 0x02 then some .wpx
  else if b = 0x03 then some .rpx
  else if b = 0x04 then some .fill
  else if b = 0x05 then some .frect
  else if b = 0x10 then some .lookup
  else if b = 0x11 then some .gpix
  else if b = 0x12 then some .dglyph
  else if b = 0x20 then some .rrect
  else if b = 0x30 then some .dstr
  else if b = 0x31 then some .dimg
  else if b = 0x32 then some .dimgc
  else none

/-- The cells of 30_encoding.md R84 that are not `0`, for one command: are all the fields it does not use
zero? -/
def Opcode.unusedFieldsZero (op : Opcode) (x : Fields) : Bool :=
  match op with
  | .wpxu => x.c == 0 && x.d == 0 && x.e == 0 && x.f == 0
  | .wpx => x.c == 0 && x.d == 0 && x.e == 0 && x.f == 0
  | .rpx => x.c == 0 && x.d == 0 && x.col == 0 && x.e == 0 && x.f == 0
  | .fill => x.a == 0 && x.b == 0 && x.c == 0 && x.d == 0 && x.e == 0 && x.f == 0
  | .frect => x.e == 0 && x.f == 0
  | .lookup => x.a == 0 && x.b == 0 && x.c == 0 && x.d == 0 && x.col == 0
  | .gpix => x.c == 0 && x.d == 0 && x.col == 0
  | .dglyph => x.c == 0 && x.d == 0 && x.col == 0
  | .rrect => x.col == 0 && x.f == 0
  | .dstr => x.col == 0
  | .dimg => x.c == 0 && x.d == 0 && x.col == 0 && x.f == 0
  | .dimgc => x.c == 0 && x.d == 0 && x.col == 0 && x.f == 0

/-- The flags listed for the command in 30_encoding.md R84, as a mask of bits 5:0 of `FLG`. -/
def Opcode.flagMask : Opcode → BitVec 8
  | .dglyph => 0b00000011
  | .rrect => 0b00001101
  | .dstr => 0b00110011
  | .wpxu | .wpx | .rpx | .fill | .frect | .lookup | .gpix | .dimg | .dimgc => 0

/-- Are all the flags of bits 5:0 that the command does not use zero (30_encoding.md R82, R86)? -/
def Opcode.unusedFlagsZero (op : Opcode) (x : Fields) : Bool :=
  (x.flg &&& ~~~op.flagMask &&& 0b00111111) == 0

/-- The command of a record's fields: each operand from the field 30_encoding.md R84, R85 name. -/
def Opcode.build (op : Opcode) (x : Fields) : Instr :=
  match op with
  | .wpxu => .wpxu x.a x.b x.col
  | .wpx => .wpx x.a x.b x.col
  | .rpx => .rpx x.a x.b
  | .fill => .fill x.col
  | .frect => .frect x.a x.b x.c x.d x.col
  | .lookup => .lookup x.e x.f
  | .gpix => .gpix x.e x.f x.a x.b
  | .dglyph => .dglyph x.e x.f x.a x.b x.wob x.sp
  | .rrect => .rrect x.a x.b x.c x.d x.wob x.rl x.rr x.e
  | .dstr => .dstr x.d x.f x.a x.b x.c x.e x.wob x.sp x.align
  | .dimg => .dimg x.e x.a x.b
  | .dimgc => .dimgc x.e x.a x.b

/-- Why the fields are illegal under the opcode, or none if they are legal (30_encoding.md R86). -/
def Opcode.illegal? (op : Opcode) (x : Fields) : Option Illegal :=
  if x.z ≠ 0 then some .reservedField
  else if x.flg.extractLsb' 6 2 ≠ 0 then some .reservedFlags
  else if !op.unusedFieldsZero x then some .unusedField
  else if !op.unusedFlagsZero x then some .unusedFlag
  else if op = .dstr ∧ x.align = 3 then some .reservedAlign
  else none

/-- Decoding of a record's fields (30_encoding.md R84, R86). -/
def decodeFields (x : Fields) : Except Illegal Instr :=
  match Opcode.ofByte x.opc with
  | none => .error (.unassignedOpcode x.opc)
  | some op =>
    match op.illegal? x with
    | some why => .error why
    | none => .ok (op.build x)

/-- Decoding of a command record: one command, or the reason it is illegal. -/
def decodeRecord (r : Record) : Except Illegal Instr := decodeFields (Fields.ofRecord r)

/-- Byte `j` of a serialised record holds bits `8j+7 : 8j` (30_encoding.md R83). -/
def recordByte (r : Record) (j : Nat) : Byte := r.extractLsb' (8 * j) 8

/-- The sixteen bytes of a record, little-endian (30_encoding.md R83). -/
def recordBytes (r : Record) : List Byte := (List.range' 0 16).map (recordByte r)

/-- Decoding of a command stored as bytes: the command and the bytes after it. Total on any bytes. -/
def decodeBytes : List Byte → Except Illegal (Instr × List Byte)
  | b0 :: b1 :: b2 :: b3 :: b4 :: b5 :: b6 :: b7 :: b8 :: b9 :: b10 :: b11 :: b12 :: b13 :: b14 :: b15 :: rest =>
    match decodeRecord (b15 ++ b14 ++ b13 ++ b12 ++ b11 ++ b10 ++ b9 ++ b8 ++ b7 ++ b6 ++ b5 ++ b4 ++ b3 ++ b2 ++
        b1 ++ b0 : Record) with
    | .ok i => .ok (i, rest)
    | .error why => .error why
  | _ => .error .shortRecord

/-- The opcode of a command (30_encoding.md R84). -/
def Instr.opcode : Instr → Opcode
  | .wpxu .. => .wpxu
  | .wpx .. => .wpx
  | .rpx .. => .rpx
  | .fill .. => .fill
  | .frect .. => .frect
  | .lookup .. => .lookup
  | .gpix .. => .gpix
  | .dglyph .. => .dglyph
  | .rrect .. => .rrect
  | .dstr .. => .dstr
  | .dimg .. => .dimg
  | .dimgc .. => .dimgc

/-- A record with an opcode and every other field zero. -/
def Fields.blank (op : Opcode) : Fields :=
  { opc := op.code, flg := 0, a := 0, b := 0, c := 0, d := 0, col := 0, z := 0, e := 0, f := 0 }

/-- The fields of a command's record (30_encoding.md R81, R82, R84): unused fields and flags zero. -/
def encodeFields : Instr → Fields
  | .wpxu x y c => { Fields.blank .wpxu with a := x, b := y, col := c }
  | .wpx x y c => { Fields.blank .wpx with a := x, b := y, col := c }
  | .rpx x y => { Fields.blank .rpx with a := x, b := y }
  | .fill c => { Fields.blank .fill with col := c }
  | .frect x0 y0 x1 y1 c => { Fields.blank .frect with a := x0, b := y0, c := x1, d := y1, col := c }
  | .lookup font cp => { Fields.blank .lookup with e := font, f := cp }
  | .gpix font glyph gx gy => { Fields.blank .gpix with a := gx, b := gy, e := font, f := glyph }
  | .dglyph font glyph x y wob sp =>
    { Fields.blank .dglyph with flg := flgOf 0 false false sp wob, a := x, b := y, e := font, f := glyph }
  | .rrect x0 y0 x1 y1 wob rl rr radius =>
    { Fields.blank .rrect with flg := flgOf 0 rr rl false wob, a := x0, b := y0, c := x1, d := y1, e := radius }
  | .dstr toff tlen x0 y0 x1 font wob clear align =>
    { Fields.blank .dstr with
      flg := flgOf align false false clear wob, a := x0, b := y0, c := x1, d := toff, e := font, f := tlen }
  | .dimg image x y => { Fields.blank .dimg with a := x, b := y, e := image }
  | .dimgc image cx cy => { Fields.blank .dimgc with a := cx, b := cy, e := image }

/-- The record of a command. -/
def encode (i : Instr) : Record := (encodeFields i).toRecord

/-- The bytes of a command as they are stored or sent (30_encoding.md R83). -/
def encodeBytes (i : Instr) : List Byte := recordBytes (encode i)

/-- The record whose low `nbits` bits are those of `w` and whose other bits are zero. -/
def tableRecord (nbits w : Nat) : Record := BitVec.ofNat 128 (w % 2 ^ nbits)

/-- What the decoder reads from an instruction whose bits are `w`, numbered as spec/opcode_table.json
numbers them; the record is laid out little-endian (30_encoding.md R83) and given to the byte decoder. -/
def decodeTableWord (nbits w : Nat) : Option Instr :=
  match decodeBytes (recordBytes (tableRecord nbits w)) with
  | .ok (i, _) => some i
  | .error _ => none

end Sys2Proof
end

