-- ==== Sys2Proof/Machine/HostPort.lean ====
section
/-!
DEFINITION. The host's side of a step (10_state.md R29): the host's next move, what each port does with it, and
the command it starts, if any. RESET (70_reset_and_hazards.md R260). What the step then runs is Step.lean's.
-/

namespace Sys2Proof.Machine

/-- What a read of a port returns, zero-extended to 32 bits (10_state.md R29; FBR: 20_memory.md R63). No read
changes anything (20_memory.md R59). -/
def State.readPort (s : State) : ReadPort → BitVec 32
  | .status => s.status.setWidth 32
  | .res => s.res
  | .finfo => s.finfo
  | .cfgW => BitVec.ofNat 32 s.cfg.w
  | .cfgH => BitVec.ofNat 32 s.cfg.h
  | .fbr a => (s.fbByte a).setWidth 32

/-- The port number of a read port (10_state.md R29). -/
def ReadPort.number : ReadPort → Nat
  | .status => 1
  | .res => 2
  | .finfo => 3
  | .cfgW => 4
  | .cfgH => 5
  | .fbr _ => 7

/-- The port number of a move, none for the RESET input, which is no port (10_state.md R29). -/
def HostMove.port? : HostMove → Option Nat
  | .writeCmd _ => some 0
  | .writeTxtw _ => some 6
  | .read p => some p.number
  | .reset => none

/-- The host's move is taken off its list. -/
def State.popHost (s : State) : State := { s with host := s.host.tail }

/-- The host has read a port. -/
def State.setPortOut (s : State) (v : BitVec 32) : State := { s with portOut := v }

/-- RESET (70_reset_and_hazards.md R260, 10_state.md R38): the state after reset of the same configuration, `FB`
and `TXT` a new free draw. The host keeps the moves it will still make and what it last read. -/
def State.applyReset (s : State) : State :=
  { State.resetWith s.cfg (s.draw + 1) with host := s.host, portOut := s.portOut }

/-- A write of `w` to TXTW while idle and not faulted (10_state.md R29): `TXT[index] <- value` if `index < NTXT`,
nothing otherwise. -/
def State.txtwWrite (s : State) (w : BitVec 32) : State :=
  if (w.extractLsb' 16 16).toNat < s.cfg.ntxt then s.txtWrite (w.extractLsb' 16 16).toNat (w.extractLsb' 0 16) else s

/-- What the host's move leads to: a command to run, or the outcome of the step. -/
inductive Front where
  | run (i : Instr) (s : State)
  | done (o : Host.Outcome State Fault Refusal)

/-- A write of record `r` to CMD (10_state.md R29): dropped while FAULT = 1 (60_exceptions.md R239), no such move
while BUSY = 1; otherwise the command starts, or the illegal record raises F_ILLEGAL (60_exceptions.md R232). -/
def State.writeCmd (s : State) (r : Record) : Front :=
  if statusFault s.status then .done (.next s)
  else if statusBusy s.status then .done (.refused .hostAccessWhileBusy)
  else match decodeRecord r with
    | .ok i => .run i s
    | .error _ => .done (.next (s.raise .illegal))

/-- A write to TXTW (10_state.md R29, 60_exceptions.md R239). -/
def State.writeTxtw (s : State) (w : BitVec 32) : Front :=
  if statusFault s.status then .done (.next s)
  else if statusBusy s.status then .done (.refused .hostAccessWhileBusy)
  else .done (.next (s.txtwWrite w))

/-- A read of a port (10_state.md R29, 60_exceptions.md R239): the registers at any time, FBR only while
BUSY = 0 and only at the addresses of `FB` (20_memory.md R63; log entry 6). -/
def State.hostRead (s : State) : ReadPort → Front
  | .fbr a =>
    if statusBusy s.status then .done (.refused .hostAccessWhileBusy)
    else if a < s.fbBytes then .done (.next (s.setPortOut (s.readPort (.fbr a))))
    else .done (.fault (.fbrOutOfRange a))
  | .status => .done (.next (s.setPortOut (s.readPort .status)))
  | .res => .done (.next (s.setPortOut (s.readPort .res)))
  | .finfo => .done (.next (s.setPortOut (s.readPort .finfo)))
  | .cfgW => .done (.next (s.setPortOut (s.readPort .cfgW)))
  | .cfgH => .done (.next (s.setPortOut (s.readPort .cfgH)))

/-- The host's next move (10_state.md R24, R29; log entry 2). A state whose configuration is not one of this
hardware is refused (00_scope.md R7). With no move left the block is idle and does nothing
(70_reset_and_hazards.md R260). -/
def State.front (s : State) : Front :=
  if !configWf s.cfg then .done (.refused .illFormedConfiguration)
  else match s.host with
    | [] => .done (.next s)
    | .writeCmd r :: _ => s.popHost.writeCmd r
    | .writeTxtw w :: _ => s.popHost.writeTxtw w
    | .read p :: _ => s.popHost.hostRead p
    | .reset :: _ => .done (.next s.popHost.applyReset)

/-- The state with `r` as the record the host writes to CMD next. Where the block would drop or refuse that
write, STATUS and FINFO are those of an idle, unfaulted block. -/
def State.withCommand (s : State) (r : Record) : State :=
  if statusFault s.status || statusBusy s.status then { s with host := .writeCmd r :: s.host, status := 0, finfo := 0 }
  else { s with host := .writeCmd r :: s.host }

end Sys2Proof.Machine
end

