-- ==== Sys2Proof/Machine/Step.lean ====
section
/-!
DEFINITION. One step: the host's next move, and the command it starts run to completion as one atomic
transition (00_scope.md R10, 20_memory.md R67). PFBW fetches nothing (10_state.md R24): a command arrives at CMD.
-/

namespace Sys2Proof.Machine

/-- One step of the machine (10_state.md R24, R29; 00_scope.md R10). -/
def step (s : State) : Host.Outcome State Fault Refusal :=
  match s.front with
  | .run i s' => exec i s'
  | .done o => o

/-- `s` with the record of low bits `w` as what the host writes to CMD next (log entry 2). -/
def State.withFetchWord (s : State) (nbits w : Nat) : State := s.withCommand (tableRecord nbits w)

end Sys2Proof.Machine
end

