-- ==== Sys2Proof/Machine/Assembly.lean ====
section
/-!
DEFINITION. The assembler syntax of 30_encoding.md R88 on its words: a mnemonic and its operands, each a number (its
value, however it is spelled), a flag or an alignment. How a line is cut into words is not modelled (log entry 7).
-/

namespace Sys2Proof

/-- The flag names of the syntax (30_encoding.md R88). -/
inductive FlagName where
  | wob | sp | clear | rl | rr
  deriving DecidableEq, Repr

/-- The alignment names of the syntax (30_encoding.md R88). -/
inductive AlignName where
  | center | left | right
  deriving DecidableEq, Repr

/-- One operand of a line. -/
inductive Arg where
  /-- A number, decimal or hexadecimal. -/
  | num (n : Nat)
  /-- `name=0` or `name=1`. -/
  | flag (name : FlagName) (value : Bool)
  /-- `align=` and a name. -/
  | align (name : AlignName)
  deriving DecidableEq, Repr

/-- The mnemonic of an opcode (30_encoding.md R84). -/
def Opcode.mnemonic : Opcode → String
  | .wpxu => "WPXU"
  | .wpx => "WPX"
  | .rpx => "RPX"
  | .fill => "FILL"
  | .frect => "FRECT"
  | .lookup => "LOOKUP"
  | .gpix => "GPIX"
  | .dglyph => "DGLYPH"
  | .rrect => "RRECT"
  | .dstr => "DSTR"
  | .dimg => "DIMG"
  | .dimgc => "DIMGC"

/-- The value of `ALIGN` (30_encoding.md R82). -/
def alignCode : AlignName → BitVec 2
  | .center => 0
  | .left => 1
  | .right => 2

/-- The options of DSTR, each of which may be left out, in the order of the syntax: `wob`, `clear`, `align`; the
defaults are `wob=1`, `clear=1`, `align=center` (30_encoding.md R88). -/
def dstrOptions : List Arg → Option (Bool × Bool × BitVec 2)
  | [] => some (true, true, alignCode .center)
  | [.flag .wob w] => some (w, true, alignCode .center)
  | [.flag .clear c] => some (true, c, alignCode .center)
  | [.align a] => some (true, true, alignCode a)
  | [.flag .wob w, .flag .clear c] => some (w, c, alignCode .center)
  | [.flag .wob w, .align a] => some (w, true, alignCode a)
  | [.flag .clear c, .align a] => some (true, c, alignCode a)
  | [.flag .wob w, .flag .clear c, .align a] => some (w, c, alignCode a)
  | _ => none

/-- Do all the numbers fit 16-bit fields (30_encoding.md R81)? -/
def fit16 (ns : List Nat) : Bool := ns.all fun n => decide (n < 2 ^ 16)

/-- The 16-bit field of a number. -/
def field (n : Nat) : Coord := BitVec.ofNat 16 n

/-- The command of a line if its numbers fit their fields. -/
def guardFit (ok : Bool) (i : Instr) : Option Instr := if ok then some i else none

/-- The command a line assembles to; none when it does not have the form of the syntax or a number does not fit its
field (30_encoding.md R88, R81). -/
def assemble : Opcode → List Arg → Option Instr
  | .wpxu, [.num x, .num y, .num c] =>
    guardFit (fit16 [x, y] && decide (c < 2 ^ 12)) (.wpxu (field x) (field y) (BitVec.ofNat 12 c))
  | .wpx, [.num x, .num y, .num c] =>
    guardFit (fit16 [x, y] && decide (c < 2 ^ 12)) (.wpx (field x) (field y) (BitVec.ofNat 12 c))
  | .rpx, [.num x, .num y] => guardFit (fit16 [x, y]) (.rpx (field x) (field y))
  | .fill, [.num c] => guardFit (decide (c < 2 ^ 12)) (.fill (BitVec.ofNat 12 c))
  | .frect, [.num x0, .num y0, .num x1, .num y1, .num c] =>
    guardFit (fit16 [x0, y0, x1, y1] && decide (c < 2 ^ 12))
      (.frect (field x0) (field y0) (field x1) (field y1) (BitVec.ofNat 12 c))
  | .lookup, [.num font, .num cp] => guardFit (fit16 [font, cp]) (.lookup (field font) (field cp))
  | .gpix, [.num font, .num glyph, .num gx, .num gy] =>
    guardFit (fit16 [font, glyph, gx, gy]) (.gpix (field font) (field glyph) (field gx) (field gy))
  | .dglyph, [.num font, .num glyph, .num x, .num y, .flag .wob w, .flag .sp s] =>
    guardFit (fit16 [font, glyph, x, y]) (.dglyph (field font) (field glyph) (field x) (field y) w s)
  | .rrect, [.num x0, .num y0, .num x1, .num y1, .flag .wob w, .flag .rl l, .flag .rr r, .num radius] =>
    guardFit (fit16 [x0, y0, x1, y1, radius])
      (.rrect (field x0) (field y0) (field x1) (field y1) w l r (field radius))
  | .dstr, .num toff :: .num tlen :: .num x0 :: .num y0 :: .num x1 :: .num font :: options =>
    match dstrOptions options with
    | none => none
    | some (w, c, a) =>
      guardFit (fit16 [toff, tlen, x0, y0, x1, font])
        (.dstr (field toff) (field tlen) (field x0) (field y0) (field x1) (field font) w c a)
  | .dimg, [.num image, .num x, .num y] => guardFit (fit16 [image, x, y]) (.dimg (field image) (field x) (field y))
  | .dimgc, [.num image, .num cx, .num cy] =>
    guardFit (fit16 [image, cx, cy]) (.dimgc (field image) (field cx) (field cy))
  | _, _ => none

end Sys2Proof
end

