-- ==== Sys2Proof/Safety.lean ====
section
/-!
DEFINITION. The terms the claims use: the invariant of the machine, a completed and a faulted run
(70_reset_and_hazards.md R268), what it means that a command changes FB alone and paints a set of pixels
(20_memory.md R58), and a program of commands (10_state.md R24).
-/

namespace Sys2Proof.Machine

/-- The values of `STATUS` between commands: idle, or one of the four faults with BUSY = 0 and bits 3:2 zero
(10_state.md R26; 60_exceptions.md R231, R238). -/
def statusLegal (st : BitVec 8) : Bool := [0x00#8, 0x12#8, 0x22#8, 0x32#8, 0x42#8].contains st

/-- The invariant: a configuration of this hardware (00_scope.md R7); FB and TXT in canonical form inside their
address spaces (20_memory.md R50); a legal STATUS (10_state.md R26); FINFO 0 but for F_OOB (10_state.md R28). -/
def State.inv (s : State) : Bool :=
  configWf s.cfg && Memory.wf s.fbBytes s.fb && cellsWf s.cfg.ntxt s.txt && statusLegal s.status &&
    (statusFcode s.status == 3 || s.finfo == 0)

/-- The block has faulted: "A run in which STATUS.FAULT = 1 has ended in a fault" (70_reset_and_hazards.md R268). -/
def State.faulted (s : State) : Bool := statusFault s.status

/-- The end of a run: no command left, the block idle and not faulted (70_reset_and_hazards.md R268). -/
def State.completed (s : State) : Bool := s.host.isEmpty && !statusBusy s.status && !statusFault s.status

/-- `t` is `s` but for FB. -/
def fbOnly (s t : State) : Prop := t = { s with fb := t.fb }

/-- Between `s` and `t` no byte of FB changes but those a write of a pixel of `P` stores to: its whole byte and
its shared byte (20_memory.md R55, R56). -/
def storesIn (s t : State) (P : Nat → Nat → Prop) : Prop :=
  ∀ a, (∀ x y, P x y → a ≠ wholeByte (y * s.cfg.w + x) ∧ a ≠ sharedByte (y * s.cfg.w + x)) →
    t.fbByte a = s.fbByte a

/-- `t` is `s` with the pixels of `P` painted: FB alone changes, in the bytes of those pixels alone; on the screen
the pixels of `P` hold their colour and every other pixel holds what it held. -/
def paints (s t : State) (P : Nat → Nat → Prop) (colour : Nat → Nat → Colour) : Prop :=
  fbOnly s t ∧ storesIn s t P ∧
    ∀ x y, x < s.cfg.w → y < s.cfg.h →
      (P x y → t.pixel x y = colour x y) ∧ (¬ P x y → t.pixel x y = s.pixel x y)

/-- A program: the commands one after another, each after the one before it completed; after a fault every
later command is dropped (10_state.md R24). -/
def runProgram : List Instr → State → Host.Outcome State Fault Refusal
  | [], s => .next s
  | i :: rest, s =>
    if statusFault s.status then .next s
    else match exec i s with
      | .next t => runProgram rest t
      | .fault r => .fault r
      | .refused r => .refused r

/-- Column "mask" of spec/opcode_table.json. -/
def tableMask : Opcode → Record
  | .wpxu => 0xFFFFFFFFF000FFFFFFFF00000000FFFF
  | .wpx => 0xFFFFFFFFF000FFFFFFFF00000000FFFF
  | .rpx => 0xFFFFFFFFFFFFFFFFFFFF00000000FFFF
  | .fill => 0xFFFFFFFFF000FFFFFFFFFFFFFFFFFFFF
  | .frect => 0xFFFFFFFFF0000000000000000000FFFF
  | .lookup => 0x00000000FFFFFFFFFFFFFFFFFFFFFFFF
  | .gpix => 0x00000000FFFFFFFFFFFF00000000FFFF
  | .dglyph => 0x00000000FFFFFFFFFFFF00000000FCFF
  | .rrect => 0xFFFF0000FFFF0000000000000000F2FF
  | .dstr => 0x00000000FFFF0000000000000000CCFF
  | .dimg => 0xFFFF0000FFFFFFFFFFFF00000000FFFF
  | .dimgc => 0xFFFF0000FFFFFFFFFFFF00000000FFFF

/-- Column "match" of spec/opcode_table.json. -/
def tableMatch : Opcode → Record
  | .wpxu => 0x01
  | .wpx => 0x02
  | .rpx => 0x03
  | .fill => 0x04
  | .frect => 0x05
  | .lookup => 0x10
  | .gpix => 0x11
  | .dglyph => 0x12
  | .rrect => 0x20
  | .dstr => 0x30
  | .dimg => 0x31
  | .dimgc => 0x32

/-- The colour RRECT leaves at offsets `(dx, dy)` of a corner box: none when both are past the last octant step;
else that of the later of the two scans that reach it, step `max` of the offsets that are steps
(42_rounded_rect.md R176 to R183). -/
def cornerResult (wob : Bool) (r dx dy : Nat) (rounded : Bool) : Option Colour :=
  if dx ≤ xi r dx ∧ (dy ≤ dx ∨ xi r dy < dy) then some (scanColour wob r dx dy rounded)
  else if dy ≤ xi r dy then some (scanColour wob r dy dx rounded)
  else none

/-- What RRECT leaves at offset `(i, j)` from the rectangle's top-left pixel, the rectangle `wd` by `ht`: the corner
boxes as `cornerResult`, background everywhere else (42_rounded_rect.md R173, R181, R183). -/
def rrectResult (wd ht r : Nat) (wob rl rr : Bool) (i j : Nat) : Option Colour :=
  let dx := if i < r then some (r - 1 - i, rl) else if wd - r ≤ i then some (i - (wd - r), rr) else none
  let dy := if j < r then some (r - 1 - j) else if ht - r ≤ j then some (j - (ht - r)) else none
  match dx, dy with
  | some (dx, rounded), some dy => cornerResult wob r dx dy rounded
  | _, _ => some (if wob then 0x000 else 0xFFF)

/-- The column character `k` of a text starts at (43_layout_and_blit.md R204): the widths of the covered characters
before it, and one spacing for every character before it. -/
def charColumn (e : FontEntry) (text : List CodePoint) (start : Int) (k : Nat) : Int :=
  start + ((text.take k).map (charWidth e)).sum + (e.font.spacing : Int) * k

/-- Character `k` of a text is covered and its glyph, drawn from its column on, covers column `x`: all but the final
character are drawn with their spacing (43_layout_and_blit.md R204). -/
def charCovers (e : FontEntry) (text : List CodePoint) (start : Int) (k : Nat) (G : Glyph) (x : Int) : Prop :=
  ∃ cp g, text[k]? = some cp ∧ look e.font.coverage cp = some g ∧ (glyphTable e)[g]? = some G ∧
    charColumn e text start k ≤ x ∧
    x < charColumn e text start k + drawnWidth G (decide (k + 1 < text.length))

/-- The DGLYPH commands of a text from column `x` on (43_layout_and_blit.md R204). -/
def glyphProgram (font : Coord) (e : FontEntry) (y0 : Coord) (wob : Bool) : Nat → List CodePoint → List Instr
  | _, [] => []
  | x, cp :: rest =>
    match look e.font.coverage cp with
    | none => glyphProgram font e y0 wob (x + if rest = [] then 0 else e.font.spacing) rest
    | some g =>
      .dglyph font (BitVec.ofNat 16 g) (BitVec.ofNat 16 x) y0 wob (decide (rest ≠ [])) ::
        glyphProgram font e y0 wob (x + charWidth e cp + if rest = [] then 0 else e.font.spacing) rest

end Sys2Proof.Machine
end

