-- ==== Sys2Proof/Certificates/Slice0/Obligations.lean ====
section
/-!
DEFINITION. The statements for the provers, each a Prop named for what it says, from the rules of spec/. The
terms fbOnly, storesIn, paints, runProgram and State.inv are those of Sys2Proof/Safety.lean.
-/

open Sys2Proof Sys2Proof.Machine

/-! ## Encoding (30_encoding.md) -/

/-- Decoding the record of a well-formed command gives the command back, every operand at every value
(30_encoding.md R81, R84). -/
def Obligations.DecodeOfEncodeIsTheCommand : Prop :=
  ∀ i : Instr, i.wf = true → decodeRecord (encode i) = .ok i

/-- A record that decodes is the record of its command, which is well formed: each legal record has one meaning
(30_encoding.md R84, R86, R87). -/
def Obligations.LegalRecordIsTheEncodingOfItsCommand : Prop :=
  ∀ (r : Record) (i : Instr), decodeRecord r = .ok i → i.wf = true ∧ encode i = r

/-- A record decodes to a command of an opcode exactly when it agrees with that opcode's row of
spec/opcode_table.json, and, for DSTR, `ALIGN ≠ 3` (30_encoding.md R84, R86). -/
def Obligations.LegalityIsTheOpcodeTable : Prop :=
  ∀ (r : Record) (op : Opcode),
    (∃ i, decodeRecord r = .ok i ∧ i.opcode = op) ↔
      r &&& tableMask op = tableMatch op ∧ (op = .dstr → r.extractLsb' 12 2 ≠ 3)

/-- Byte `j` of a serialised record holds bits `8j+7 : 8j`, and the byte decoder reads sixteen such bytes as the
record decoder reads the record, handing back the bytes after it (30_encoding.md R83). -/
def Obligations.RecordBytesAreLittleEndian : Prop :=
  ∀ r : Record,
    (recordBytes r).length = 16 ∧ (∀ j, j < 16 → (recordBytes r)[j]? = some (r.extractLsb' (8 * j) 8)) ∧
      ∀ rest : List Byte,
        decodeBytes (recordBytes r ++ rest) =
          match decodeRecord r with
          | .ok i => .ok (i, rest)
          | .error why => .error why

/-- The worked encodings of 30_encoding.md section 5 decode to the commands written beside them. -/
def Obligations.WorkedEncodingsDecode : Prop :=
  decodeRecord 0x00000000000000000000000000010001 = .ok (.wpxu 1 0 0x000) ∧
  decodeRecord 0x00000000000000000000000000010002 = .ok (.wpx 1 0 0x000) ∧
  decodeRecord 0x0000000005A700000000000100030001 = .ok (.wpxu 3 1 0x5A7) ∧
  decodeRecord 0x00000000000000000000000000000003 = .ok (.rpx 0 0) ∧
  decodeRecord 0x000000000FFF00000000000000000004 = .ok (.fill 0xFFF) ∧
  decodeRecord 0x000000000F0F00090009000000010005 = .ok (.frect 1 0 9 9 0xF0F) ∧
  decodeRecord 0x00380000000000000000000000000010 = .ok (.lookup 0 0x38) ∧
  decodeRecord 0x00010000000000000000000000020011 = .ok (.gpix 0 1 2 0) ∧
  decodeRecord 0x00010000000000000000000100020112 = .ok (.dglyph 0 1 2 1 true false) ∧
  decodeRecord 0x00000004000000080008000000000C20 = .ok (.rrect 0 0 8 8 false true true 4) ∧
  decodeRecord 0x0002000000000000000C000100000330 = .ok (.dstr 0 2 0 1 12 0 true true 0) ∧
  decodeRecord 0x00000000000000000000000000010031 = .ok (.dimg 0 1 0) ∧
  decodeRecord 0x00000000000000000000000200040032 = .ok (.dimgc 0 4 2)

/-- Every line of the assembler syntax whose numbers fit their fields assembles to the command of its mnemonic with
its operands in the order of the syntax, and what a line assembles to has a legal record of that mnemonic; a flag
left out of DSTR takes its default, `wob=1`, `clear=1`, `align=center` (30_encoding.md R88). A number that fits a
field is written as the value of that field. Lines are taken as words, and DSTR's options in the order of the syntax,
the model's choice of log entry 7. -/
def Obligations.AssemblerLinesAreLegalRecords : Prop :=
  (∀ (op : Opcode) (args : List Arg) (i : Instr), assemble op args = some i →
    i.opcode = op ∧ i.wf = true ∧ encode i &&& tableMask op = tableMatch op ∧ decodeRecord (encode i) = .ok i) ∧
  (∀ (x y : Coord) (c : Colour),
    assemble .wpxu [.num x.toNat, .num y.toNat, .num c.toNat] = some (.wpxu x y c) ∧
      assemble .wpx [.num x.toNat, .num y.toNat, .num c.toNat] = some (.wpx x y c) ∧
      assemble .rpx [.num x.toNat, .num y.toNat] = some (.rpx x y) ∧
      assemble .fill [.num c.toNat] = some (.fill c)) ∧
  (∀ (x0 y0 x1 y1 : Coord) (c : Colour),
    assemble .frect [.num x0.toNat, .num y0.toNat, .num x1.toNat, .num y1.toNat, .num c.toNat] =
      some (.frect x0 y0 x1 y1 c)) ∧
  (∀ font cp : Coord, assemble .lookup [.num font.toNat, .num cp.toNat] = some (.lookup font cp)) ∧
  (∀ font glyph gx gy : Coord,
    assemble .gpix [.num font.toNat, .num glyph.toNat, .num gx.toNat, .num gy.toNat] =
      some (.gpix font glyph gx gy)) ∧
  (∀ (font glyph x y : Coord) (wob sp : Bool),
    assemble .dglyph [.num font.toNat, .num glyph.toNat, .num x.toNat, .num y.toNat, .flag .wob wob, .flag .sp sp] =
      some (.dglyph font glyph x y wob sp)) ∧
  (∀ (x0 y0 x1 y1 radius : Coord) (wob rl rr : Bool),
    assemble .rrect [.num x0.toNat, .num y0.toNat, .num x1.toNat, .num y1.toNat, .flag .wob wob, .flag .rl rl,
      .flag .rr rr, .num radius.toNat] = some (.rrect x0 y0 x1 y1 wob rl rr radius)) ∧
  (∀ image x y : Coord,
    assemble .dimg [.num image.toNat, .num x.toNat, .num y.toNat] = some (.dimg image x y) ∧
      assemble .dimgc [.num image.toNat, .num x.toNat, .num y.toNat] = some (.dimgc image x y)) ∧
  (alignCode .center = 0 ∧ alignCode .left = 1 ∧ alignCode .right = 2) ∧
  ∀ toff tlen x0 y0 x1 font : Coord,
    let line := fun options : List Arg => assemble .dstr
      ([.num toff.toNat, .num tlen.toNat, .num x0.toNat, .num y0.toNat, .num x1.toNat, .num font.toNat] ++ options)
    let command := fun (wob clear : Bool) (align : BitVec 2) => some (Instr.dstr toff tlen x0 y0 x1 font wob clear align)
    line [] = command true true 0 ∧
      ∀ (w c : Bool) (a : AlignName),
        line [.flag .wob w] = command w true 0 ∧
        line [.flag .clear c] = command true c 0 ∧
        line [.align a] = command true true (alignCode a) ∧
        line [.flag .wob w, .flag .clear c] = command w c 0 ∧
        line [.flag .wob w, .align a] = command w true (alignCode a) ∧
        line [.flag .clear c, .align a] = command true c (alignCode a) ∧
        line [.flag .wob w, .flag .clear c, .align a] = command w c (alignCode a)

/-! ## The step: the host's ports, faults, reset (10_state.md, 60_exceptions.md, 70_reset_and_hazards.md) -/

/-- A step runs the decoded command: idle, not faulted, the host writes a legal record to CMD; nothing is added
around it but that the host's move is taken (10_state.md R24, R29). -/
def Obligations.StepRunsTheDecodedCommand : Prop :=
  ∀ (s : State) (r : Record) (rest : List HostMove) (i : Instr),
    configWf s.cfg = true → statusFault s.status = false → statusBusy s.status = false →
    s.host = .writeCmd r :: rest → decodeRecord r = .ok i → step s = exec i { s with host := rest }

/-- On an idle, unfaulted machine the step after State.withFetchWord is exec of the command the word decodes to,
on the state as it was (log entry 2). -/
def Obligations.FetchedWordIsRunNext : Prop :=
  ∀ (s : State) (nbits w : Nat) (i : Instr),
    configWf s.cfg = true → statusFault s.status = false → statusBusy s.status = false →
    decodeTableWord nbits w = some i → step (s.withFetchWord nbits w) = exec i s

/-- A record that agrees with no row of spec/opcode_table.json, or is a DSTR with `ALIGN = 3`, raises F_ILLEGAL when
it is written to CMD: STATUS reports it, FINFO is 0, and no other state of the block changes (60_exceptions.md R232;
30_encoding.md R86). -/
def Obligations.IllegalRecordRaisesFIllegal : Prop :=
  ∀ (s : State) (r : Record) (rest : List HostMove),
    configWf s.cfg = true → statusFault s.status = false → statusBusy s.status = false →
    s.host = .writeCmd r :: rest →
    (∀ op : Opcode, r &&& tableMask op = tableMatch op → op = .dstr ∧ r.extractLsb' 12 2 = 3) →
    step s = .next { s with host := rest, status := 0x12, finfo := 0 }

/-- While FAULT = 1 writes to CMD and TXTW change nothing, reads still return the ports, and RESET clears the
fault (60_exceptions.md R239). -/
def Obligations.FaultIsStickyUntilReset : Prop :=
  ∀ (s : State) (m : HostMove) (rest : List HostMove),
    configWf s.cfg = true → statusFault s.status = true → statusBusy s.status = false → s.host = m :: rest →
    match m with
    | .writeCmd _ => step s = .next { s with host := rest }
    | .writeTxtw _ => step s = .next { s with host := rest }
    | .read (.fbr a) => a < s.fbBytes → step s = .next { s with host := rest, portOut := (s.fbByte a).setWidth 32 }
    | .read .status => step s = .next { s with host := rest, portOut := s.status.setWidth 32 }
    | .read .res => step s = .next { s with host := rest, portOut := s.res }
    | .read .finfo => step s = .next { s with host := rest, portOut := s.finfo }
    | .read .cfgW => step s = .next { s with host := rest, portOut := BitVec.ofNat 32 s.cfg.w }
    | .read .cfgH => step s = .next { s with host := rest, portOut := BitVec.ofNat 32 s.cfg.h }
    | .reset => ∃ t, step s = .next t ∧ t.status = 0

/-- No step but a RESET takes a machine out of a fault or changes what it holds: STATUS, FINFO, RES, FB and TXT
stand (60_exceptions.md R239). -/
def Obligations.OnlyResetLeavesAFault : Prop :=
  ∀ s t : State, statusFault s.status = true → s.host.head? ≠ some .reset → step s = .next t →
    t.status = s.status ∧ t.finfo = s.finfo ∧ t.res = s.res ∧ t.fb = s.fb ∧ t.txt = s.txt ∧ t.draw = s.draw

/-- A write to TXTW while idle and not faulted stores the value at the index if the index is below NTXT and does
nothing otherwise (10_state.md R29). -/
def Obligations.TxtwWriteStoresOneEntry : Prop :=
  ∀ (s : State) (index value : BitVec 16) (rest : List HostMove),
    configWf s.cfg = true → statusFault s.status = false → statusBusy s.status = false →
    s.host = .writeTxtw (index ++ value) :: rest →
    ∃ t, step s = .next t ∧ t = { s with host := rest, txt := t.txt } ∧
      (index.toNat < s.cfg.ntxt → t.txtEntry index.toNat = value ∧
        ∀ k, k ≠ index.toNat → t.txtEntry k = s.txtEntry k) ∧
      (s.cfg.ntxt ≤ index.toNat → t.txt = s.txt)

/-- Reads of the ports return what the ports hold and change nothing of the block: STATUS, RES, FINFO, CFG_W and
CFG_H at any time, FBR byte `a` of FB while idle (10_state.md R29, 20_memory.md R59, R63). Past the end of FB the
model stops with a fault of its own (log entry 6). -/
def Obligations.PortReadsReturnThePorts : Prop :=
  ∀ (s : State) (p : ReadPort) (rest : List HostMove),
    configWf s.cfg = true → s.host = .read p :: rest →
    match p with
    | .status => step s = .next { s with host := rest, portOut := s.status.setWidth 32 }
    | .res => step s = .next { s with host := rest, portOut := s.res }
    | .finfo => step s = .next { s with host := rest, portOut := s.finfo }
    | .cfgW => step s = .next { s with host := rest, portOut := BitVec.ofNat 32 s.cfg.w }
    | .cfgH => step s = .next { s with host := rest, portOut := BitVec.ofNat 32 s.cfg.h }
    | .fbr a => statusBusy s.status = false →
        step s = if a < s.fbBytes then .next { s with host := rest, portOut := (s.fbByte a).setWidth 32 }
          else .fault (.fbrOutOfRange a)

/-- RESET, at any time, busy and faulted included, puts the block in the state after reset, idle and unfaulted; FB
and TXT are a new free draw (70_reset_and_hazards.md R260). -/
def Obligations.ResetMoveResetsTheBlock : Prop :=
  ∀ (s : State) (rest : List HostMove), configWf s.cfg = true → s.host = .reset :: rest →
    ∃ t, step s = .next t ∧
      t = { State.resetWith s.cfg (s.draw + 1) with host := rest, portOut := s.portOut } ∧
      statusBusy t.status = false ∧ statusFault t.status = false ∧ t.res = 0 ∧ t.finfo = 0 ∧
      (∀ a, t.fbByte a = Config.fbDraw (s.draw + 1) a) ∧ ∀ k, t.txtEntry k = Config.txtDraw (s.draw + 1) k

/-- What reset leaves: STATUS, RES and FINFO zero, CFG_W and CFG_H the screen size, every byte of FB and entry of
TXT a free draw (10_state.md R38). -/
def Obligations.ResetLeavesTheStatedValues : Prop :=
  ∀ (c : Config) (d : Nat), configWf c = true →
    let s := State.resetWith c d
    s.status = 0x00 ∧ s.res = 0x00000000 ∧ s.finfo = 0x00000000 ∧
      (s.readPort .cfgW).toNat = c.w ∧ (s.readPort .cfgH).toNat = c.h ∧
      (∀ a, s.fbByte a = Config.fbDraw d a) ∧ ∀ k, s.txtEntry k = Config.txtDraw d k

/-- With no move of the host the block does nothing (70_reset_and_hazards.md R260). -/
def Obligations.IdleBlockDoesNothing : Prop :=
  ∀ s : State, configWf s.cfg = true → s.host = [] → step s = .next s

/-- A configuration that is none of this hardware is refused: a screen side that is odd, zero or out of its range, an
asset that is not well formed, a count out of its range, an asset field wider than its width (00_scope.md R7, R8;
10_state.md R30, R31, R34, R35). That the ranges of R8 and the widths of R30 and R34 are refused as R7 refuses an odd
side is the model's reading, log entry 9. -/
def Obligations.IllFormedConfigurationIsRefused : Prop :=
  ∀ s : State, configWf s.cfg = false → step s = .refused .illFormedConfiguration

/-! ## The whole machine -/

/-- The invariant holds after reset, of every configuration of this hardware and of State.reset (10_state.md R38). -/
def Obligations.InvariantHoldsAtReset : Prop :=
  (∀ (c : Config) (d : Nat), configWf c = true → (State.resetWith c d).inv = true) ∧ State.reset.inv = true

/-- Every step keeps the invariant: a configuration of the hardware, FB and TXT canonical inside their address
spaces, a legal STATUS, FINFO 0 but for F_OOB. -/
def Obligations.StepKeepsTheInvariant : Prop :=
  ∀ s t : State, s.inv = true → step s = .next t → t.inv = true

/-- No step changes the configuration, and a command changes FB, STATUS, RES and FINFO alone (10_state.md R20). -/
def Obligations.NothingButTheArchitecturalStateChanges : Prop :=
  (∀ s t : State, step s = .next t → t.cfg = s.cfg) ∧
    ∀ (i : Instr) (s t : State), exec i s = .next t →
      t = { s with fb := t.fb, status := t.status, res := t.res, finfo := t.finfo }

/-- RES is written by RPX, GPIX and LOOKUP alone, with the zero-extended colour, the zero-extended intensity and
found and index (0 when nothing is found); every other command, a faulting one included, leaves it, and so does every
move of the host that starts no command, RESET apart; the host reads it at port 2 (10_state.md R27). -/
def Obligations.ResIsWrittenByThreeCommands : Prop :=
  (∀ (s t : State), step s = .next t → (∀ r, s.host.head? ≠ some (.writeCmd r)) → s.host.head? ≠ some .reset →
    t.res = s.res) ∧
  HostMove.port? (.read .res) = some 2 ∧
  (∀ (s : State) (rest : List HostMove), configWf s.cfg = true → s.host = .read .res :: rest →
    step s = .next { s with host := rest, portOut := s.res }) ∧
  ∀ (i : Instr) (s t : State), exec i s = .next t →
    match i with
    | .rpx x y =>
      t.res = if x.toNat < s.cfg.w ∧ y.toNat < s.cfg.h then (s.pixel x.toNat y.toNat).setWidth 32 else s.res
    | .gpix font glyph gx gy =>
      t.res = match s.cfg.fonts[font.toNat]? with
        | none => s.res
        | some e => match (glyphTable e)[glyph.toNat]? with
          | none => s.res
          | some G => match gint e.font.blob G gx.toNat gy.toNat with
            | none => s.res
            | some v => v.setWidth 32
    | .lookup font cp =>
      t.res = match s.cfg.fonts[font.toNat]? with
        | none => s.res
        | some e => match look e.font.coverage cp with
          | none => 0
          | some g => BitVec.ofNat 32 (2 ^ 16 + g % 2 ^ 16)
    | .wpxu .. => t.res = s.res
    | .wpx .. => t.res = s.res
    | .fill .. => t.res = s.res
    | .frect .. => t.res = s.res
    | .dglyph .. => t.res = s.res
    | .rrect .. => t.res = s.res
    | .dstr .. => t.res = s.res
    | .dimg .. => t.res = s.res
    | .dimgc .. => t.res = s.res

/-- A command leaves STATUS and FINFO as they were, or takes one of the four faults: STATUS is the code, FAULT = 1
and BUSY = 0; RES stands; FINFO is 0 but for F_OOB (10_state.md R26, R28; 60_exceptions.md R231, R238). -/
def Obligations.StatusAndFinfoChangeByFaultEntryOnly : Prop :=
  ∀ (i : Instr) (s t : State), exec i s = .next t →
    (t.status = s.status ∧ t.finfo = s.finfo) ∨
      (t.res = s.res ∧ t.txt = s.txt ∧
        ((t.status = 0x12 ∧ t.finfo = 0) ∨ (t.status = 0x22 ∧ t.finfo = 0) ∨ t.status = 0x32 ∨
          (t.status = 0x42 ∧ t.finfo = 0)))

/-- Every command completes or faults, which is a next state; and WPX, FILL, FRECT never fault, RPX, LOOKUP and
GPIX never write FB (70_reset_and_hazards.md R268; 60_exceptions.md R234; 10_state.md R21). -/
def Obligations.EveryCommandEndsInANextState : Prop :=
  ∀ (i : Instr) (s : State), ∃ t, exec i s = .next t ∧
    match i with
    | .wpx .. => t.status = s.status ∧ t.finfo = s.finfo
    | .fill .. => t.status = s.status ∧ t.finfo = s.finfo
    | .frect .. => t.status = s.status ∧ t.finfo = s.finfo
    | .rrect .. => t.status = s.status ∨ t.status = 0x22
    | .rpx .. => t.fb = s.fb
    | .lookup .. => t.fb = s.fb
    | .gpix .. => t.fb = s.fb
    | .wpxu .. => True
    | .dglyph .. => True
    | .dstr .. => True
    | .dimg .. => True
    | .dimgc .. => True

/-! ## Unit PW (20_memory.md, 40_pixel_writer.md) -/

/-- WPXU on the screen completes and paints its one pixel; the bytes are those of the masked read-modify-write: the
even pixel of a pair writes byte `3k` whole and the high nibble of byte `3k+1`, the odd one the low nibble of byte
`3k+1` and byte `3k+2` whole; the pair's third byte is not touched (20_memory.md R55, R56). -/
def Obligations.WpxuWritesTheMaskedBytes : Prop :=
  ∀ (s : State) (x y : Coord) (c : Colour), x.toNat < s.cfg.w → y.toNat < s.cfg.h →
    ∃ t, exec (.wpxu x y c) s = .next t ∧
      paints s t (fun x' y' => x' = x.toNat ∧ y' = y.toNat) (fun _ _ => c) ∧
      ∀ k,
        (y.toNat * s.cfg.w + x.toNat = 2 * k →
          t.fbByte (3 * k) = ((c.extractLsb' 8 4).setWidth 8 <<< 4) ||| (c.extractLsb' 4 4).setWidth 8 ∧
          t.fbByte (3 * k + 1) = ((c.extractLsb' 0 4).setWidth 8 <<< 4) ||| (s.fbByte (3 * k + 1) &&& 0x0F) ∧
          t.fbByte (3 * k + 2) = s.fbByte (3 * k + 2)) ∧
        (y.toNat * s.cfg.w + x.toNat = 2 * k + 1 →
          t.fbByte (3 * k + 1) = (s.fbByte (3 * k + 1) &&& 0xF0) ||| (c.extractLsb' 8 4).setWidth 8 ∧
          t.fbByte (3 * k + 2) = ((c.extractLsb' 4 4).setWidth 8 <<< 4) ||| (c.extractLsb' 0 4).setWidth 8 ∧
          t.fbByte (3 * k) = s.fbByte (3 * k))

/-- WPXU and RPX off the screen raise F_OOB with the coordinate in FINFO, and write nothing else
(60_exceptions.md R234, R238). -/
def Obligations.UncheckedAccessOffTheScreenRaisesFOob : Prop :=
  ∀ (s : State) (x y : Coord) (c : Colour), (s.cfg.w ≤ x.toNat ∨ s.cfg.h ≤ y.toNat) →
    exec (.wpxu x y c) s = .next { s with status := 0x32, finfo := y ++ x } ∧
    exec (.rpx x y) s = .next { s with status := 0x32, finfo := y ++ x }

/-- WPX is WPXU on the screen, where it completes and paints its pixel, and does nothing at all off it
(40_pixel_writer.md R111). -/
def Obligations.WpxWritesOnScreenAndIsANoOpOff : Prop :=
  ∀ (s : State) (x y : Coord) (c : Colour),
    Fields.ofRecord (encode (.wpx x y c)) =
      { opc := 0x02, flg := 0, a := x, b := y, c := 0, d := 0, col := c, z := 0, e := 0, f := 0 } ∧
    (x.toNat < s.cfg.w ∧ y.toNat < s.cfg.h →
      exec (.wpx x y c) s = exec (.wpxu x y c) s ∧
      ∃ t, exec (.wpx x y c) s = .next t ∧
        paints s t (fun x' y' => x' = x.toNat ∧ y' = y.toNat) (fun _ _ => c)) ∧
    (s.cfg.w ≤ x.toNat ∨ s.cfg.h ≤ y.toNat → exec (.wpx x y c) s = .next s)

/-- RPX on the screen completes: RES is the colour stored at the pixel, zero-extended, and nothing else changes; off
the screen it raises F_OOB with the coordinate and leaves RES (40_pixel_writer.md R112). -/
def Obligations.RpxReturnsThePixel : Prop :=
  ∀ (s : State) (x y : Coord),
    Fields.ofRecord (encode (.rpx x y)) =
      { opc := 0x03, flg := 0, a := x, b := y, c := 0, d := 0, col := 0, z := 0, e := 0, f := 0 } ∧
    (x.toNat < s.cfg.w → y.toNat < s.cfg.h → ∀ k,
      (y.toNat * s.cfg.w + x.toNat = 2 * k →
        exec (.rpx x y) s = .next { s with
          res := ((s.fbByte (3 * k)).setWidth 32 <<< 4) ||| ((s.fbByte (3 * k + 1)).setWidth 32 >>> 4) }) ∧
      (y.toNat * s.cfg.w + x.toNat = 2 * k + 1 →
        exec (.rpx x y) s = .next { s with
          res := (((s.fbByte (3 * k + 1)).setWidth 32 &&& 0x0F) <<< 8) ||| (s.fbByte (3 * k + 2)).setWidth 32 })) ∧
    (s.cfg.w ≤ x.toNat ∨ s.cfg.h ≤ y.toNat →
      exec (.rpx x y) s = .next { s with status := 0x32, finfo := y ++ x })

/-- Pixel `i` owns nibbles `3i`, `3i+1`, `3i+2` of FB as its R, G and B and no other pixel owns them; for the even and
the odd pixel of pair `k` these are the nibbles of bytes `3k .. 3k+2` the packing says, and the colour is
`(FB[3k] << 4) | (FB[3k+1] >> 4)` or `((FB[3k+1] & 0x0F) << 8) | FB[3k+2]` (20_memory.md R53, R57). -/
def Obligations.PixelIsItsThreeNibbles : Prop :=
  ∀ s : State,
    (∀ i, s.pixelAt i = s.nibble (3 * i) ++ s.nibble (3 * i + 1) ++ s.nibble (3 * i + 2)) ∧
    (∀ i j d e, d < 3 → e < 3 → 3 * i + d = 3 * j + e → i = j) ∧
    (∀ n, s.nibble (2 * n) = (s.fbByte n).extractLsb' 4 4 ∧ s.nibble (2 * n + 1) = (s.fbByte n).extractLsb' 0 4) ∧
    ∀ k,
      (s.nibble (3 * (2 * k)) = (s.fbByte (3 * k)).extractLsb' 4 4 ∧
        s.nibble (3 * (2 * k) + 1) = (s.fbByte (3 * k)).extractLsb' 0 4 ∧
        s.nibble (3 * (2 * k) + 2) = (s.fbByte (3 * k + 1)).extractLsb' 4 4 ∧
        s.pixelAt (2 * k) = ((s.fbByte (3 * k)).setWidth 12 <<< 4) ||| ((s.fbByte (3 * k + 1)).setWidth 12 >>> 4)) ∧
      (s.nibble (3 * (2 * k + 1)) = (s.fbByte (3 * k + 1)).extractLsb' 0 4 ∧
        s.nibble (3 * (2 * k + 1) + 1) = (s.fbByte (3 * k + 2)).extractLsb' 4 4 ∧
        s.nibble (3 * (2 * k + 1) + 2) = (s.fbByte (3 * k + 2)).extractLsb' 0 4 ∧
        s.pixelAt (2 * k + 1) =
          (((s.fbByte (3 * k + 1)).setWidth 12 &&& 0x0F) <<< 8) ||| (s.fbByte (3 * k + 2)).setWidth 12)

/-- A pixel write changes the three nibbles the pixel owns and no other nibble of FB; so writing another pixel
afterwards, the neighbour in its pair included, keeps the first pixel's colour (20_memory.md R58). -/
def Obligations.PixelWriteKeepsEveryOtherNibble : Prop :=
  ∀ (s : State) (x y : Coord) (c : Colour), x.toNat < s.cfg.w → y.toNat < s.cfg.h →
    ∃ t, exec (.wpxu x y c) s = .next t ∧
      (∀ n, n / 3 ≠ y.toNat * s.cfg.w + x.toNat → t.nibble n = s.nibble n) ∧
      ∀ (x' y' : Coord) (c' : Colour), x'.toNat < s.cfg.w → y'.toNat < s.cfg.h → (x', y') ≠ (x, y) →
        ∃ u, exec (.wpxu x' y' c') t = .next u ∧ u.pixel x.toNat y.toNat = c ∧ u.pixel x'.toNat y'.toNat = c'

/-- FILL completes: every byte triple is `(R<<4|G, B<<4|R, G<<4|B)` whatever FB held, every pixel reads the colour,
and nothing but FB changes, no byte past it included (40_pixel_writer.md R113). -/
def Obligations.FillWritesEveryPixel : Prop :=
  ∀ (s : State) (c : Colour), configWf s.cfg = true →
    Fields.ofRecord (encode (.fill c)) =
      { opc := 0x04, flg := 0, a := 0, b := 0, c := 0, d := 0, col := c, z := 0, e := 0, f := 0 } ∧
    ∃ t, exec (.fill c) s = .next t ∧ fbOnly s t ∧
      (∀ k, k < s.cfg.w * s.cfg.h / 2 →
        t.fbByte (3 * k) = c.extractLsb' 8 4 ++ c.extractLsb' 4 4 ∧
        t.fbByte (3 * k + 1) = c.extractLsb' 0 4 ++ c.extractLsb' 8 4 ∧
        t.fbByte (3 * k + 2) = c.extractLsb' 4 4 ++ c.extractLsb' 0 4) ∧
      (∀ x y, x < s.cfg.w → y < s.cfg.h → t.pixel x y = c) ∧
      ∀ a, s.fbBytes ≤ a → t.fbByte a = s.fbByte a

/-- The three bytes of a fill are equal exactly when `R = G = B`, and then FILL leaves that one byte at every
address of FB: the fast path is not observable (40_pixel_writer.md R114). -/
def Obligations.FillFastPathIsNotObservable : Prop :=
  ∀ c : Colour,
    let b0 : Byte := c.extractLsb' 8 4 ++ c.extractLsb' 4 4
    let b1 : Byte := c.extractLsb' 0 4 ++ c.extractLsb' 8 4
    let b2 : Byte := c.extractLsb' 4 4 ++ c.extractLsb' 0 4
    ((b0 = b1 ∧ b1 = b2) ↔ (c.extractLsb' 8 4 = c.extractLsb' 4 4 ∧ c.extractLsb' 4 4 = c.extractLsb' 0 4)) ∧
      (b0 = b1 → b1 = b2 → ∀ s : State, configWf s.cfg = true →
        ∃ t, exec (.fill c) s = .next t ∧ ∀ a, a < s.fbBytes → t.fbByte a = b0)

/-- FRECT completes, for every operand, and paints the half-open rectangle after clamping: `x1` to `W`, `y1` to
`H`, `x0` to the clamped `x1`; it never faults (40_pixel_writer.md R115, R116). -/
def Obligations.FrectPaintsTheClampedRectangle : Prop :=
  ∀ (s : State) (x0 y0 x1 y1 : Coord) (c : Colour),
    ∃ t, exec (.frect x0 y0 x1 y1 c) s = .next t ∧
      paints s t
        (fun x y => min x0.toNat (min x1.toNat s.cfg.w) ≤ x ∧ x < min x1.toNat s.cfg.w ∧
          y0.toNat ≤ y ∧ y < min y1.toNat s.cfg.h)
        (fun _ _ => c)

/-- The rectangle `(0, 0, W, H)` writes every pixel and leaves FB as FILL does (40_pixel_writer.md R115). -/
def Obligations.WholeScreenFrectIsFill : Prop :=
  ∀ (s : State) (c : Colour), configWf s.cfg = true →
    ∃ t u, exec (.frect 0 0 (BitVec.ofNat 16 s.cfg.w) (BitVec.ofNat 16 s.cfg.h) c) s = .next t ∧
      exec (.fill c) s = .next u ∧ ∀ a, t.fbByte a = u.fbByte a

/-- Writes that touch each pixel at most once leave the same FB in every order; the pixels of FRECT and of DGLYPH
are all distinct (40_pixel_writer.md R117). -/
def Obligations.DistinctPixelWritesCommute : Prop :=
  (∀ (s : State) (px qx : List (Nat × Nat × Colour)),
    (∀ p ∈ px, p.1 < s.cfg.w ∧ p.2.1 < s.cfg.h) → (px.map fun p => (p.1, p.2.1)).Nodup → px.Perm qx →
    ∀ a, (runMicro (px.map fun p => Micro.wpxu p.1 p.2.1 p.2.2) s).fbByte a =
      (runMicro (qx.map fun p => Micro.wpxu p.1 p.2.1 p.2.2) s).fbByte a) ∧
  (∀ (w h : Nat) (x0 y0 x1 y1 : Int) (c : Colour),
    (frectMicro w h x0 y0 x1 y1 c).Pairwise fun m n => ∀ x y c c', m = .wpxu x y c → n ≠ .wpxu x y c') ∧
  ∀ (e : FontEntry) (g : Nat) (x y : Int) (wob sp : Bool),
    (glyphMicro e g x y wob sp).Pairwise fun m n => ∀ x y c c', m = .wpxu x y c → n ≠ .wpxu x y c'

/-! ## Unit GD (41_glyph_decoder.md) -/

/-- LOOKUP of a font that is there completes: RES holds found and the index, `cp - first` inside a range and the
smallest index of a list, and 0 for a code point that is not covered; nothing else changes. Of a font that is not
there it raises F_ASSET (41_glyph_decoder.md R142). -/
def Obligations.LookupReturnsFoundAndIndex : Prop :=
  ∀ (s : State) (font : Coord) (cp : CodePoint), configWf s.cfg = true →
    Fields.ofRecord (encode (.lookup font cp)) =
      { opc := 0x10, flg := 0, a := 0, b := 0, c := 0, d := 0, col := 0, z := 0, e := font, f := cp } ∧
    match s.cfg.fonts[font.toNat]? with
    | none => exec (.lookup font cp) s = .next { s with status := 0x42, finfo := 0 }
    | some e =>
      match e.font.coverage with
      | .range first last =>
        exec (.lookup font cp) s = .next { s with
          res := if first.toNat ≤ cp.toNat ∧ cp.toNat ≤ last.toNat then BitVec.ofNat 32 (2 ^ 16 + (cp.toNat - first.toNat))
            else 0 }
      | .list cps =>
        (∀ g, cps[g]? = some cp → (∀ g', g' < g → cps[g']? ≠ some cp) →
          exec (.lookup font cp) s = .next { s with res := BitVec.ofNat 32 (2 ^ 16 + g) }) ∧
        (cp ∉ cps → exec (.lookup font cp) s = .next { s with res := 0 })

/-- The first pass of `build` makes the glyph of each descriptor; with MONO = 1 the second pass gives every digit
glyph (code points 0x30 to 0x39) the greatest digit width `m`, with the spacing kept, and changes no other glyph and
no other field; so `width ≥ bitmap_width` (41_glyph_decoder.md R140, R141). -/
def Obligations.GlyphTableIsBuiltInTwoPasses : Prop :=
  (∀ cps g, codePointOf (.list cps) g = (cps[g]?).map BitVec.toNat) ∧
  (∀ first last g, codePointOf (.range first last) g = some (first.toNat + g)) ∧
  (∀ e : FontEntry, (glyphTable e).length = e.font.desc.length) ∧
  ∀ (e : FontEntry) (g : Nat) (d : GlyphDesc), e.font.desc[g]? = some d →
    ∃ G, (glyphTable e)[g]? = some G ∧ G.bitmapWidth = d.width ∧
      G.height = (e.font.height : Int) - e.font.topSkip - e.font.bottomSkip ∧ G.topSkip = e.font.topSkip ∧
      G.base = d.offset ∧ G.bitmapWidth ≤ G.width ∧ G.widthWithSpacing = G.width + e.font.spacing ∧
      (e.mono = false ∨ (¬ ∃ cp, codePointOf e.font.coverage g = some cp ∧ 0x30 ≤ cp ∧ cp ≤ 0x39) → G.width = d.width) ∧
      (e.mono = true → (∃ cp, codePointOf e.font.coverage g = some cp ∧ 0x30 ≤ cp ∧ cp ≤ 0x39) →
        (∀ g' d' cp', e.font.desc[g']? = some d' → codePointOf e.font.coverage g' = some cp' → 0x30 ≤ cp' → cp' ≤ 0x39 →
          d'.width ≤ G.width) ∧
        ∃ g' d' cp', e.font.desc[g']? = some d' ∧ codePointOf e.font.coverage g' = some cp' ∧ 0x30 ≤ cp' ∧ cp' ≤ 0x39 ∧
          d'.width = G.width)

/-- GINT returns 0 outside `[0, width) × [0, height)` and in the margin of a widened glyph, and the asset's literal
nibble inside the bitmap: row `y + top_skip`, rows padded to an even width, even offset in the high nibble; the
one-pixel glyph with byte 0xA0 decodes (0,0) to 10 and every `x ≥ 1` to 0 (41_glyph_decoder.md R148). -/
def Obligations.GintIsBoundedAndLiteral : Prop :=
  (∀ (blob : List Byte) (G : Glyph) (x y : Int), G.bitmapWidth ≤ G.width →
    ((y < 0 ∨ G.height ≤ y ∨ x < 0 ∨ (G.width : Int) ≤ x) → gint blob G x y = some 0) ∧
    (x - ((G.width : Int) - G.bitmapWidth) / 2 < 0 ∨
      (G.bitmapWidth : Int) ≤ x - ((G.width : Int) - G.bitmapWidth) / 2 → gint blob G x y = some 0) ∧
    ∀ (row bx : Nat) (byte : Byte), (row : Int) = y → row < G.height → bx < G.bitmapWidth →
      x = bx + ((G.width : Int) - G.bitmapWidth) / 2 →
      blob[G.base + (row + G.topSkip) * (evenUp G.bitmapWidth / 2) + bx / 2]? = some byte →
      gint blob G x y = some (if bx % 2 = 0 then byte.extractLsb' 4 4 else byte.extractLsb' 0 4)) ∧
  ∀ G : Glyph, G = ⟨1, 1, 1, 1, 0, 0⟩ →
    gint [0xA0] G 0 0 = some 10 ∧ ∀ x y : Int, 1 ≤ x → gint [0xA0] G x y = some 0

/-- GPIX on a font and a glyph that exist completes: RES is the decoded intensity, zero-extended, and nothing else
changes; with a well-formed font there always is one (10_state.md R31). Otherwise it raises F_ASSET
(41_glyph_decoder.md R144). -/
def Obligations.GpixReturnsTheIntensity : Prop :=
  ∀ (s : State) (font glyph gx gy : Coord), configWf s.cfg = true →
    Fields.ofRecord (encode (.gpix font glyph gx gy)) =
      { opc := 0x11, flg := 0, a := gx, b := gy, c := 0, d := 0, col := 0, z := 0, e := font, f := glyph } ∧
    match s.cfg.fonts[font.toNat]? with
    | none => exec (.gpix font glyph gx gy) s = .next { s with status := 0x42, finfo := 0 }
    | some e =>
      match (glyphTable e)[glyph.toNat]? with
      | none => exec (.gpix font glyph gx gy) s = .next { s with status := 0x42, finfo := 0 }
      | some G => ∃ v : Nibble, gint e.font.blob G gx.toNat gy.toNat = some v ∧
          exec (.gpix font glyph gx gy) s = .next { s with res := v.setWidth 32 }

/-- DGLYPH of a glyph that fits on the screen completes and paints `height` rows of the even-rounded drawn width at
`(x, y)`, each pixel the gray of the decoded intensity, inverted unless white_on_black; columns past the glyph's
width are background (41_glyph_decoder.md R145). -/
def Obligations.DglyphPaintsTheGlyph : Prop :=
  ∀ (s : State) (font glyph x y : Coord) (wob sp : Bool) (e : FontEntry) (G : Glyph),
    configWf s.cfg = true → s.cfg.fonts[font.toNat]? = some e → (glyphTable e)[glyph.toNat]? = some G →
    x.toNat + evenUp (if sp then G.widthWithSpacing else G.width) ≤ s.cfg.w → (y.toNat : Int) + G.height ≤ s.cfg.h →
    ∃ t, exec (.dglyph font glyph x y wob sp) s = .next t ∧
      paints s t
        (fun px py => x.toNat ≤ px ∧ px < x.toNat + evenUp (if sp then G.widthWithSpacing else G.width) ∧
          y.toNat ≤ py ∧ (py : Int) < y.toNat + G.height)
        (fun px py =>
          let v := (gint e.font.blob G (px - x.toNat : Int) (py - y.toNat : Int)).getD 0
          let ink := if wob then v else 15#4 - v
          ink ++ ink ++ ink) ∧
      ∀ px py : Nat, x.toNat + G.width ≤ px → px < x.toNat + evenUp (if sp then G.widthWithSpacing else G.width) →
        y.toNat ≤ py → (py : Int) < y.toNat + G.height → t.pixel px py = if wob then 0x000 else 0xFFF

/-- DGLYPH of a glyph that leaves the screen raises F_OOB at the first pixel off it, in row order; the writes made
before it stand and no later one happens. A first pixel off the screen: nothing is written. A first row over the right
edge: the row is painted up to the edge. Rows past the bottom: the rows of the screen are painted whole. A glyph
without rows or columns does nothing, wherever it is (41_glyph_decoder.md R145; 60_exceptions.md R238). -/
def Obligations.DglyphOverTheEdgeRaisesFOob : Prop :=
  ∀ (s : State) (font glyph x y : Coord) (wob sp : Bool) (e : FontEntry) (G : Glyph),
    configWf s.cfg = true → s.cfg.fonts[font.toNat]? = some e → (glyphTable e)[glyph.toNat]? = some G →
    let wd := evenUp (if sp then G.widthWithSpacing else G.width)
    let colour := fun px py : Nat =>
      let v := (gint e.font.blob G (px - x.toNat : Int) (py - y.toNat : Int)).getD 0
      let ink := if wob then v else 15#4 - v
      ink ++ ink ++ ink
    (wd = 0 ∨ G.height = 0 → exec (.dglyph font glyph x y wob sp) s = .next s) ∧
    (0 < wd → 0 < G.height → s.cfg.w < x.toNat ∨ s.cfg.h ≤ y.toNat →
      exec (.dglyph font glyph x y wob sp) s = .next { s with status := 0x32, finfo := y ++ x }) ∧
    (0 < G.height → y.toNat < s.cfg.h → x.toNat ≤ s.cfg.w → s.cfg.w < x.toNat + wd →
      ∃ t u, exec (.dglyph font glyph x y wob sp) s = .next t ∧
        t = { u with status := 0x32, finfo := y ++ BitVec.ofNat 16 s.cfg.w } ∧
        paints s u (fun px py => x.toNat ≤ px ∧ px < s.cfg.w ∧ py = y.toNat) colour) ∧
    (0 < wd → y.toNat < s.cfg.h → x.toNat + wd ≤ s.cfg.w → (s.cfg.h : Int) < y.toNat + G.height →
      ∃ t u, exec (.dglyph font glyph x y wob sp) s = .next t ∧
        t = { u with status := 0x32, finfo := BitVec.ofNat 16 s.cfg.h ++ x } ∧
        paints s u (fun px py => x.toNat ≤ px ∧ px < x.toNat + wd ∧ y.toNat ≤ py ∧ py < s.cfg.h) colour)

/-- A font, glyph or image number that is not there raises F_ASSET before anything is written, and so does the text
range of DSTR past NTXT; nothing but STATUS and FINFO changes (60_exceptions.md R235, R238). -/
def Obligations.MissingAssetRaisesFAsset : Prop :=
  ∀ (s : State) (i : Instr),
    (match i with
      | .lookup font _ => s.cfg.fonts.length ≤ font.toNat
      | .gpix font glyph _ _ =>
        s.cfg.fonts.length ≤ font.toNat ∨
          ∃ e, s.cfg.fonts[font.toNat]? = some e ∧ e.font.desc.length ≤ glyph.toNat
      | .dglyph font glyph _ _ _ _ =>
        s.cfg.fonts.length ≤ font.toNat ∨
          ∃ e, s.cfg.fonts[font.toNat]? = some e ∧ e.font.desc.length ≤ glyph.toNat
      | .dstr toff tlen x0 _ x1 font _ _ align =>
        align ≠ 3 ∧ (s.cfg.fonts.length ≤ font.toNat ∨
          (tlen ≠ 0 ∧ x0.toNat ≤ x1.toNat ∧ s.cfg.ntxt < toff.toNat + tlen.toNat))
      | .dimg image _ _ => s.cfg.images.length ≤ image.toNat
      | .dimgc image _ _ => s.cfg.images.length ≤ image.toNat
      | .wpxu .. => False
      | .wpx .. => False
      | .rpx .. => False
      | .fill .. => False
      | .frect .. => False
      | .rrect .. => False) →
    exec i s = .next { s with status := 0x42, finfo := 0 }

/-! ## Unit RR (42_rounded_rect.md) -/

/-- The edge function: `X16(e) = isqrt(256 * (r*r - e*e))` is the floor of `16 * sqrt(r*r - e*e)`, `xi` its integer
part and `a` its low four bits; `X16(0) = 16*r`, so `xi(0) = r` and `a(0) = 0`, and `X16(r) = 0`
(42_rounded_rect.md R174). -/
def Obligations.EdgeFunctionIsTheFixedPointRoot : Prop :=
  ∀ r e : Nat, e ≤ r →
    x16 r e * x16 r e ≤ 256 * (r * r - e * e) ∧ 256 * (r * r - e * e) < (x16 r e + 1) * (x16 r e + 1) ∧
      xi r e = x16 r e / 16 ∧ (coverageValue r e).toNat = x16 r e % 16 ∧
      x16 r 0 = 16 * r ∧ xi r 0 = r ∧ coverageValue r 0 = 0 ∧ x16 r r = 0

/-- The octant steps are an initial segment `0 .. e_max` of the integers, exactly the `e ≤ r` with `e ≤ xi(e)`, since
`xi` does not increase; step 0 is always taken, and `e_max ≤ r - 1` for `r ≥ 1` (42_rounded_rect.md R175). -/
def Obligations.OctantStepsAreAnInitialSegment : Prop :=
  ∀ r : Nat,
    (∀ e e', e ≤ e' → e' ≤ r → xi r e' ≤ xi r e) ∧
    (∀ e, e ∈ octantSteps r ↔ e ≤ r ∧ e ≤ xi r e) ∧
    ∃ emax, octantSteps r = List.range (emax + 1) ∧ (1 ≤ r → emax ≤ r - 1)

/-- The colour of a scan pixel: BG before the boundary offset, AA at it, FG past it in a rounded corner, BG throughout
in a square one; BG is black and FG white for white_on_black, else the other way; AA is the coverage value's gray on
a white background and its complement on a black one (42_rounded_rect.md R172, R176, R177, R178). -/
def Obligations.ScanColourFollowsTheCoverage : Prop :=
  ∀ (wob : Bool) (r e d : Nat),
    let bg : Colour := if wob then 0x000 else 0xFFF
    let fg : Colour := if wob then 0xFFF else 0x000
    let a := coverageValue r e
    let aa : Colour := if wob then (15#4 - a) ++ (15#4 - a) ++ (15#4 - a) else a ++ a ++ a
    (d < xi r e → scanColour wob r e d true = bg) ∧ (d = xi r e → scanColour wob r e d true = aa) ∧
      (xi r e < d → scanColour wob r e d true = fg) ∧ scanColour wob r e d false = bg

/-- RRECT raises F_PRECOND before it writes anything when one of `x0 ≤ x1 ≤ W`, `y0 ≤ y1 ≤ H`, `r ≥ 1`,
`2*r ≤ x1 - x0`, `2*r ≤ y1 - y0` fails (60_exceptions.md R233). -/
def Obligations.RrectPreconditionRaisesFPrecond : Prop :=
  ∀ (s : State) (x0 y0 x1 y1 r : Coord) (wob rl rr : Bool),
    ¬ (x0.toNat ≤ x1.toNat ∧ x1.toNat ≤ s.cfg.w ∧ y0.toNat ≤ y1.toNat ∧ y1.toNat ≤ s.cfg.h ∧ 1 ≤ r.toNat ∧
      2 * (r.toNat : Int) ≤ (x1.toNat : Int) - x0.toNat ∧ 2 * (r.toNat : Int) ≤ (y1.toNat : Int) - y0.toNat) →
    exec (.rrect x0 y0 x1 y1 wob rl rr r) s = .next { s with status := 0x22, finfo := 0 }

/-- RRECT under its preconditions completes and paints the anti-aliased rounded rectangle: interior and cross
background, boundary pixels anti-aliased, exterior pixels of a rounded corner foreground, the pixels no scan reaches
and everything outside the rectangle unchanged (42_rounded_rect.md R172 to R184). -/
def Obligations.RrectPaintsTheRoundedRectangle : Prop :=
  ∀ (s : State) (x0 y0 x1 y1 r : Coord) (wob rl rr : Bool),
    x0.toNat ≤ x1.toNat → x1.toNat ≤ s.cfg.w → y0.toNat ≤ y1.toNat → y1.toNat ≤ s.cfg.h → 1 ≤ r.toNat →
    2 * r.toNat ≤ x1.toNat - x0.toNat → 2 * r.toNat ≤ y1.toNat - y0.toNat →
    ∃ t, exec (.rrect x0 y0 x1 y1 wob rl rr r) s = .next t ∧
      paints s t
        (fun x y => x0.toNat ≤ x ∧ x < x1.toNat ∧ y0.toNat ≤ y ∧ y < y1.toNat ∧
          (rrectResult (x1.toNat - x0.toNat) (y1.toNat - y0.toNat) r.toNat wob rl rr
            (x - x0.toNat) (y - y0.toNat)).isSome)
        (fun x y => (rrectResult (x1.toNat - x0.toNat) (y1.toNat - y0.toNat) r.toNat wob rl rr
            (x - x0.toNat) (y - y0.toNat)).getD 0)

/-- With all corners rounded the picture RRECT leaves on a screen of one colour is its own mirror, left to right and
top to bottom, and for a square rectangle its own transpose (42_rounded_rect.md R184). -/
def Obligations.RrectIsItsOwnMirror : Prop :=
  ∀ (s : State) (x0 y0 x1 y1 r : Coord) (wob : Bool) (old : Colour),
    x0.toNat ≤ x1.toNat → x1.toNat ≤ s.cfg.w → y0.toNat ≤ y1.toNat → y1.toNat ≤ s.cfg.h → 1 ≤ r.toNat →
    2 * r.toNat ≤ x1.toNat - x0.toNat → 2 * r.toNat ≤ y1.toNat - y0.toNat →
    (∀ x y, x < s.cfg.w → y < s.cfg.h → s.pixel x y = old) →
    ∃ t, exec (.rrect x0 y0 x1 y1 wob true true r) s = .next t ∧
      ∀ i j, i < x1.toNat - x0.toNat → j < y1.toNat - y0.toNat →
        t.pixel (x0.toNat + i) (y0.toNat + j) = t.pixel (x1.toNat - 1 - i) (y0.toNat + j) ∧
        t.pixel (x0.toNat + i) (y0.toNat + j) = t.pixel (x0.toNat + i) (y1.toNat - 1 - j) ∧
        (x1.toNat - x0.toNat = y1.toNat - y0.toNat →
          t.pixel (x0.toNat + i) (y0.toNat + j) = t.pixel (x0.toNat + j) (y0.toNat + i))

/-! ## Tier 2: layout and blit (43_layout_and_blit.md) -/

/-- DSTR with an empty text or `x0 > x1` does nothing at all, whatever its text range (43_layout_and_blit.md R200,
60_exceptions.md R236); the reserved ALIGN raises F_ILLEGAL (R205). -/
def Obligations.DstrNoOpAndReservedAlign : Prop :=
  ∀ (s : State) (toff tlen x0 y0 x1 font : Coord) (wob clear : Bool) (align : BitVec 2),
    (align = 3 → exec (.dstr toff tlen x0 y0 x1 font wob clear align) s = .next { s with status := 0x12, finfo := 0 }) ∧
    (align ≠ 3 → font.toNat < s.cfg.fonts.length → (tlen = 0 ∨ x1.toNat < x0.toNat) →
      exec (.dstr toff tlen x0 y0 x1 font wob clear align) s = .next s)

/-- The text width is the sum of the widths of the covered characters and one spacing between every two characters,
covered or not; appending a covered character never decreases it (43_layout_and_blit.md R201). -/
def Obligations.AppendingACoveredCharacterNeverNarrows : Prop :=
  ∀ (e : FontEntry) (text : List CodePoint) (cp : CodePoint),
    textWidth e text = (e.font.spacing : Int) * ((text.length : Int) - 1) +
      (text.map fun q => match look e.font.coverage q with
        | none => (0 : Int)
        | some g => match (glyphTable e)[g]? with
          | none => 0
          | some G => (G.width : Int)).sum ∧
    (text ≠ [] → (look e.font.coverage cp).isSome → textWidth e text ≤ textWidth e (text ++ [cp]))

/-- The start column: left and right alignment touch their end of the span; centre alignment is never left of `x0`,
and when the text fits in the span its margins differ by at most 1, the right one the larger (43_layout_and_blit.md
R202). -/
def Obligations.StartColumnFollowsTheAlignment : Prop :=
  ∀ x0 x1 tw : Int,
    textStart 1 x0 x1 tw = x0 ∧ textStart 2 x0 x1 tw + tw = x1 ∧
      x0 ≤ textStart 0 x0 x1 tw ∧
      (x1 - x0 < tw → textStart 0 x0 x1 tw = x0) ∧
      (tw ≤ x1 - x0 →
        let left := textStart 0 x0 x1 tw - x0
        let right := x1 - (textStart 0 x0 x1 tw + tw)
        right = left ∨ right = left + 1)

/-- DSTR whose glyphs fit on the screen completes: in the font's rows at `y0`, a column that some glyph covers shows
the last glyph that covers it; a column no glyph covers is background when clear_sides is set and it lies between
`x0` and the text's start or between the text's end and `x1`; every other pixel and everything but FB stand
(43_layout_and_blit.md R201 to R205). -/
def Obligations.DstrPaintsTheText : Prop :=
  ∀ (s : State) (toff tlen x0 y0 x1 font : Coord) (wob clear : Bool) (align : BitVec 2) (e : FontEntry),
    configWf s.cfg = true → align ≠ 3 → s.cfg.fonts[font.toNat]? = some e → tlen ≠ 0 → x0.toNat ≤ x1.toNat →
    toff.toNat + tlen.toNat ≤ s.cfg.ntxt →
    let text := s.text toff.toNat tlen.toNat
    let start := textStart align x0.toNat x1.toNat (textWidth e text)
    let rows := (e.font.height : Int) - e.font.topSkip - e.font.bottomSkip
    (∀ k G x, charCovers e text start k G x → 0 ≤ x ∧ x < s.cfg.w) →
    (y0.toNat : Int) + rows ≤ s.cfg.h →
    ∃ t, exec (.dstr toff tlen x0 y0 x1 font wob clear align) s = .next t ∧ fbOnly s t ∧
      (∀ x y : Nat, x < s.cfg.w → y < s.cfg.h →
        (¬ (y0.toNat ≤ y ∧ (y : Int) < y0.toNat + rows) → t.pixel x y = s.pixel x y) ∧
        (y0.toNat ≤ y → (y : Int) < y0.toNat + rows →
          (∀ k G, charCovers e text start k G x →
            (∀ k' G', k < k' → ¬ charCovers e text start k' G' x) →
            t.pixel x y =
              let v := (gint e.font.blob G (x - charColumn e text start k) (y - y0.toNat : Int)).getD 0
              let ink := if wob then v else 15#4 - v
              ink ++ ink ++ ink) ∧
          ((∀ k G, ¬ charCovers e text start k G x) →
            t.pixel x y =
              if clear = true ∧ ((x0.toNat ≤ x ∧ (x : Int) < start) ∨ (start + textWidth e text ≤ x ∧ x < x1.toNat))
              then (if wob then 0x000 else 0xFFF) else s.pixel x y))) ∧
      storesIn s t (fun x y => x < s.cfg.w ∧ y0.toNat ≤ y ∧ (y : Int) < y0.toNat + rows ∧
        ((∃ k G, charCovers e text start k G x) ∨
          (clear = true ∧ ((x0.toNat ≤ x ∧ (x : Int) < start) ∨ (start + textWidth e text ≤ x ∧ x < x1.toNat)))))

/-- A right-aligned text wider than `x1` starts at a negative column: its side fills are empty and the first pixel of
its first glyph raises F_OOB, nothing written, the column modulo 2^16 in FINFO (43_layout_and_blit.md R202). -/
def Obligations.RightAlignedTextWiderThanX1RaisesFOob : Prop :=
  ∀ (s : State) (toff tlen x0 y0 x1 font : Coord) (wob clear : Bool) (e : FontEntry) (g : Nat) (G : Glyph),
    configWf s.cfg = true → s.cfg.fonts[font.toNat]? = some e → tlen ≠ 0 → x0.toNat ≤ x1.toNat →
    toff.toNat + tlen.toNat ≤ s.cfg.ntxt → (x1.toNat : Int) < textWidth e (s.text toff.toNat tlen.toNat) →
    look e.font.coverage (s.txtEntry toff.toNat) = some g → (glyphTable e)[g]? = some G → 0 < G.height →
    0 < drawnWidth G (decide (1 < tlen.toNat)) →
    exec (.dstr toff tlen x0 y0 x1 font wob clear 2) s = .next { s with
      status := 0x32
      finfo := y0 ++ BitVec.ofInt 16 ((x1.toNat : Int) - textWidth e (s.text toff.toNat tlen.toNat)) }

/-- DSTR is the program of Tier 1 commands 43_layout_and_blit.md says it expands into: two FRECTs when clear_sides is
set, then a DGLYPH for each covered character, the first fault ending both alike; on every state that is not faulted,
for a text whose columns and rows have 16-bit numbers. -/
def Obligations.DstrIsItsTier1Program : Prop :=
  ∀ (s : State) (toff tlen x0 y0 x1 font : Coord) (wob clear : Bool) (align : BitVec 2) (e : FontEntry),
    configWf s.cfg = true → statusFault s.status = false → align ≠ 3 → s.cfg.fonts[font.toNat]? = some e → tlen ≠ 0 →
    x0.toNat ≤ x1.toNat → toff.toNat + tlen.toNat ≤ s.cfg.ntxt →
    let text := s.text toff.toNat tlen.toNat
    let start := textStart align x0.toNat x1.toNat (textWidth e text)
    let stop := start + textWidth e text
    let bottom := (y0.toNat : Int) + (e.font.height - e.font.topSkip - e.font.bottomSkip)
    0 ≤ start → stop < 2 ^ 16 → bottom < 2 ^ 16 →
    exec (.dstr toff tlen x0 y0 x1 font wob clear align) s =
      runProgram
        ((if clear then
            [.frect x0 y0 (BitVec.ofInt 16 start) (BitVec.ofInt 16 bottom) (if wob then 0x000 else 0xFFF),
             .frect (BitVec.ofInt 16 stop) y0 x1 (BitVec.ofInt 16 bottom) (if wob then 0x000 else 0xFFF)]
          else []) ++ glyphProgram font e y0 wob start.toNat text) s

/-- DIMG of an image that fits on the screen completes and paints `height` rows of the even-rounded width: inside the
image the high nibbles of the source's red, green and blue bytes, past its true width black (43_layout_and_blit.md
R207). -/
def Obligations.DimgPaintsTheImage : Prop :=
  ∀ (s : State) (image x y : Coord) (m : Image),
    configWf s.cfg = true → s.cfg.images[image.toNat]? = some m →
    x.toNat + evenUp m.width ≤ s.cfg.w → y.toNat + m.height ≤ s.cfg.h →
    ∃ t, exec (.dimg image x y) s = .next t ∧
      paints s t
        (fun px py => x.toNat ≤ px ∧ px < x.toNat + evenUp m.width ∧ y.toNat ≤ py ∧ py < y.toNat + m.height)
        (fun px py =>
          let o := ((py - y.toNat) * evenUp m.width + (px - x.toNat)) * (if m.alpha then 4 else 3)
          if px < x.toNat + m.width then
            (m.bytes[o + 2]?.getD 0).extractLsb' 4 4 ++ (m.bytes[o + 1]?.getD 0).extractLsb' 4 4 ++
              (m.bytes[o]?.getD 0).extractLsb' 4 4
          else 0x000)

/-- DIMG of an image that leaves the screen raises F_OOB at the first pixel off it, in row order; the writes made
before it stand and no later one happens. A first pixel off the screen: nothing is written. A first row over the right
edge: the row is painted up to the edge. Rows past the bottom: the rows of the screen are painted whole. An image
without rows or columns does nothing, wherever it is (43_layout_and_blit.md R208; 60_exceptions.md R238). -/
def Obligations.DimgOverTheEdgeRaisesFOob : Prop :=
  ∀ (s : State) (image x y : Coord) (m : Image),
    configWf s.cfg = true → s.cfg.images[image.toNat]? = some m →
    let wd := evenUp m.width
    let colour := fun px py : Nat =>
      let o := ((py - y.toNat) * wd + (px - x.toNat)) * (if m.alpha then 4 else 3)
      if px < x.toNat + m.width then
        (m.bytes[o + 2]?.getD 0).extractLsb' 4 4 ++ (m.bytes[o + 1]?.getD 0).extractLsb' 4 4 ++
          (m.bytes[o]?.getD 0).extractLsb' 4 4
      else 0x000
    (wd = 0 ∨ m.height = 0 → exec (.dimg image x y) s = .next s) ∧
    (0 < wd → 0 < m.height → s.cfg.w < x.toNat ∨ s.cfg.h ≤ y.toNat →
      exec (.dimg image x y) s = .next { s with status := 0x32, finfo := y ++ x }) ∧
    (0 < m.height → y.toNat < s.cfg.h → x.toNat ≤ s.cfg.w → s.cfg.w < x.toNat + wd →
      ∃ t u, exec (.dimg image x y) s = .next t ∧
        t = { u with status := 0x32, finfo := y ++ BitVec.ofNat 16 s.cfg.w } ∧
        paints s u (fun px py => x.toNat ≤ px ∧ px < s.cfg.w ∧ py = y.toNat) colour) ∧
    (0 < wd → y.toNat < s.cfg.h → x.toNat + wd ≤ s.cfg.w → s.cfg.h < y.toNat + m.height →
      ∃ t u, exec (.dimg image x y) s = .next t ∧
        t = { u with status := 0x32, finfo := BitVec.ofNat 16 s.cfg.h ++ x } ∧
        paints s u (fun px py => x.toNat ≤ px ∧ px < x.toNat + wd ∧ y.toNat ≤ py ∧ py < s.cfg.h) colour)

/-- DIMGC is DIMG at `(cx - width div 2, cy - height div 2)` when those are operands of a command; it completes and
paints where DIMG does; with a negative coordinate an image of some size raises F_OOB with that coordinate, each
component modulo 2^16, and writes nothing; an image of width or height 0 does nothing (43_layout_and_blit.md R209; 10_state.md R28). -/
def Obligations.DimgcIsDimgAroundTheCentre : Prop :=
  ∀ (s : State) (image cx cy : Coord) (m : Image),
    configWf s.cfg = true → s.cfg.images[image.toNat]? = some m →
    (m.width / 2 ≤ cx.toNat → m.height / 2 ≤ cy.toNat →
      exec (.dimgc image cx cy) s =
        exec (.dimg image (cx - BitVec.ofNat 16 (m.width / 2)) (cy - BitVec.ofNat 16 (m.height / 2))) s) ∧
    (m.width / 2 ≤ cx.toNat → m.height / 2 ≤ cy.toNat → cx.toNat - m.width / 2 + evenUp m.width ≤ s.cfg.w →
      cy.toNat - m.height / 2 + m.height ≤ s.cfg.h →
      ∃ t, exec (.dimgc image cx cy) s = .next t ∧ fbOnly s t ∧
        storesIn s t (fun px py => cx.toNat - m.width / 2 ≤ px ∧ px < cx.toNat - m.width / 2 + evenUp m.width ∧
          cy.toNat - m.height / 2 ≤ py ∧ py < cy.toNat - m.height / 2 + m.height)) ∧
    (m.width = 0 ∨ m.height = 0 → exec (.dimgc image cx cy) s = .next s) ∧
    (1 ≤ m.width → 1 ≤ m.height → (cx.toNat < m.width / 2 ∨ cy.toNat < m.height / 2) →
      exec (.dimgc image cx cy) s = .next { s with
        status := 0x32
        finfo := (cy - BitVec.ofNat 16 (m.height / 2)) ++ (cx - BitVec.ofNat 16 (m.width / 2)) })

/-- DSTR of a text of uncovered characters alone completes, wherever its rows lie: it paints no glyph, and with
clear_sides set the columns between `x0` and the text's start and between its end and `x1` are background in the
font's rows at `y0`, both fills clamped to the screen; every other pixel and everything but FB stand
(43_layout_and_blit.md R201 to R205). -/
def Obligations.DstrOfUncoveredTextClearsItsSides : Prop :=
  ∀ (s : State) (toff tlen x0 y0 x1 font : Coord) (wob clear : Bool) (align : BitVec 2) (e : FontEntry),
    align ≠ 3 → s.cfg.fonts[font.toNat]? = some e → tlen ≠ 0 → x0.toNat ≤ x1.toNat →
    toff.toNat + tlen.toNat ≤ s.cfg.ntxt →
    (∀ k, k < tlen.toNat → look e.font.coverage (s.txtEntry (toff.toNat + k)) = none) →
    let tw := (e.font.spacing : Int) * ((tlen.toNat : Int) - 1)
    let start := textStart align x0.toNat x1.toNat tw
    let rows := (e.font.height : Int) - e.font.topSkip - e.font.bottomSkip
    ∃ t, exec (.dstr toff tlen x0 y0 x1 font wob clear align) s = .next t ∧
      paints s t
        (fun x y => clear = true ∧ x < s.cfg.w ∧ y < s.cfg.h ∧ y0.toNat ≤ y ∧ (y : Int) < y0.toNat + rows ∧
          ((x0.toNat ≤ x ∧ (x : Int) < start) ∨ (start + tw ≤ x ∧ x < x1.toNat)))
        (fun _ _ => if wob then 0x000 else 0xFFF)
end

