-- ==== Sys2Proof/Laws/Bits.lean ====
section
/-!
SUPPORT. Nibbles, channels and integer ranges: what the helpers of Machine/Bits.lean give back.
-/

namespace Sys2Proof.Machine

@[simp] theorem hiNib_pack (h l : Nibble) : hiNib (pack h l) = h := by
  exact BitVec.extractLsb'_append_eq_left

@[simp] theorem loNib_pack (h l : Nibble) : loNib (pack h l) = l := by
  exact BitVec.extractLsb'_append_eq_right

theorem byte_eq_pack (b : Byte) : b = pack (hiNib b) (loNib b) := by
  apply BitVec.eq_of_getLsbD_eq
  intro i hi
  simp only [pack, hiNib, loNib, BitVec.getLsbD_append, BitVec.getLsbD_extractLsb']
  split
  · simp [*]
  · have h1 : i - 4 < 4 := by omega
    have h2 : 4 + (i - 4) = i := by omega
    simp [h1, h2]

theorem byte_ext {a b : Byte} (h : hiNib a = hiNib b) (l : loNib a = loNib b) : a = b := by
  rw [byte_eq_pack a, byte_eq_pack b, h, l]

@[simp] theorem chanR_rgb (r g b : Nibble) : chanR (rgb r g b) = r := by
  ext i hi
  simp only [chanR, rgb, BitVec.getElem_extractLsb', BitVec.getLsbD_append]
  have h1 : ¬ (8 + i < 4) := by omega
  have h2 : ¬ (8 + i - 4 < 4) := by omega
  have h3 : 8 + i - 4 - 4 = i := by omega
  simp [h1, h2, h3, BitVec.getLsbD_eq_getElem, hi]

@[simp] theorem chanG_rgb (r g b : Nibble) : chanG (rgb r g b) = g := by
  ext i hi
  simp only [chanG, rgb, BitVec.getElem_extractLsb', BitVec.getLsbD_append]
  have h1 : ¬ (4 + i < 4) := by omega
  have h3 : 4 + i - 4 = i := by omega
  simp [h1, h3, BitVec.getLsbD_eq_getElem, hi]

@[simp] theorem chanB_rgb (r g b : Nibble) : chanB (rgb r g b) = b := by
  ext i hi
  simp only [chanB, rgb, BitVec.getElem_extractLsb', BitVec.getLsbD_append]
  simp [BitVec.getLsbD_eq_getElem, hi]

theorem rgb_chan (c : Colour) : rgb (chanR c) (chanG c) (chanB c) = c := by
  apply BitVec.eq_of_getLsbD_eq
  intro i hi
  simp only [rgb, chanR, chanG, chanB, BitVec.getLsbD_append, BitVec.getLsbD_extractLsb']
  split
  · simp [*]
  · split
    · have h2 : 4 + (i - 4) = i := by omega
      simp [*]
    · have h1 : i - 4 - 4 < 4 := by omega
      have h2 : 8 + (i - 4 - 4) = i := by omega
      simp [h1, h2]

theorem rgb_inj {r g b r' g' b' : Nibble} (h : rgb r g b = rgb r' g' b') : r = r' ∧ g = g' ∧ b = b' :=
  ⟨by simpa using congrArg chanR h, by simpa using congrArg chanG h, by simpa using congrArg chanB h⟩

@[simp] theorem mem_irange {a b v : Int} : v ∈ irange a b ↔ a ≤ v ∧ v < b := by
  simp only [irange, List.mem_map, List.mem_range'_1]
  constructor
  · rintro ⟨k, ⟨_, hk⟩, rfl⟩; omega
  · rintro ⟨h1, h2⟩; exact ⟨(v - a).toNat, by omega, by omega⟩

theorem irange_empty {a b : Int} (h : b ≤ a) : irange a b = [] := by
  have : (b - a).toNat = 0 := by omega
  simp [irange, this]

theorem irange_nodup (a b : Int) : (irange a b).Nodup := by
  refine List.Nodup.map ?_ (List.nodup_range' ..)
  intro x y h; simpa using h

theorem evenUp_ge (n : Nat) : n ≤ evenUp n := Nat.le_add_right ..

theorem evenUp_even (n : Nat) : evenUp n % 2 = 0 := by unfold evenUp; omega

theorem evenUp_le (n : Nat) : evenUp n ≤ n + 1 := by unfold evenUp; omega

end Sys2Proof.Machine
end

