-- ==== Sys2Proof/Laws/Cells.lean ====
section
/-!
SUPPORT. Sparse storage: read after write, and that a write keeps the canonical form. The read laws hold for
every list, canonical or not.
-/

namespace Sys2Proof.Machine

variable {α : Type}

@[simp] theorem cellsRead_cellsWrite_same (m : List (Nat × α)) (a : Nat) (v : α) :
    cellsRead (cellsWrite m a v) a = some v := by
  induction m with
  | nil => simp [cellsWrite, cellsRead]
  | cons c m ih =>
    simp only [cellsWrite]
    split
    · simp [cellsRead]
    · split
      · simp [cellsRead]
      · simp [cellsRead, *]

theorem cellsRead_cellsWrite_other (m : List (Nat × α)) {a b : Nat} (v : α) (h : a ≠ b) :
    cellsRead (cellsWrite m b v) a = cellsRead m a := by
  induction m with
  | nil => simp [cellsWrite, cellsRead, h]
  | cons c m ih =>
    simp only [cellsWrite]
    split
    · simp [cellsRead, h]
    · split
      · next e => subst e; simp [cellsRead, h]
      · simp [cellsRead, ih]

theorem cellsWf_tail {n : Nat} {c : Nat × α} {m : List (Nat × α)} (h : cellsWf n (c :: m) = true) :
    cellsWf n m = true := by
  cases m with
  | nil => rfl
  | cons d m => simp only [cellsWf, Bool.and_eq_true] at h; exact h.2

/-- The head index of a canonical list is below the bound. -/
theorem cellsWf_head {n : Nat} {c : Nat × α} {m : List (Nat × α)} (h : cellsWf n (c :: m) = true) : c.1 < n := by
  induction m generalizing c with
  | nil => simpa [cellsWf] using h
  | cons d m ih =>
    simp only [cellsWf, Bool.and_eq_true, decide_eq_true_eq] at h
    have := ih h.2
    omega

/-- A list is canonical when its head comes before the head of its canonical tail. -/
theorem cellsWf_cons {n : Nat} {c : Nat × α} {m : List (Nat × α)} (hc : c.1 < n) (hm : cellsWf n m = true)
    (h : ∀ d ∈ m.head?, c.1 < d.1) : cellsWf n (c :: m) = true := by
  cases m with
  | nil => simpa [cellsWf] using hc
  | cons d m => simp only [cellsWf, Bool.and_eq_true, decide_eq_true_eq]; exact ⟨h d rfl, hm⟩

theorem cellsWrite_head {m : List (Nat × α)} {a : Nat} {v : α} {d : Nat × α}
    (h : (cellsWrite m a v).head? = some d) : d.1 = a ∨ (m.head? = some d) := by
  cases m with
  | nil => simp only [cellsWrite, List.head?_cons, Option.some.injEq] at h; subst h; exact .inl rfl
  | cons c m =>
    simp only [cellsWrite] at h
    split at h
    · simp only [List.head?_cons, Option.some.injEq] at h; subst h; exact .inl rfl
    · split at h
      · simp only [List.head?_cons, Option.some.injEq] at h; subst h; exact .inl rfl
      · exact .inr (by simpa using h)

/-- A write below the bound keeps the canonical form. -/
theorem cellsWf_cellsWrite {n : Nat} {m : List (Nat × α)} {a : Nat} (v : α) (hm : cellsWf n m = true) (ha : a < n) :
    cellsWf n (cellsWrite m a v) = true := by
  induction m with
  | nil => simpa [cellsWrite, cellsWf] using ha
  | cons c m ih =>
    simp only [cellsWrite]
    split
    · exact cellsWf_cons ha hm (by rintro d ⟨⟩; assumption)
    · split
      · next e => subst e; exact cellsWf_cons ha (cellsWf_tail hm) (by
          intro d hd
          cases m with
          | nil => simp at hd
          | cons d' m =>
            simp only [cellsWf, Bool.and_eq_true, decide_eq_true_eq] at hm
            simp only [List.head?_cons, Option.mem_some_iff] at hd
            subst hd; exact hm.1)
      · refine cellsWf_cons (cellsWf_head hm) (ih (cellsWf_tail hm)) ?_
        intro d hd
        rcases cellsWrite_head hd with h | h
        · omega
        · cases m with
          | nil => simp at h
          | cons d' m =>
            simp only [cellsWf, Bool.and_eq_true, decide_eq_true_eq] at hm
            simp only [List.head?_cons, Option.some.injEq] at h
            subst h; exact hm.1

end Sys2Proof.Machine
end

