-- ==== Sys2Proof/Laws/State.lean ====
section
/-!
SUPPORT. One lemma per field per update of State, each true by rfl, so that no later proof unfolds a record
update; and what two updates in a row come to.
-/

namespace Sys2Proof.Machine

variable (s : State)

@[simp] theorem State.fbWrite_cfg (a : Nat) (v : Byte) : (s.fbWrite a v).cfg = s.cfg := rfl
@[simp] theorem State.fbWrite_fb (a : Nat) (v : Byte) : (s.fbWrite a v).fb = cellsWrite s.fb a v := rfl
@[simp] theorem State.fbWrite_txt (a : Nat) (v : Byte) : (s.fbWrite a v).txt = s.txt := rfl
@[simp] theorem State.fbWrite_status (a : Nat) (v : Byte) : (s.fbWrite a v).status = s.status := rfl
@[simp] theorem State.fbWrite_res (a : Nat) (v : Byte) : (s.fbWrite a v).res = s.res := rfl
@[simp] theorem State.fbWrite_finfo (a : Nat) (v : Byte) : (s.fbWrite a v).finfo = s.finfo := rfl
@[simp] theorem State.fbWrite_host (a : Nat) (v : Byte) : (s.fbWrite a v).host = s.host := rfl
@[simp] theorem State.fbWrite_portOut (a : Nat) (v : Byte) : (s.fbWrite a v).portOut = s.portOut := rfl
@[simp] theorem State.fbWrite_draw (a : Nat) (v : Byte) : (s.fbWrite a v).draw = s.draw := rfl

@[simp] theorem State.txtWrite_cfg (k : Nat) (v : CodePoint) : (s.txtWrite k v).cfg = s.cfg := rfl
@[simp] theorem State.txtWrite_fb (k : Nat) (v : CodePoint) : (s.txtWrite k v).fb = s.fb := rfl
@[simp] theorem State.txtWrite_txt (k : Nat) (v : CodePoint) : (s.txtWrite k v).txt = cellsWrite s.txt k v := rfl
@[simp] theorem State.txtWrite_status (k : Nat) (v : CodePoint) : (s.txtWrite k v).status = s.status := rfl
@[simp] theorem State.txtWrite_res (k : Nat) (v : CodePoint) : (s.txtWrite k v).res = s.res := rfl
@[simp] theorem State.txtWrite_finfo (k : Nat) (v : CodePoint) : (s.txtWrite k v).finfo = s.finfo := rfl
@[simp] theorem State.txtWrite_host (k : Nat) (v : CodePoint) : (s.txtWrite k v).host = s.host := rfl
@[simp] theorem State.txtWrite_portOut (k : Nat) (v : CodePoint) : (s.txtWrite k v).portOut = s.portOut := rfl
@[simp] theorem State.txtWrite_draw (k : Nat) (v : CodePoint) : (s.txtWrite k v).draw = s.draw := rfl

@[simp] theorem State.setRes_cfg (v : BitVec 32) : (s.setRes v).cfg = s.cfg := rfl
@[simp] theorem State.setRes_fb (v : BitVec 32) : (s.setRes v).fb = s.fb := rfl
@[simp] theorem State.setRes_txt (v : BitVec 32) : (s.setRes v).txt = s.txt := rfl
@[simp] theorem State.setRes_status (v : BitVec 32) : (s.setRes v).status = s.status := rfl
@[simp] theorem State.setRes_res (v : BitVec 32) : (s.setRes v).res = v := rfl
@[simp] theorem State.setRes_finfo (v : BitVec 32) : (s.setRes v).finfo = s.finfo := rfl
@[simp] theorem State.setRes_host (v : BitVec 32) : (s.setRes v).host = s.host := rfl
@[simp] theorem State.setRes_portOut (v : BitVec 32) : (s.setRes v).portOut = s.portOut := rfl
@[simp] theorem State.setRes_draw (v : BitVec 32) : (s.setRes v).draw = s.draw := rfl

@[simp] theorem State.raise_cfg (f : BlockFault) : (s.raise f).cfg = s.cfg := rfl
@[simp] theorem State.raise_fb (f : BlockFault) : (s.raise f).fb = s.fb := rfl
@[simp] theorem State.raise_txt (f : BlockFault) : (s.raise f).txt = s.txt := rfl
@[simp] theorem State.raise_status (f : BlockFault) : (s.raise f).status = statusOfFault f := rfl
@[simp] theorem State.raise_res (f : BlockFault) : (s.raise f).res = s.res := rfl
@[simp] theorem State.raise_finfo (f : BlockFault) : (s.raise f).finfo = finfoOfFault f := rfl
@[simp] theorem State.raise_host (f : BlockFault) : (s.raise f).host = s.host := rfl
@[simp] theorem State.raise_portOut (f : BlockFault) : (s.raise f).portOut = s.portOut := rfl
@[simp] theorem State.raise_draw (f : BlockFault) : (s.raise f).draw = s.draw := rfl

@[simp] theorem State.setPixel_cfg (i : Nat) (c : Colour) : (s.setPixel i c).cfg = s.cfg := rfl
@[simp] theorem State.setPixel_txt (i : Nat) (c : Colour) : (s.setPixel i c).txt = s.txt := rfl
@[simp] theorem State.setPixel_status (i : Nat) (c : Colour) : (s.setPixel i c).status = s.status := rfl
@[simp] theorem State.setPixel_res (i : Nat) (c : Colour) : (s.setPixel i c).res = s.res := rfl
@[simp] theorem State.setPixel_finfo (i : Nat) (c : Colour) : (s.setPixel i c).finfo = s.finfo := rfl
@[simp] theorem State.setPixel_host (i : Nat) (c : Colour) : (s.setPixel i c).host = s.host := rfl
@[simp] theorem State.setPixel_portOut (i : Nat) (c : Colour) : (s.setPixel i c).portOut = s.portOut := rfl
@[simp] theorem State.setPixel_draw (i : Nat) (c : Colour) : (s.setPixel i c).draw = s.draw := rfl

@[simp] theorem State.fillAll_cfg (c : Colour) : (s.fillAll c).cfg = s.cfg := rfl
@[simp] theorem State.fillAll_txt (c : Colour) : (s.fillAll c).txt = s.txt := rfl
@[simp] theorem State.fillAll_status (c : Colour) : (s.fillAll c).status = s.status := rfl
@[simp] theorem State.fillAll_res (c : Colour) : (s.fillAll c).res = s.res := rfl
@[simp] theorem State.fillAll_finfo (c : Colour) : (s.fillAll c).finfo = s.finfo := rfl
@[simp] theorem State.fillAll_host (c : Colour) : (s.fillAll c).host = s.host := rfl
@[simp] theorem State.fillAll_portOut (c : Colour) : (s.fillAll c).portOut = s.portOut := rfl
@[simp] theorem State.fillAll_draw (c : Colour) : (s.fillAll c).draw = s.draw := rfl

@[simp] theorem State.popHost_cfg : (s.popHost).cfg = s.cfg := rfl
@[simp] theorem State.popHost_fb : (s.popHost).fb = s.fb := rfl
@[simp] theorem State.popHost_txt : (s.popHost).txt = s.txt := rfl
@[simp] theorem State.popHost_status : (s.popHost).status = s.status := rfl
@[simp] theorem State.popHost_res : (s.popHost).res = s.res := rfl
@[simp] theorem State.popHost_finfo : (s.popHost).finfo = s.finfo := rfl
@[simp] theorem State.popHost_host : (s.popHost).host = s.host.tail := rfl
@[simp] theorem State.popHost_portOut : (s.popHost).portOut = s.portOut := rfl
@[simp] theorem State.popHost_draw : (s.popHost).draw = s.draw := rfl

@[simp] theorem State.setPortOut_cfg (v : BitVec 32) : (s.setPortOut v).cfg = s.cfg := rfl
@[simp] theorem State.setPortOut_fb (v : BitVec 32) : (s.setPortOut v).fb = s.fb := rfl
@[simp] theorem State.setPortOut_txt (v : BitVec 32) : (s.setPortOut v).txt = s.txt := rfl
@[simp] theorem State.setPortOut_status (v : BitVec 32) : (s.setPortOut v).status = s.status := rfl
@[simp] theorem State.setPortOut_res (v : BitVec 32) : (s.setPortOut v).res = s.res := rfl
@[simp] theorem State.setPortOut_finfo (v : BitVec 32) : (s.setPortOut v).finfo = s.finfo := rfl
@[simp] theorem State.setPortOut_host (v : BitVec 32) : (s.setPortOut v).host = s.host := rfl
@[simp] theorem State.setPortOut_portOut (v : BitVec 32) : (s.setPortOut v).portOut = v := rfl
@[simp] theorem State.setPortOut_draw (v : BitVec 32) : (s.setPortOut v).draw = s.draw := rfl

@[simp] theorem State.applyReset_cfg : (s.applyReset).cfg = s.cfg := rfl
@[simp] theorem State.applyReset_fb : (s.applyReset).fb = [] := rfl
@[simp] theorem State.applyReset_txt : (s.applyReset).txt = [] := rfl
@[simp] theorem State.applyReset_status : (s.applyReset).status = 0 := rfl
@[simp] theorem State.applyReset_res : (s.applyReset).res = 0 := rfl
@[simp] theorem State.applyReset_finfo : (s.applyReset).finfo = 0 := rfl
@[simp] theorem State.applyReset_host : (s.applyReset).host = s.host := rfl
@[simp] theorem State.applyReset_portOut : (s.applyReset).portOut = s.portOut := rfl
@[simp] theorem State.applyReset_draw : (s.applyReset).draw = s.draw + 1 := rfl

/-- A state is determined by its fields. -/
theorem State.ext_fields {s t : State} (h1 : s.cfg = t.cfg) (h2 : s.fb = t.fb) (h3 : s.txt = t.txt)
    (h4 : s.status = t.status) (h5 : s.res = t.res) (h6 : s.finfo = t.finfo) (h7 : s.host = t.host)
    (h8 : s.portOut = t.portOut) (h9 : s.draw = t.draw) : s = t := by
  cases s; cases t; simp_all

end Sys2Proof.Machine
end

