-- ==== Sys2Proof/Laws/Host.lean ====
section
/-!
SUPPORT. What a step does with each move of the host, and everything a step that gives a next state can be, said
once (10_state.md R24, R29; 60_exceptions.md R232, R239; 70_reset_and_hazards.md R260).
-/

namespace Sys2Proof.Machine

variable {s t : State}

theorem dimWf_bounds {n : Nat} (h : dimWf n = true) : n % 2 = 0 ∧ 2 ≤ n ∧ n ≤ 65534 := by
  simpa [dimWf, and_assoc] using h

/-- The screen sizes of the hardware (00_scope.md R7). -/
theorem configWf_dims {c : Config} (h : configWf c = true) :
    (c.w % 2 = 0 ∧ 2 ≤ c.w ∧ c.w ≤ 65534) ∧ c.h % 2 = 0 ∧ 2 ≤ c.h ∧ c.h ≤ 65534 := by
  simp only [configWf, Bool.and_eq_true] at h
  exact ⟨dimWf_bounds h.1.1.1.1.1.1, dimWf_bounds h.1.1.1.1.1.2⟩

/-- A font of a configuration of the hardware is well formed (10_state.md R31). -/
theorem configWf_font {c : Config} (h : configWf c = true) {f : Nat} {e : FontEntry} (he : c.fonts[f]? = some e) :
    fontWf e.font = true := by
  simp only [configWf, Bool.and_eq_true, List.all_eq_true] at h
  exact h.1.2 e (List.mem_of_getElem? he)

/-- An image of a configuration of the hardware is well formed (10_state.md R35). -/
theorem configWf_image {c : Config} (h : configWf c = true) {k : Nat} {m : Image} (hm : c.images[k]? = some m) :
    imageWf m = true := by
  simp only [configWf, Bool.and_eq_true, List.all_eq_true] at h
  exact h.2 m (List.mem_of_getElem? hm)

theorem popHost_eq {m : HostMove} {rest : List HostMove} (hh : s.host = m :: rest) :
    s.popHost = { s with host := rest } := by simp [State.popHost, hh]

theorem step_idle (hc : configWf s.cfg = true) (hh : s.host = []) : step s = .next s := by
  simp [step, State.front, hc, hh]

theorem step_illFormed (hc : configWf s.cfg = false) : step s = .refused .illFormedConfiguration := by
  simp [step, State.front, hc]

theorem step_writeCmd {r : Record} {rest : List HostMove} (hc : configWf s.cfg = true)
    (hh : s.host = .writeCmd r :: rest) :
    step s = match State.writeCmd { s with host := rest } r with
      | .run i u => exec i u
      | .done o => o := by
  simp only [step, State.front, hc, hh, popHost_eq hh]
  rfl

theorem step_writeTxtw {w : BitVec 32} {rest : List HostMove} (hc : configWf s.cfg = true)
    (hh : s.host = .writeTxtw w :: rest) :
    step s = if statusFault s.status then .next { s with host := rest }
      else if statusBusy s.status then .refused .hostAccessWhileBusy
      else .next (State.txtwWrite { s with host := rest } w) := by
  simp only [step, State.front, hc, hh, popHost_eq hh, State.writeTxtw]
  cases statusFault s.status <;> cases statusBusy s.status <;> rfl

theorem step_fbr {a : Nat} {rest : List HostMove} (hc : configWf s.cfg = true) (hh : s.host = .read (.fbr a) :: rest) :
    step s = if statusBusy s.status then .refused .hostAccessWhileBusy
      else if a < s.fbBytes then .next { s with host := rest, portOut := (s.fbByte a).setWidth 32 }
      else .fault (.fbrOutOfRange a) := by
  simp only [step, State.front, hc, hh, popHost_eq hh, State.hostRead]
  cases statusBusy s.status
  · by_cases ha : a < s.fbBytes
    · have ha' : a < State.fbBytes { s with host := rest } := ha
      simp only [ha, ha']; rfl
    · have ha' : ¬ a < State.fbBytes { s with host := rest } := ha
      simp only [ha, ha']; rfl
  · rfl

theorem step_readRegister {p : ReadPort} {rest : List HostMove} (hc : configWf s.cfg = true)
    (hh : s.host = .read p :: rest) (hp : ∀ a, p ≠ .fbr a) :
    step s = .next { s with host := rest, portOut := s.readPort p } := by
  cases p with
  | fbr a => exact absurd rfl (hp a)
  | _ => simp only [step, State.front, hc, hh, popHost_eq hh, State.hostRead]; rfl

theorem step_reset {rest : List HostMove} (hc : configWf s.cfg = true) (hh : s.host = .reset :: rest) :
    step s = .next (State.applyReset { s with host := rest }) := by
  simp [step, State.front, hc, hh, popHost_eq hh]

/-- Everything a step that gives a next state can be: no move left, a move dropped because of a fault, an illegal
record's fault, a command run, a TXTW write, a port read, a RESET. -/
theorem step_cases (h : step s = .next t) :
    configWf s.cfg = true ∧
    ((s.host = [] ∧ t = s) ∨ ∃ m rest, s.host = m :: rest ∧
      ((statusFault s.status = true ∧ m ≠ .reset ∧ t = { s with host := rest }) ∨
        (statusFault s.status = false ∧ statusBusy s.status = false ∧
          t = State.raise { s with host := rest } .illegal) ∨
        (∃ r i, m = .writeCmd r ∧ decodeRecord r = .ok i ∧ statusFault s.status = false ∧
          statusBusy s.status = false ∧ exec i { s with host := rest } = .next t) ∨
        (∃ w, m = .writeTxtw w ∧ statusFault s.status = false ∧ statusBusy s.status = false ∧
          t = State.txtwWrite { s with host := rest } w) ∨
        (∃ p, m = .read p ∧ t = { s with host := rest, portOut := s.readPort p }) ∨
        (m = .reset ∧ t = State.applyReset { s with host := rest }))) := by
  cases hc : configWf s.cfg with
  | false => rw [step_illFormed hc] at h; cases h
  | true =>
    refine ⟨rfl, ?_⟩
    cases hh : s.host with
    | nil => rw [step_idle hc hh] at h; cases h; exact .inl ⟨rfl, rfl⟩
    | cons m rest =>
      refine .inr ⟨m, rest, rfl, ?_⟩
      cases m with
      | writeCmd r =>
        rw [step_writeCmd hc hh] at h
        simp only [State.writeCmd] at h
        cases hf : statusFault s.status with
        | true => simp only [hf] at h; cases h; exact .inl ⟨rfl, by simp, rfl⟩
        | false =>
          cases hb : statusBusy s.status with
          | true => simp only [hf, hb] at h; cases h
          | false =>
            simp only [hf, hb] at h
            cases hd : decodeRecord r with
            | error why => simp only [hd] at h; cases h; exact .inr (.inl ⟨rfl, rfl, rfl⟩)
            | ok i => simp only [hd] at h; exact .inr (.inr (.inl ⟨r, i, rfl, hd, rfl, rfl, h⟩))
      | writeTxtw w =>
        rw [step_writeTxtw hc hh] at h
        cases hf : statusFault s.status with
        | true => simp only [hf] at h; cases h; exact .inl ⟨rfl, by simp, rfl⟩
        | false =>
          cases hb : statusBusy s.status with
          | true => simp only [hf, hb] at h; cases h
          | false => simp only [hf, hb] at h; cases h; exact .inr (.inr (.inr (.inl ⟨w, rfl, rfl, rfl, rfl⟩)))
      | read p =>
        refine .inr (.inr (.inr (.inr (.inl ⟨p, rfl, ?_⟩))))
        cases p with
        | fbr a =>
          rw [step_fbr hc hh] at h
          split at h
          · cases h
          · split at h
            · cases h; rfl
            · cases h
        | _ => rw [step_readRegister hc hh (by simp)] at h; cases h; rfl
      | reset =>
        rw [step_reset hc hh] at h
        cases h
        exact .inr (.inr (.inr (.inr (.inr ⟨rfl, rfl⟩))))

end Sys2Proof.Machine
end

