-- ==== Sys2Proof/Laws/Pixel.lean ====
section
/-!
SUPPORT. Bytes, nibbles and pixels of FB: read after write, what a pixel write leaves alone, and what a fill
leaves (20_memory.md R53, R55 to R58; 40_pixel_writer.md R113).
-/

namespace Sys2Proof.Machine

variable {s t : State}

/-- A byte of FB depends on the bytes written and the draw alone. -/
theorem fbByte_congr (h : s.fb = t.fb) (hd : s.draw = t.draw) (a : Nat) : s.fbByte a = t.fbByte a := by
  simp [State.fbByte, h, hd]

theorem nibble_congr (h : ∀ a, s.fbByte a = t.fbByte a) (n : Nat) : s.nibble n = t.nibble n := by
  simp [State.nibble, h]

@[simp] theorem fbByte_raise (f : BlockFault) (a : Nat) : (s.raise f).fbByte a = s.fbByte a := rfl

@[simp] theorem fbByte_setRes (v : BitVec 32) (a : Nat) : (s.setRes v).fbByte a = s.fbByte a := rfl

@[simp] theorem fbByte_fbWrite_same (a : Nat) (v : Byte) : (s.fbWrite a v).fbByte a = v := by
  simp [State.fbByte]

theorem fbByte_fbWrite_other {a b : Nat} (v : Byte) (h : a ≠ b) : (s.fbWrite b v).fbByte a = s.fbByte a := by
  simp [State.fbByte, cellsRead_cellsWrite_other _ _ h]

@[simp] theorem txtEntry_txtWrite_same (k : Nat) (v : CodePoint) : (s.txtWrite k v).txtEntry k = v := by
  simp [State.txtEntry]

theorem txtEntry_txtWrite_other {j k : Nat} (v : CodePoint) (h : j ≠ k) :
    (s.txtWrite k v).txtEntry j = s.txtEntry j := by
  simp [State.txtEntry, cellsRead_cellsWrite_other _ _ h]

theorem wholeByte_ne_sharedByte (i : Nat) : wholeByte i ≠ sharedByte i := by
  unfold wholeByte sharedByte; split <;> omega

@[simp] theorem setPixel_cfg (i : Nat) (c : Colour) : (s.setPixel i c).cfg = s.cfg := rfl

@[simp] theorem setPixel_draw (i : Nat) (c : Colour) : (s.setPixel i c).draw = s.draw := rfl

/-- A pixel write changes FB alone. -/
theorem setPixel_onlyFb (i : Nat) (c : Colour) : s.setPixel i c = { s with fb := (s.setPixel i c).fb } := rfl

theorem fbByte_setPixel_whole (i : Nat) (c : Colour) : (s.setPixel i c).fbByte (wholeByte i) = wholeValue i c := by
  rw [State.setPixel, fbByte_fbWrite_other _ (wholeByte_ne_sharedByte i), fbByte_fbWrite_same]

theorem fbByte_setPixel_shared (i : Nat) (c : Colour) :
    (s.setPixel i c).fbByte (sharedByte i) = sharedValue i c (s.fbByte (sharedByte i)) := by
  rw [State.setPixel, fbByte_fbWrite_same]

theorem fbByte_setPixel_other {i a : Nat} (c : Colour) (h1 : a ≠ wholeByte i) (h2 : a ≠ sharedByte i) :
    (s.setPixel i c).fbByte a = s.fbByte a := by
  rw [State.setPixel, fbByte_fbWrite_other _ h2, fbByte_fbWrite_other _ h1]

/-- The nibble view of a pixel (20_memory.md R53, R57). -/
theorem pixelAt_eq_nibbles (s : State) (i : Nat) :
    s.pixelAt i = rgb (s.nibble (3 * i)) (s.nibble (3 * i + 1)) (s.nibble (3 * i + 2)) := by
  rcases Nat.even_or_odd' i with ⟨k, rfl | rfl⟩
  · have h0 : 2 * k % 2 = 0 := by omega
    have h1 : 2 * k / 2 = k := by omega
    have e0 : 3 * (2 * k) % 2 = 0 := by omega
    have e1 : (3 * (2 * k) + 1) % 2 ≠ 0 := by omega
    have e2 : (3 * (2 * k) + 2) % 2 = 0 := by omega
    have d0 : 3 * (2 * k) / 2 = 3 * k := by omega
    have d1 : (3 * (2 * k) + 1) / 2 = 3 * k := by omega
    have d2 : (3 * (2 * k) + 2) / 2 = 3 * k + 1 := by omega
    simp only [State.pixelAt, State.nibble, h0, h1, e0, e1, e2, d0, d1, d2, if_true, if_false]
  · have h0 : (2 * k + 1) % 2 ≠ 0 := by omega
    have h1 : (2 * k + 1) / 2 = k := by omega
    have e0 : 3 * (2 * k + 1) % 2 ≠ 0 := by omega
    have e1 : (3 * (2 * k + 1) + 1) % 2 = 0 := by omega
    have e2 : (3 * (2 * k + 1) + 2) % 2 ≠ 0 := by omega
    have d0 : 3 * (2 * k + 1) / 2 = 3 * k + 1 := by omega
    have d1 : (3 * (2 * k + 1) + 1) / 2 = 3 * k + 2 := by omega
    have d2 : (3 * (2 * k + 1) + 2) / 2 = 3 * k + 2 := by omega
    simp only [State.pixelAt, State.nibble, h0, h1, e0, e1, e2, d0, d1, d2, if_true, if_false]

/-- Everything a pixel write does to the nibbles of FB (20_memory.md R53, R58). -/
theorem nibble_setPixel (s : State) (i : Nat) (c : Colour) (n : Nat) :
    (s.setPixel i c).nibble n =
      if n = 3 * i then chanR c else if n = 3 * i + 1 then chanG c else if n = 3 * i + 2 then chanB c
      else s.nibble n := by
  have hw := fbByte_setPixel_whole (s := s) i c
  have hs := fbByte_setPixel_shared (s := s) i c
  have ho := fun a => fbByte_setPixel_other (s := s) (i := i) (a := a) c
  simp only [wholeByte, sharedByte, wholeValue, sharedValue] at hw hs ho
  rcases Nat.even_or_odd' i with ⟨k, rfl | rfl⟩
  · have h0 : 2 * k % 2 = 0 := by omega
    have h1 : 2 * k / 2 = k := by omega
    simp only [h0, h1, if_true] at hw hs ho
    simp only [State.nibble]
    by_cases c0 : n = 3 * (2 * k)
    · have : n / 2 = 3 * k := by omega
      have m : n % 2 = 0 := by omega
      simp [c0, show 3 * (2 * k) % 2 = 0 by omega, show 3 * (2 * k) / 2 = 3 * k by omega, hw]
    · by_cases c1 : n = 3 * (2 * k) + 1
      · simp [c1, show (3 * (2 * k) + 1) % 2 ≠ 0 by omega, show (3 * (2 * k) + 1) / 2 = 3 * k by omega, hw]
      · by_cases c2 : n = 3 * (2 * k) + 2
        · simp [c2, show (3 * (2 * k) + 2) % 2 = 0 by omega, show (3 * (2 * k) + 2) / 2 = 3 * k + 1 by omega, hs]
        · simp only [c0, c1, c2, if_false]
          by_cases c3 : n / 2 = 3 * k + 1
          · have m : n % 2 ≠ 0 := by omega
            simp [c3, m, hs]
          · rw [ho _ (by omega) c3]
  · have h0 : (2 * k + 1) % 2 ≠ 0 := by omega
    have h1 : (2 * k + 1) / 2 = k := by omega
    simp only [h0, h1, if_false] at hw hs ho
    simp only [State.nibble]
    by_cases c0 : n = 3 * (2 * k + 1)
    · simp [c0, show 3 * (2 * k + 1) % 2 ≠ 0 by omega, show 3 * (2 * k + 1) / 2 = 3 * k + 1 by omega, hs]
    · by_cases c1 : n = 3 * (2 * k + 1) + 1
      · simp [c1, show (3 * (2 * k + 1) + 1) % 2 = 0 by omega, show (3 * (2 * k + 1) + 1) / 2 = 3 * k + 2 by omega, hw]
      · by_cases c2 : n = 3 * (2 * k + 1) + 2
        · have m : n % 2 ≠ 0 := by omega
          have d : n / 2 = 3 * k + 2 := by omega
          rw [if_neg m, d, hw, loNib_pack, if_neg c0, if_neg c1, if_pos c2]
        · simp only [c0, c1, c2, if_false]
          by_cases c3 : n / 2 = 3 * k + 1
          · have m : n % 2 = 0 := by omega
            simp [c3, m, hs]
          · rw [ho _ (by omega) c3]

theorem pixelAt_setPixel_same (s : State) (i : Nat) (c : Colour) : (s.setPixel i c).pixelAt i = c := by
  rw [pixelAt_eq_nibbles]
  simp only [nibble_setPixel, show 3 * i + 1 ≠ 3 * i by omega, show 3 * i + 2 ≠ 3 * i by omega,
    show 3 * i + 2 ≠ 3 * i + 1 by omega, if_true, if_false]
  exact rgb_chan c

theorem pixelAt_setPixel_other (s : State) {i j : Nat} (c : Colour) (h : j ≠ i) :
    (s.setPixel i c).pixelAt j = s.pixelAt j := by
  have key : ∀ d, d < 3 → (s.setPixel i c).nibble (3 * j + d) = s.nibble (3 * j + d) := by
    intro d hd
    rw [nibble_setPixel, if_neg (by omega), if_neg (by omega), if_neg (by omega)]
  rw [pixelAt_eq_nibbles, pixelAt_eq_nibbles, key 1 (by omega), key 2 (by omega)]
  exact congrArg (rgb · _ _) (key 0 (by omega))

/-- The linear index names one pixel of the screen (20_memory.md R51). -/
theorem linear_inj {w x y x' y' : Nat} (hx : x < w) (hx' : x' < w) (h : y * w + x = y' * w + x') :
    x = x' ∧ y = y' := by
  have hw : 0 < w := by omega
  have e1 := congrArg (· % w) h
  have e2 := congrArg (· / w) h
  simp only [Nat.mul_comm _ w, Nat.mul_add_mod, Nat.mod_eq_of_lt hx, Nat.mod_eq_of_lt hx'] at e1
  simp only [Nat.mul_comm _ w, Nat.mul_add_div hw, Nat.div_eq_of_lt hx, Nat.div_eq_of_lt hx', Nat.add_zero] at e2
  exact ⟨e1, e2⟩

/-- The byte of a fill triple at address `a` (40_pixel_writer.md R113). -/
def fillByte (c : Colour) (a : Nat) : Byte :=
  if a % 3 = 0 then pack (chanR c) (chanG c) else if a % 3 = 1 then pack (chanB c) (chanR c) else pack (chanG c) (chanB c)

theorem cellsRead_fillCells (c : Colour) (n : Nat) : ∀ (k : Nat) (rest : List Host.Cell) (a : Nat), 3 * k ≤ a →
    cellsRead (fillCells c k n rest) a = if a < 3 * (k + n) then some (fillByte c a) else cellsRead rest a := by
  induction n with
  | zero => intro k rest a h; simp [fillCells, show ¬ a < 3 * k by omega]
  | succ n ih =>
    intro k rest a h
    simp only [fillCells, cellsRead]
    split
    · next e => simp [e, fillByte, show 3 * k < 3 * (k + (n + 1)) by omega]
    · split
      · next e => simp [e, fillByte, show 3 * k + 1 < 3 * (k + (n + 1)) by omega, Nat.add_mod]
      · split
        · next e => simp [e, fillByte, show 3 * k + 2 < 3 * (k + (n + 1)) by omega, Nat.add_mod]
        · rw [ih (k + 1) rest a (by omega)]
          simp only [show k + 1 + n = k + (n + 1) by omega]

theorem cellsRead_filter_ge (m : List Host.Cell) (b a : Nat) (h : b ≤ a) :
    cellsRead (m.filter fun cell => decide (b ≤ cell.1)) a = cellsRead m a := by
  induction m with
  | nil => rfl
  | cons c m ih =>
    simp only [List.filter_cons]
    split
    · simp [cellsRead, ih]
    · next hc =>
      have : a ≠ c.1 := by simp at hc; omega
      simp [cellsRead, this, ih]

/-- Everything a fill does to the bytes of FB (40_pixel_writer.md R113). -/
theorem fbByte_fillAll (s : State) (c : Colour) (a : Nat) :
    (s.fillAll c).fbByte a = if a < 3 * (s.cfg.w * s.cfg.h / 2) then fillByte c a else s.fbByte a := by
  simp only [State.fbByte, State.fillAll]
  rw [cellsRead_fillCells c _ 0 _ a (by omega)]
  simp only [Nat.zero_add]
  split
  · rfl
  · rw [cellsRead_filter_ge _ _ _ (by omega)]

theorem cellsWf_filter_ge {n : Nat} (m : List Host.Cell) (b : Nat) (hm : cellsWf n m = true) :
    cellsWf n (m.filter fun cell => decide (b ≤ cell.1)) = true ∧
      (∀ d ∈ (m.filter fun cell => decide (b ≤ cell.1)).head?, b ≤ d.1 ∧ ∀ c ∈ m.head?, c.1 ≤ d.1) := by
  induction m with
  | nil => simp [cellsWf]
  | cons c m ih =>
    have ⟨ih1, ih2⟩ := ih (cellsWf_tail hm)
    have hlt : ∀ e ∈ m.head?, c.1 < e.1 := by
      intro e he
      cases m with
      | nil => simp at he
      | cons d' m =>
        simp only [cellsWf, Bool.and_eq_true, decide_eq_true_eq] at hm
        simp only [List.head?_cons, Option.mem_some_iff] at he
        subst he; exact hm.1
    have key : ∀ d ∈ (m.filter fun cell => decide (b ≤ cell.1)).head?, c.1 < d.1 := by
      intro d hd
      cases m with
      | nil => simp at hd
      | cons e m =>
        have := (ih2 d hd).2 e rfl
        have := hlt e rfl
        omega
    simp only [List.filter_cons]
    split
    · next hc =>
      refine ⟨cellsWf_cons (cellsWf_head hm) ih1 key, ?_⟩
      simp only [List.head?_cons, Option.mem_some_iff]
      rintro d rfl
      exact ⟨by simpa using hc, by rintro _ rfl; exact Nat.le_refl _⟩
    · refine ⟨ih1, fun d hd => ⟨(ih2 d hd).1, ?_⟩⟩
      simp only [List.head?_cons, Option.mem_some_iff]
      rintro _ rfl
      exact Nat.le_of_lt (key d hd)

theorem cellsWf_fillCells {bound : Nat} (c : Colour) (rest : List Host.Cell) (hr : cellsWf bound rest = true) (n : Nat) :
    ∀ k, 3 * (k + n) ≤ bound → (∀ d ∈ rest.head?, 3 * (k + n) ≤ d.1) →
      cellsWf bound (fillCells c k n rest) = true ∧ ∀ d ∈ (fillCells c k n rest).head?, 3 * k ≤ d.1 := by
  induction n with
  | zero => intro k _ h; exact ⟨hr, by simpa [fillCells] using h⟩
  | succ n ih =>
    intro k hb h
    have ⟨i1, i2⟩ := ih (k + 1) (by omega) (by intro d hd; have := h d hd; omega)
    refine ⟨?_, by simp only [fillCells, List.head?_cons, Option.mem_some_iff]; rintro d rfl; exact Nat.le_refl _⟩
    simp only [fillCells]
    refine cellsWf_cons (by simp; omega) (cellsWf_cons (by simp; omega) (cellsWf_cons (by simp; omega) i1 ?_) ?_) ?_
    · intro d hd; have := i2 d hd; simp; omega
    · simp
    · simp

/-- A pixel write inside the framebuffer keeps the canonical form. -/
theorem memory_wf_setPixel {n i : Nat} (c : Colour) (h : Memory.wf n s.fb = true) (hi : 3 * (i / 2) + 2 < n) :
    Memory.wf n (s.setPixel i c).fb = true := by
  refine cellsWf_cellsWrite _ (cellsWf_cellsWrite _ h ?_) ?_
  · unfold wholeByte; split <;> omega
  · unfold sharedByte; omega

/-- A fill keeps the canonical form. -/
theorem memory_wf_fillAll {n : Nat} (c : Colour) (h : Memory.wf n s.fb = true) (hn : 3 * (s.cfg.w * s.cfg.h / 2) ≤ n) :
    Memory.wf n (s.fillAll c).fb = true := by
  have ⟨f1, f2⟩ := cellsWf_filter_ge s.fb (3 * (s.cfg.w * s.cfg.h / 2)) h
  refine (cellsWf_fillCells c _ f1 _ 0 (by simpa using hn) ?_).1
  intro d hd
  simpa using (f2 d hd).1

/-- After reset nothing is listed, which is the canonical form. -/
theorem memory_wf_reset (n : Nat) (c : Config) (d : Nat) : Memory.wf n (State.resetWith c d).fb = true := rfl

end Sys2Proof.Machine
end

