-- ==== Sys2Proof/Laws/Micro.lean ====
section
/-!
SUPPORT. What running unit calls can do, said once (00_scope.md R2): which fields change, which bytes, which
pixel gets which colour, and that the memory stays canonical. Every drawing command's claims go through here.
-/

namespace Sys2Proof.Machine

/-- The unit call is an unchecked pixel write on a screen of `w` by `h`. -/
def Micro.inScreen (w h : Nat) : Micro → Prop
  | .wpxu x y _ => 0 ≤ x ∧ x < w ∧ 0 ≤ y ∧ y < h
  | .raise _ => False

/-- The colour of the last write of the calls to the pixel at column `x`, row `y`. -/
def lastWrite : List Micro → Nat → Nat → Option Colour
  | [], _, _ => none
  | .raise _ :: ms, x, y => lastWrite ms x y
  | .wpxu x' y' c :: ms, x, y => (lastWrite ms x y).or (if x' = x ∧ y' = y then some c else none)

variable {s : State}

theorem inBounds_iff (x y : Int) : s.inBounds x y = true ↔ 0 ≤ x ∧ x < s.cfg.w ∧ 0 ≤ y ∧ y < s.cfg.h := by
  simp only [State.inBounds, Bool.and_eq_true, decide_eq_true_eq]; tauto

theorem linear_nat (x y : Nat) : s.linear x y = y * s.cfg.w + x := by simp [State.linear]

/-- Everything unit calls can do to a state: FB changes, and then perhaps a fault is taken. -/
theorem runMicro_cases (ms : List Micro) (s : State) :
    ∃ m, runMicro ms s = { s with fb := m } ∨ ∃ f, runMicro ms s = State.raise { s with fb := m } f := by
  induction ms generalizing s with
  | nil => exact ⟨s.fb, .inl rfl⟩
  | cons m ms ih =>
    cases m with
    | raise f => exact ⟨s.fb, .inr ⟨f, rfl⟩⟩
    | wpxu x y c =>
      simp only [runMicro]
      split
      · obtain ⟨m, h | ⟨f, h⟩⟩ := ih (s.setPixel (s.linear x y) c)
        · exact ⟨m, .inl h⟩
        · exact ⟨m, .inr ⟨f, h⟩⟩
      · exact ⟨s.fb, .inr ⟨.oob x y, rfl⟩⟩

@[simp] theorem runMicro_cfg (ms : List Micro) (s : State) : (runMicro ms s).cfg = s.cfg := by
  obtain ⟨m, h | ⟨f, h⟩⟩ := runMicro_cases ms s <;> rw [h] <;> rfl

@[simp] theorem runMicro_draw (ms : List Micro) (s : State) : (runMicro ms s).draw = s.draw := by
  obtain ⟨m, h | ⟨f, h⟩⟩ := runMicro_cases ms s <;> rw [h] <;> rfl

@[simp] theorem runMicro_txt (ms : List Micro) (s : State) : (runMicro ms s).txt = s.txt := by
  obtain ⟨m, h | ⟨f, h⟩⟩ := runMicro_cases ms s <;> rw [h] <;> rfl

@[simp] theorem runMicro_res (ms : List Micro) (s : State) : (runMicro ms s).res = s.res := by
  obtain ⟨m, h | ⟨f, h⟩⟩ := runMicro_cases ms s <;> rw [h] <;> rfl

@[simp] theorem runMicro_host (ms : List Micro) (s : State) : (runMicro ms s).host = s.host := by
  obtain ⟨m, h | ⟨f, h⟩⟩ := runMicro_cases ms s <;> rw [h] <;> rfl

@[simp] theorem runMicro_portOut (ms : List Micro) (s : State) : (runMicro ms s).portOut = s.portOut := by
  obtain ⟨m, h | ⟨f, h⟩⟩ := runMicro_cases ms s <;> rw [h] <;> rfl

/-- Calls that stay on the screen do not fault, and what comes after them runs on their result. -/
theorem runMicro_append {ms : List Micro} (ns : List Micro) (h : ∀ m ∈ ms, m.inScreen s.cfg.w s.cfg.h) :
    runMicro (ms ++ ns) s = runMicro ns (runMicro ms s) := by
  induction ms generalizing s with
  | nil => rfl
  | cons m ms ih =>
    have hm := h m (List.mem_cons_self ..)
    cases m with
    | raise f => exact hm.elim
    | wpxu x y c =>
      have hb : s.inBounds x y = true := (inBounds_iff x y).2 hm
      simp only [List.cons_append, runMicro, hb, if_true]
      exact ih fun m' h' => h m' (List.mem_cons_of_mem _ h')

/-- Calls that stay on the screen change FB alone. -/
theorem runMicro_fbOnly {ms : List Micro} (h : ∀ m ∈ ms, m.inScreen s.cfg.w s.cfg.h) : fbOnly s (runMicro ms s) := by
  induction ms generalizing s with
  | nil => rfl
  | cons m ms ih =>
    have hm := h m (List.mem_cons_self ..)
    cases m with
    | raise f => exact hm.elim
    | wpxu x y c =>
      have hb : s.inBounds x y = true := (inBounds_iff x y).2 hm
      simp only [runMicro, hb, if_true]
      have := ih (s := s.setPixel (s.linear x y) c) fun m' h' => h m' (List.mem_cons_of_mem _ h')
      unfold fbOnly at this ⊢
      rw [this]; rfl

/-- A byte that no call stores to keeps its value, whether or not the calls fault. -/
theorem runMicro_byte {ms : List Micro} {a : Nat}
    (h : ∀ x y c, Micro.wpxu x y c ∈ ms → s.inBounds x y = true →
      a ≠ wholeByte (s.linear x y) ∧ a ≠ sharedByte (s.linear x y)) :
    (runMicro ms s).fbByte a = s.fbByte a := by
  induction ms generalizing s with
  | nil => rfl
  | cons m ms ih =>
    cases m with
    | raise f => rfl
    | wpxu x y c =>
      simp only [runMicro]
      split
      · next hb =>
        have h1 := h x y c (List.mem_cons_self ..) hb
        rw [ih (s := s.setPixel (s.linear x y) c) fun x' y' c' h' => h x' y' c' (List.mem_cons_of_mem _ h')]
        exact fbByte_setPixel_other c h1.1 h1.2
      · rfl

/-- After calls that stay on the screen a pixel holds the colour of the last write to it, or what it held. -/
theorem runMicro_pixel {ms : List Micro} (h : ∀ m ∈ ms, m.inScreen s.cfg.w s.cfg.h) {x y : Nat} (hx : x < s.cfg.w) :
    (runMicro ms s).pixel x y = (lastWrite ms x y).getD (s.pixel x y) := by
  induction ms generalizing s with
  | nil => rfl
  | cons m ms ih =>
    have hm := h m (List.mem_cons_self ..)
    cases m with
    | raise f => exact hm.elim
    | wpxu x' y' c =>
      have hb : s.inBounds x' y' = true := (inBounds_iff x' y').2 hm
      obtain ⟨h1, h2, h3, h4⟩ := hm
      simp only [runMicro, hb, if_true]
      rw [ih (s := s.setPixel (s.linear x' y') c) (fun m' h' => h m' (List.mem_cons_of_mem _ h')) hx]
      have key : (s.setPixel (s.linear x' y') c).pixel x y = if x' = x ∧ y' = y then c else s.pixel x y := by
        obtain ⟨u, rfl⟩ := Int.eq_ofNat_of_zero_le h1
        obtain ⟨v, rfl⟩ := Int.eq_ofNat_of_zero_le h3
        rw [linear_nat]
        simp only [State.pixel, setPixel_cfg, Int.natCast_inj]
        split
        · next e => obtain ⟨rfl, rfl⟩ := e; exact pixelAt_setPixel_same ..
        · next e =>
          refine pixelAt_setPixel_other _ _ fun he => e ?_
          have := linear_inj hx (by omega) he
          exact ⟨this.1.symm, this.2.symm⟩
      rw [key]
      simp only [lastWrite]
      cases lastWrite ms x y with
      | some d => simp
      | none => simp only [Option.none_or, Option.getD_none]; split <;> rfl

theorem lastWrite_append (ms ns : List Micro) (x y : Nat) :
    lastWrite (ms ++ ns) x y = (lastWrite ns x y).or (lastWrite ms x y) := by
  induction ms with
  | nil => simp [lastWrite]
  | cons m ms ih =>
    cases m with
    | raise f => simpa [lastWrite] using ih
    | wpxu x' y' c => simp only [List.cons_append, lastWrite, ih, Option.or_assoc]

/-- The colour of the last write is that of one of the writes. -/
theorem mem_of_lastWrite {ms : List Micro} {x y : Nat} {c : Colour} (h : lastWrite ms x y = some c) :
    Micro.wpxu x y c ∈ ms := by
  induction ms with
  | nil => simp [lastWrite] at h
  | cons m ms ih =>
    cases m with
    | raise f => exact List.mem_cons_of_mem _ (ih h)
    | wpxu x' y' c' =>
      simp only [lastWrite] at h
      cases hl : lastWrite ms x y with
      | some d =>
        rw [hl] at h
        simp only [Option.some_or, Option.some.injEq] at h
        subst h; exact List.mem_cons_of_mem _ (ih hl)
      | none =>
        rw [hl] at h
        simp only [Option.none_or] at h
        split at h
        · next e => obtain ⟨rfl, rfl⟩ := e; simp only [Option.some.injEq] at h; subst h; exact List.mem_cons_self ..
        · simp at h

/-- A pixel that is written has a last write. -/
theorem lastWrite_isSome {ms : List Micro} {x y : Nat} {c : Colour} (h : Micro.wpxu x y c ∈ ms) :
    ∃ d, lastWrite ms x y = some d := by
  induction ms with
  | nil => simp at h
  | cons m ms ih =>
    rcases List.mem_cons.1 h with rfl | h
    · simp only [lastWrite]
      cases hl : lastWrite ms x y with
      | some d => exact ⟨d, by simp⟩
      | none => exact ⟨c, by simp⟩
    · obtain ⟨d, hd⟩ := ih h
      cases m with
      | raise f => exact ⟨d, hd⟩
      | wpxu x' y' c' => exact ⟨d, by simp [lastWrite, hd]⟩

theorem lastWrite_none {ms : List Micro} {x y : Nat} (h : ∀ c, Micro.wpxu x y c ∉ ms) : lastWrite ms x y = none := by
  cases hl : lastWrite ms x y with
  | none => rfl
  | some c => exact (h c (mem_of_lastWrite hl)).elim

/-- A pixel all of whose writes have one colour ends with it. -/
theorem lastWrite_eq {ms : List Micro} {x y : Nat} {c d : Colour} (h : Micro.wpxu x y c ∈ ms)
    (hall : ∀ c', Micro.wpxu x y c' ∈ ms → c' = d) : lastWrite ms x y = some d := by
  obtain ⟨e, he⟩ := lastWrite_isSome h
  rw [he, hall e (mem_of_lastWrite he)]

/-- Calls that stay on the screen paint: the pixels of `P`, each of whose writes has its colour. -/
theorem paints_runMicro {ms : List Micro} {P : Nat → Nat → Prop} {colour : Nat → Nat → Colour}
    (hin : ∀ m ∈ ms, m.inScreen s.cfg.w s.cfg.h)
    (hcol : ∀ x y : Nat, ∀ c, x < s.cfg.w → y < s.cfg.h → Micro.wpxu x y c ∈ ms → P x y ∧ c = colour x y)
    (hall : ∀ x y : Nat, x < s.cfg.w → y < s.cfg.h → P x y → ∃ c, Micro.wpxu x y c ∈ ms) :
    paints s (runMicro ms s) P colour := by
  refine ⟨runMicro_fbOnly hin, fun a ha => runMicro_byte fun x y c hm hb => ?_, fun x y hx hy => ⟨fun hp => ?_, fun hp => ?_⟩⟩
  · obtain ⟨h1, h2, h3, h4⟩ := (inBounds_iff x y).1 hb
    obtain ⟨u, rfl⟩ := Int.eq_ofNat_of_zero_le h1
    obtain ⟨v, rfl⟩ := Int.eq_ofNat_of_zero_le h3
    rw [linear_nat]
    exact ha u v (hcol u v c (by omega) (by omega) hm).1
  · obtain ⟨c, hc⟩ := hall x y hx hy hp
    rw [runMicro_pixel hin hx, lastWrite_eq hc fun c' h' => (hcol x y c' hx hy h').2]; rfl
  · rw [runMicro_pixel hin hx, lastWrite_none fun c hc => hp (hcol x y c hx hy hc).1]; rfl

/-- The bytes of a pixel on the screen are bytes of the framebuffer (40_pixel_writer.md R110). -/
theorem pixel_bytes_lt {w h x y : Nat} (hw : w % 2 = 0) (hx : x < w) (hy : y < h) :
    3 * ((y * w + x) / 2) + 2 < w * h * 3 / 2 := by
  obtain ⟨v, rfl⟩ : ∃ v, w = 2 * v := ⟨w / 2, by omega⟩
  obtain ⟨h', rfl⟩ : ∃ h', h = y + 1 + h' := ⟨h - y - 1, by omega⟩
  have e1 : (y * (2 * v) + x) / 2 = y * v + x / 2 := by
    rw [show y * (2 * v) + x = x + 2 * (y * v) by ring, Nat.add_mul_div_left _ _ (by omega)]; omega
  have e2 : 2 * v * (y + 1 + h') * 3 / 2 = 3 * (y * v) + 3 * v + 3 * (v * h') := by
    rw [show 2 * v * (y + 1 + h') * 3 = 2 * (3 * (y * v) + 3 * v + 3 * (v * h')) by ring, Nat.mul_div_cancel_left _ (by omega)]
  rw [e1, e2]
  have : x / 2 < v := by omega
  omega

/-- Unit calls keep the canonical form of the memory, whether or not they fault. -/
theorem memory_wf_runMicro (ms : List Micro) {s : State} (hw : s.cfg.w % 2 = 0)
    (h : Memory.wf s.fbBytes s.fb = true) : Memory.wf s.fbBytes (runMicro ms s).fb = true := by
  induction ms generalizing s with
  | nil => exact h
  | cons m ms ih =>
    cases m with
    | raise f => exact h
    | wpxu x y c =>
      simp only [runMicro]
      split
      · next hb =>
        obtain ⟨h1, h2, h3, h4⟩ := (inBounds_iff x y).1 hb
        obtain ⟨u, rfl⟩ := Int.eq_ofNat_of_zero_le h1
        obtain ⟨v, rfl⟩ := Int.eq_ofNat_of_zero_le h3
        have hb' : 3 * ((v * s.cfg.w + u) / 2) + 2 < s.fbBytes := pixel_bytes_lt hw (by omega) (by omega)
        exact ih (s := s.setPixel _ c) hw (memory_wf_setPixel c h (by rw [linear_nat]; exact hb'))
      · exact h

end Sys2Proof.Machine
end

