-- ==== Sys2Proof/Laws/Draw.lean ====
section
/-!
SUPPORT. What the unit calls of FRECT, DGLYPH and DIMG are, said once for each shared operation: which pixel writes
they hold, that a well-formed asset never makes them fault, and what a row that runs over the right edge leaves.
-/

namespace Sys2Proof.Machine

variable {s : State}

/-- An unchecked pixel write is tested on the integers (60_exceptions.md R234). -/
theorem inBounds_op (x y : Coord) : s.inBounds (opInt x) (opInt y) = true ↔ x.toNat < s.cfg.w ∧ y.toNat < s.cfg.h := by
  rw [inBounds_iff]; simp only [opInt]; omega

/-- Taking F_OOB at a column `w` of row `y` (60_exceptions.md R238). -/
theorem raise_oob_edge (u : State) (w : Nat) (y : Coord) :
    u.raise (.oob w (opInt y)) = { u with status := 0x32, finfo := y ++ BitVec.ofNat 16 w } := by
  simp [State.raise, statusOfFault, faultCode, finfoOfFault, opInt]

/-- Taking F_OOB at column `x` of a row `h` (60_exceptions.md R238). -/
theorem raise_oob_bottom (u : State) (x : Coord) (h : Nat) :
    u.raise (.oob (opInt x) h) = { u with status := 0x32, finfo := BitVec.ofNat 16 h ++ x } := by
  simp [State.raise, statusOfFault, faultCode, finfoOfFault, opInt]

/-- Taking F_OOB at the operands (60_exceptions.md R238). -/
theorem raise_oob_op (u : State) (x y : Coord) :
    u.raise (.oob (opInt x) (opInt y)) = { u with status := 0x32, finfo := y ++ x } := by
  simp [State.raise, statusOfFault, faultCode, finfoOfFault, opInt]

/-- What is painted depends on the set of pixels and their colours alone. -/
theorem paints_congr {t : State} {P Q : Nat → Nat → Prop} {c d : Nat → Nat → Colour} (h : paints s t P c)
    (hpq : ∀ x y, P x y ↔ Q x y) (hc : ∀ x y, P x y → c x y = d x y) : paints s t Q d := by
  refine ⟨h.1, fun a ha => h.2.1 a fun x y hp => ha x y ((hpq x y).1 hp), fun x y hx hy =>
    ⟨fun hq => ?_, fun hq => (h.2.2 x y hx hy).2 fun hp => hq ((hpq x y).1 hp)⟩⟩
  have hp := (hpq x y).2 hq
  rw [(h.2.2 x y hx hy).1 hp, hc x y hp]

/-- Calls that stay on the screen, then a write off it: the fault is taken there, what was written stands. -/
theorem runMicro_append_oob {ms : List Micro} (ns : List Micro) (x y : Int) (c : Colour)
    (h : ∀ m ∈ ms, m.inScreen s.cfg.w s.cfg.h) (ho : s.inBounds x y = false) :
    runMicro (ms ++ .wpxu x y c :: ns) s = (runMicro ms s).raise (.oob x y) := by
  rw [runMicro_append _ h]
  have : (runMicro ms s).inBounds x y = false := by simpa [State.inBounds] using ho
  simp [runMicro, this]

theorem irange_split {a b c : Int} (h1 : a ≤ b) (h2 : b < c) : irange a c = irange a b ++ b :: irange (b + 1) c := by
  simp only [irange]
  obtain ⟨n, hn⟩ := Int.eq_ofNat_of_zero_le (show 0 ≤ b - a by omega)
  obtain ⟨m, hm⟩ := Int.eq_ofNat_of_zero_le (show 0 ≤ c - b - 1 by omega)
  rw [show (b - a).toNat = n by omega, show (c - a).toNat = n + (1 + m) by omega, show (c - (b + 1)).toNat = m by omega]
  apply List.ext_getElem
  · simp; omega
  · intro i _ _
    simp only [List.getElem_map, List.getElem_range', List.getElem_append, List.length_map, List.length_range',
      List.getElem_cons]
    split_ifs <;> omega

/-- The first of the integers `[a, c)`. -/
theorem irange_cons {a c : Int} (h : a < c) : irange a c = a :: irange (a + 1) c := by
  have := irange_split (Int.le_refl a) h
  rwa [irange_empty (a := a) (b := a) (by omega), List.nil_append] at this

/-- A picture drawn row by row whose first row leaves the screen at its column `k`: the row is written up to the
right edge and the fault is taken there. -/
theorem runMicro_over_edge {f : Int → Int → Micro} {x y n h k : Int} (hk : 0 ≤ k) (hkn : k < n) (hh : 0 < h)
    (g : Int → Colour) (hf : ∀ i, 0 ≤ i → i ≤ k → f i 0 = .wpxu (x + i) y (g i)) (hy : 0 ≤ y ∧ y < s.cfg.h)
    (hx : 0 ≤ x) (hxk : x + k = s.cfg.w) :
    ∃ u, runMicro ((irange 0 h).flatMap fun gy => (irange 0 n).map fun gx => f gx gy) s = u.raise (.oob s.cfg.w y) ∧
      paints s u (fun px py => x ≤ px ∧ px < s.cfg.w ∧ (py : Int) = y) (fun px _ => g (px - x)) := by
  rw [irange_cons hh, List.flatMap_cons, irange_split hk hkn]
  simp only [List.map_append, List.map_cons, List.append_assoc, List.cons_append, hf k hk (le_refl _)]
  have hin : ∀ m ∈ (irange 0 k).map (fun gx => f gx 0), m.inScreen s.cfg.w s.cfg.h := by
    intro m hm
    obtain ⟨i, hi, rfl⟩ := List.mem_map.1 hm
    rw [mem_irange] at hi
    rw [hf i hi.1 (by omega)]; simp only [Micro.inScreen]; omega
  refine ⟨runMicro ((irange 0 k).map fun gx => f gx 0) s, ?_, paints_runMicro hin ?_ ?_⟩
  · rw [hxk, runMicro_append_oob _ _ _ _ hin]
    rw [← Bool.not_eq_true, inBounds_iff]; omega
  · intro px py c h1 h2 hm
    obtain ⟨i, hi, e⟩ := List.mem_map.1 hm
    rw [mem_irange] at hi
    rw [hf i hi.1 (by omega)] at e
    simp only [Micro.wpxu.injEq] at e
    obtain ⟨a, b, rfl⟩ := e
    exact ⟨by omega, by congr 1; omega⟩
  · intro px py h1 h2 ⟨h3, h4, h5⟩
    refine ⟨g (px - x), List.mem_map.2 ⟨px - x, by rw [mem_irange]; omega, ?_⟩⟩
    rw [hf _ (by omega) (by omega)]; simp only [Micro.wpxu.injEq]; exact ⟨by omega, by omega, trivial⟩

/-- A picture without rows or columns makes no unit call. -/
theorem picture_empty {f : Int → Int → Micro} {n h : Int} (he : n ≤ 0 ∨ h ≤ 0) :
    ((irange 0 h).flatMap fun gy => (irange 0 n).map fun gx => f gx gy) = [] := by
  rw [List.flatMap_eq_nil_iff]
  rcases he with he | he
  · intro gy _; rw [irange_empty he, List.map_nil]
  · rw [irange_empty he]; simp

/-- A picture drawn row by row whose first pixel is off the screen: the fault is taken there, nothing is written. -/
theorem runMicro_first_off {f : Int → Int → Micro} {x y n h : Int} {c : Colour} (hn : 0 < n) (hh : 0 < h)
    (hf : f 0 0 = .wpxu x y c) (hb : s.inBounds x y = false) :
    runMicro ((irange 0 h).flatMap fun gy => (irange 0 n).map fun gx => f gx gy) s = s.raise (.oob x y) := by
  rw [irange_cons hh, List.flatMap_cons, irange_cons hn, List.map_cons, hf, List.cons_append]
  simp [runMicro, hb]

/-- A picture drawn row by row whose rows fit the screen's width and whose row `k` is the first past the bottom: the
rows before it are written whole and the fault is taken at its first pixel. -/
theorem runMicro_past_bottom {f : Int → Int → Micro} {x y n h k : Int} (hn : 0 < n) (hk : 0 ≤ k) (hkh : k < h)
    (g : Int → Int → Colour)
    (hf : ∀ i j, 0 ≤ i → i < n → 0 ≤ j → j ≤ k → f i j = .wpxu (x + i) (y + j) (g i j)) (hx : 0 ≤ x)
    (hxn : x + n ≤ s.cfg.w) (hy : 0 ≤ y) (hyk : y + k = s.cfg.h) :
    ∃ u, runMicro ((irange 0 h).flatMap fun gy => (irange 0 n).map fun gx => f gx gy) s = u.raise (.oob x s.cfg.h) ∧
      paints s u (fun px py => x ≤ px ∧ px < x + n ∧ y ≤ py ∧ py < s.cfg.h) (fun px py => g (px - x) (py - y)) := by
  have hm : ∀ m, m ∈ ((irange 0 k).flatMap fun gy => (irange 0 n).map fun gx => f gx gy) ↔
      ∃ i j, 0 ≤ i ∧ i < n ∧ 0 ≤ j ∧ j < k ∧ m = .wpxu (x + i) (y + j) (g i j) := by
    intro m
    simp only [List.mem_flatMap, List.mem_map, mem_irange]
    constructor
    · rintro ⟨j, hj, i, hi, rfl⟩; exact ⟨i, j, hi.1, hi.2, hj.1, hj.2, hf i j hi.1 hi.2 hj.1 (by omega)⟩
    · rintro ⟨i, j, a, b, c, d, rfl⟩; exact ⟨j, ⟨c, d⟩, i, ⟨a, b⟩, hf i j a b c (by omega)⟩
  have hin : ∀ m ∈ ((irange 0 k).flatMap fun gy => (irange 0 n).map fun gx => f gx gy),
      m.inScreen s.cfg.w s.cfg.h := by
    intro m h
    obtain ⟨i, j, a, b, c, d, rfl⟩ := (hm m).1 h
    simp only [Micro.inScreen]; omega
  refine ⟨runMicro ((irange 0 k).flatMap fun gy => (irange 0 n).map fun gx => f gx gy) s, ?_,
    paints_runMicro hin ?_ ?_⟩
  · rw [irange_split hk hkh, List.flatMap_append, List.flatMap_cons, irange_cons hn, List.map_cons,
      hf 0 k (Int.le_refl 0) hn hk (Int.le_refl k), Int.add_zero, hyk, List.cons_append, ← irange_cons hn]
    exact runMicro_append_oob _ _ _ _ hin (by rw [← Bool.not_eq_true, inBounds_iff]; omega)
  · intro px py c _ _ h
    obtain ⟨i, j, a, b, c, d, e⟩ := (hm _).1 h
    simp only [Micro.wpxu.injEq] at e
    obtain ⟨e1, e2, rfl⟩ := e
    exact ⟨by omega, by congr 1 <;> omega⟩
  · intro px py _ _ ⟨h3, h4, h5, h6⟩
    exact ⟨_, (hm _).2 ⟨px - x, py - y, by omega, by omega, by omega, by omega, by
      simp only [Micro.wpxu.injEq]; exact ⟨by omega, by omega, rfl⟩⟩⟩

/-- The pixel writes of FRECT (40_pixel_writer.md R115). -/
theorem mem_frectMicro {w h : Nat} {x0 y0 x1 y1 x y : Int} {c c' : Colour} :
    Micro.wpxu x y c' ∈ frectMicro w h x0 y0 x1 y1 c ↔
      x0 ≤ x ∧ x < x1 ∧ x < w ∧ y0 ≤ y ∧ y < y1 ∧ y < h ∧ c' = c := by
  simp only [frectMicro, List.mem_flatMap, List.mem_map, mem_irange, Micro.wpxu.injEq]
  constructor
  · rintro ⟨y', hy, x', hx, rfl, rfl, rfl⟩
    exact ⟨by omega, by omega, by omega, by omega, by omega, by omega, rfl⟩
  · rintro ⟨a, b, c, d, e, f, rfl⟩; exact ⟨y, by omega, x, by omega, rfl, rfl, rfl⟩

/-- FRECT is pixel writes alone. -/
theorem eq_wpxu_of_mem_frectMicro {w h : Nat} {x0 y0 x1 y1 : Int} {c : Colour} {m : Micro}
    (hm : m ∈ frectMicro w h x0 y0 x1 y1 c) : ∃ x y, m = .wpxu x y c := by
  simp only [frectMicro, List.mem_flatMap, List.mem_map] at hm
  obtain ⟨y, _, x, _, rfl⟩ := hm
  exact ⟨x, y, rfl⟩

/-- What a well-formed font is (10_state.md R30, R31). -/
theorem fontWf_bounds {f : Font} (h : fontWf f = true) :
    f.height < 2 ^ 16 ∧ f.topSkip < 2 ^ 16 ∧ f.bottomSkip < 2 ^ 16 ∧ f.spacing < 2 ^ 16 ∧
      f.topSkip + f.bottomSkip ≤ f.height ∧ coverageCount f.coverage = some f.desc.length ∧ f.desc.length ≤ 65536 ∧
      ∀ d ∈ f.desc, d.width < 2 ^ 16 ∧ d.offset < 2 ^ 32 ∧ d.offset + evenUp d.width * f.height / 2 ≤ f.blob.length := by
  simp only [fontWf, descWf, Bool.and_eq_true, decide_eq_true_eq, List.all_eq_true] at h
  obtain ⟨⟨⟨⟨⟨⟨⟨h1, h2⟩, h3⟩, h4⟩, h5⟩, h6⟩, h7⟩, h8⟩ := h
  exact ⟨h1, h2, h3, h4, h5, h6, h7, fun d hd => ⟨(h8 d hd).1.1, (h8 d hd).1.2, (h8 d hd).2⟩⟩

theorem le_foldr_max (l : List Nat) : ∀ a ∈ l, a ≤ l.foldr max 0 := by
  induction l with
  | nil => simp
  | cons a l ih =>
    simp only [List.foldr_cons, List.mem_cons, forall_eq_or_imp]
    exact ⟨Nat.le_max_left .., fun b hb => Nat.le_trans (ih b hb) (Nat.le_max_right ..)⟩

/-- A digit glyph's bitmap fits in the width of a monospaced font (41_glyph_decoder.md R141). -/
theorem width_le_maxDigitWidth {f : Font} {g : Nat} {d : GlyphDesc} (hd : f.desc[g]? = some d)
    (hg : isDigitGlyph f g = true) : d.width ≤ maxDigitWidth f := by
  apply le_foldr_max
  rw [List.mem_mapIdx]
  obtain ⟨hl, rfl⟩ := List.getElem?_eq_some_iff.1 hd
  exact ⟨g, hl, by simp [hg]⟩

/-- A glyph of the glyph table and its descriptor (41_glyph_decoder.md R140, R141). -/
theorem glyphTable_get {e : FontEntry} {g : Nat} {G : Glyph} (h : (glyphTable e)[g]? = some G) :
    ∃ d, e.font.desc[g]? = some d ∧ G.bitmapWidth = d.width ∧ G.height = drawnHeight e.font ∧
      G.topSkip = e.font.topSkip ∧ G.base = d.offset ∧ G.bitmapWidth ≤ G.width ∧
      G.widthWithSpacing = G.width + e.font.spacing := by
  simp only [glyphTable, List.getElem?_mapIdx] at h
  cases hd : e.font.desc[g]? with
  | none => simp [hd] at h
  | some d =>
    simp only [hd, Option.map_some, Option.some.injEq] at h
    refine ⟨d, rfl, ?_⟩
    subst h
    by_cases hm : (e.mono && isDigitGlyph e.font g) = true
    · simp only [secondPass, hm, if_true, firstPass]
      rw [Bool.and_eq_true] at hm
      exact ⟨trivial, trivial, trivial, trivial, width_le_maxDigitWidth hd hm.2, trivial⟩
    · simp only [secondPass, if_neg hm, firstPass]
      exact ⟨trivial, trivial, trivial, trivial, Nat.le_refl _, trivial⟩

/-- Every nibble GINT reads of a well-formed font is in the blob (41_glyph_decoder.md R143; 10_state.md R31). -/
theorem gint_isSome {e : FontEntry} {g : Nat} {G : Glyph} (hf : fontWf e.font = true)
    (h : (glyphTable e)[g]? = some G) (x y : Int) : ∃ v, gint e.font.blob G x y = some v := by
  obtain ⟨d, hd, h1, h2, h3, h4, _, _⟩ := glyphTable_get h
  have hdw := (fontWf_bounds hf).2.2.2.2.2.2.2 d (List.mem_of_getElem? hd)
  simp only [gint]
  split
  · exact ⟨_, rfl⟩
  · split
    · exact ⟨_, rfl⟩
    · next hy hx =>
      generalize x - ((G.width : Int) - G.bitmapWidth) / 2 = bx at *
      obtain ⟨row, rfl⟩ := Int.eq_ofNat_of_zero_le (show 0 ≤ y by omega)
      obtain ⟨b, rfl⟩ := Int.eq_ofNat_of_zero_le (show 0 ≤ bx by omega)
      have hrow : row + G.topSkip < e.font.height := by rw [h2, drawnHeight] at hy; rw [h3]; omega
      have hb : b < evenUp G.bitmapWidth := by have := evenUp_ge G.bitmapWidth; omega
      have eo : (((row : Int) + G.topSkip) * (evenUp G.bitmapWidth : Nat) + (b : Int)).toNat =
          (row + G.topSkip) * evenUp G.bitmapWidth + b := by norm_cast
      rw [eo]
      obtain ⟨v, hv⟩ : ∃ v, evenUp G.bitmapWidth = 2 * v :=
        ⟨evenUp G.bitmapWidth / 2, by have := evenUp_even G.bitmapWidth; omega⟩
      obtain ⟨k, hk⟩ : ∃ k, e.font.height = row + G.topSkip + 1 + k := ⟨e.font.height - (row + G.topSkip + 1), by omega⟩
      have e1 : (row + G.topSkip) * (2 * v) = 2 * ((row + G.topSkip) * v) := by ring
      have e2 : 2 * v * (row + G.topSkip + 1 + k) / 2 = (row + G.topSkip) * v + v + k * v := by
        rw [show 2 * v * (row + G.topSkip + 1 + k) = 2 * ((row + G.topSkip) * v + v + k * v) by ring]; omega
      have hlt : G.base + ((row + G.topSkip) * evenUp G.bitmapWidth + b) / 2 < e.font.blob.length := by
        rw [← h1, ← h4, hv, hk, e2] at hdw
        rw [hv, e1]; rw [hv] at hb; omega
      rw [List.getElem?_eq_getElem hlt]
      exact ⟨_, rfl⟩

/-- One unit call of DGLYPH on a well-formed font. -/
theorem glyphPixelMicro_eq {e : FontEntry} {g : Nat} {G : Glyph} (hf : fontWf e.font = true)
    (h : (glyphTable e)[g]? = some G) (x y : Int) (wob : Bool) (gx gy : Int) :
    glyphPixelMicro e.font.blob G x y wob gx gy =
      .wpxu (x + gx) (y + gy) (gray12 (inkOf wob ((gint e.font.blob G gx gy).getD 0))) := by
  obtain ⟨v, hv⟩ := gint_isSome hf h gx gy
  simp [glyphPixelMicro, hv]

/-- The unit calls of DGLYPH on a well-formed font (41_glyph_decoder.md R145). -/
theorem mem_glyphMicro {e : FontEntry} {g : Nat} {G : Glyph} (hf : fontWf e.font = true)
    (h : (glyphTable e)[g]? = some G) {x y : Int} {wob sp : Bool} {m : Micro} :
    m ∈ glyphMicro e g x y wob sp ↔ ∃ gx gy : Int, 0 ≤ gx ∧ gx < drawnWidth G sp ∧ 0 ≤ gy ∧ gy < G.height ∧
      m = .wpxu (x + gx) (y + gy) (gray12 (inkOf wob ((gint e.font.blob G gx gy).getD 0))) := by
  simp only [glyphMicro, h, List.mem_flatMap, List.mem_map, mem_irange, glyphPixelMicro_eq hf h]
  constructor
  · rintro ⟨gy, ⟨a, b⟩, gx, ⟨c, d⟩, rfl⟩; exact ⟨gx, gy, c, d, a, b, rfl⟩
  · rintro ⟨gx, gy, c, d, a, b, rfl⟩; exact ⟨gy, ⟨a, b⟩, gx, ⟨c, d⟩, rfl⟩

/-- A glyph a font covers is in its glyph table, at an index of 16 bits (41_glyph_decoder.md R142; 10_state.md
R31). -/
theorem look_get {e : FontEntry} (hf : fontWf e.font = true) {cp : CodePoint} {g : Nat}
    (h : look e.font.coverage cp = some g) : g < 65536 ∧ ∃ G, (glyphTable e)[g]? = some G := by
  have hw := fontWf_bounds hf
  have hlt : g < e.font.desc.length := by
    have hc := hw.2.2.2.2.2.1
    cases hcov : e.font.coverage with
    | list cps =>
      rw [hcov] at h hc
      simp only [look, List.findIdx?_eq_some_iff_getElem] at h
      obtain ⟨hl, _⟩ := h
      simp only [coverageCount, Option.some.injEq] at hc
      omega
    | range first last =>
      rw [hcov] at h hc
      simp only [look] at h
      simp only [coverageCount] at hc
      split at h
      · split at hc
        · simp only [Option.some.injEq] at h hc; omega
        · cases hc
      · cases h
  exact ⟨by omega, _, List.getElem?_eq_getElem (by simpa [glyphTable] using hlt)⟩

/-- Every byte the blit reads of a well-formed image is in the image (43_layout_and_blit.md R206; 10_state.md R35). -/
theorem imageColour_eq {m : Image} (hm : imageWf m = true) {ix iy : Nat} (hx : ix < m.width) (hy : iy < m.height) :
    imageColour m ix iy = some
      (let o := (iy * evenUp m.width + ix) * (if m.alpha then 4 else 3)
      rgb (hiNib (m.bytes[o + 2]?.getD 0)) (hiNib (m.bytes[o + 1]?.getD 0)) (hiNib (m.bytes[o]?.getD 0))) := by
  simp only [imageWf, Bool.and_eq_true, decide_eq_true_eq] at hm
  have hw : ix < evenUp m.width := by have := evenUp_ge m.width; omega
  obtain ⟨k, hk⟩ : ∃ k, m.height = iy + 1 + k := ⟨m.height - (iy + 1), by omega⟩
  obtain ⟨l, hl⟩ : ∃ l, evenUp m.width = ix + 1 + l := ⟨evenUp m.width - (ix + 1), by omega⟩
  have e1 : evenUp m.width * m.height = (iy * evenUp m.width + ix) + 1 + l + evenUp m.width * k := by
    rw [hk]; nth_rewrite 1 [show evenUp m.width * (iy + 1 + k) = iy * evenUp m.width + evenUp m.width + evenUp m.width * k by ring]
    omega
  have hb : (iy * evenUp m.width + ix) * bytesPerPixel m + bytesPerPixel m ≤ m.bytes.length := by
    refine Nat.le_trans ?_ hm.2
    rw [e1, ← Nat.succ_mul]
    exact Nat.mul_le_mul_right _ (by omega)
  have h3 : 3 ≤ bytesPerPixel m := by unfold bytesPerPixel; split <;> omega
  have g (j : Nat) (hj : j < 3) : m.bytes[(iy * evenUp m.width + ix) * bytesPerPixel m + j]? =
      some (m.bytes[(iy * evenUp m.width + ix) * bytesPerPixel m + j]?.getD 0) := by
    rw [List.getElem?_eq_getElem (by omega)]; rfl
  have g0 := g 0 (by omega)
  simp only [Nat.add_zero] at g0
  simp only [imageColour, imageOffset]
  rw [g0, g 1 (by omega), g 2 (by omega)]
  rfl

end Sys2Proof.Machine
end

