-- ==== Sys2Proof/Laws/Exec.lean ====
section
/-!
SUPPORT. Everything a command can do, said once for all twelve: it ends in a next state, and that state is the old
one with FB changed, or that with a fault taken, or the old one with RES written (10_state.md R20; 60_exceptions.md
R238; 70_reset_and_hazards.md R268).
-/

namespace Sys2Proof.Machine

variable {s t : State}

/-- What a command leaves: `fb` a memory that is canonical if the old one was. -/
inductive ExecShape (s : State) : State → Prop where
  | fb (m : List Host.Cell)
      (hm : s.cfg.w % 2 = 0 → Memory.wf s.fbBytes s.fb = true → Memory.wf s.fbBytes m = true) : ExecShape s { s with fb := m }
  | fault (m : List Host.Cell) (f : BlockFault)
      (hm : s.cfg.w % 2 = 0 → Memory.wf s.fbBytes s.fb = true → Memory.wf s.fbBytes m = true) :
      ExecShape s (State.raise { s with fb := m } f)
  | res (v : BitVec 32) : ExecShape s (s.setRes v)

theorem ExecShape.refl (s : State) : ExecShape s s := .fb s.fb fun _ h => h

theorem ExecShape.raise (s : State) (f : BlockFault) : ExecShape s (s.raise f) := .fault s.fb f fun _ h => h

theorem runMicro_shape (ms : List Micro) (s : State) : ExecShape s (runMicro ms s) := by
  have hm := fun hw h => memory_wf_runMicro ms (s := s) hw h
  obtain ⟨m, h | ⟨f, h⟩⟩ := runMicro_cases ms s <;> rw [h] at hm ⊢
  · exact .fb m hm
  · exact .fault m f hm

theorem fillAll_shape (c : Colour) (s : State) : ExecShape s (s.fillAll c) := by
  refine .fb _ fun hw h => memory_wf_fillAll c h ?_
  obtain ⟨v, hv⟩ : ∃ v, s.cfg.w = 2 * v := ⟨s.cfg.w / 2, by omega⟩
  have e : s.cfg.w * s.cfg.h = 2 * (v * s.cfg.h) := by rw [hv]; ring
  simp only [State.fbBytes, fbBytesOf, e]
  omega

/-- Every command ends in a next state of that shape. -/
theorem exec_shape (i : Instr) (s : State) : ∃ t, exec i s = .next t ∧ ExecShape s t := by
  cases i with
  | wpxu x y c => exact ⟨_, rfl, runMicro_shape _ s⟩
  | wpx x y c => exact ⟨_, rfl, by split; exacts [.refl s, runMicro_shape _ s]⟩
  | rpx x y => exact ⟨_, rfl, by split; exacts [.res _, .raise s _]⟩
  | fill c => exact ⟨_, rfl, fillAll_shape c s⟩
  | frect x0 y0 x1 y1 c => exact ⟨_, rfl, runMicro_shape _ s⟩
  | lookup font cp => exact ⟨_, rfl, by split; exacts [.raise s _, .res _]⟩
  | gpix font glyph gx gy =>
    exact ⟨_, rfl, by
      split
      · exact .raise s _
      · split
        · exact .raise s _
        · split
          · exact .raise s _
          · exact .res _⟩
  | dglyph font glyph x y wob sp =>
    exact ⟨_, rfl, by split; exacts [.raise s _, runMicro_shape _ s]⟩
  | rrect x0 y0 x1 y1 wob rl rr radius => exact ⟨_, rfl, by split; exacts [runMicro_shape _ s, .raise s _]⟩
  | dstr toff tlen x0 y0 x1 font wob clear align =>
    exact ⟨_, rfl, by
      split
      · exact .raise s _
      · split
        · exact .raise s _
        · split
          · exact .refl s
          · split
            · exact .raise s _
            · exact runMicro_shape _ s⟩
  | dimg image x y => exact ⟨_, rfl, by split; exacts [.raise s _, runMicro_shape _ s]⟩
  | dimgc image cx cy => exact ⟨_, rfl, by split; exacts [.raise s _, runMicro_shape _ s]⟩

/-- What a command that gives a next state leaves. -/
theorem exec_cases {i : Instr} (h : exec i s = .next t) : ExecShape s t := by
  obtain ⟨u, hu, hs⟩ := exec_shape i s
  rw [hu] at h; cases h; exact hs

end Sys2Proof.Machine
end

