-- ==== Sys2Proof/Laws/Layout.lean ====
section
/-!
SUPPORT. The unit calls of DSTR and DIMG: which pixels they write, which glyph of a text a column shows, and what
running one list of calls after another does when the first may fault (43_layout_and_blit.md R201 to R208).
-/

namespace Sys2Proof.Machine

variable {s : State}

@[simp] theorem raise_faulted (s : State) (f : BlockFault) : statusFault (s.raise f).status = true := by
  cases f <;> simp [statusOfFault, faultCode, statusFault]

/-- Calls after calls: the first fault ends both (60_exceptions.md R237). -/
theorem runMicro_append_fault (ms ns : List Micro) : ∀ {s : State}, statusFault s.status = false →
    runMicro (ms ++ ns) s =
      if statusFault (runMicro ms s).status = true then runMicro ms s else runMicro ns (runMicro ms s) := by
  induction ms with
  | nil => intro s h; simp [runMicro, h]
  | cons m ms ih =>
    intro s h
    cases m with
    | raise f =>
      have e1 : runMicro (.raise f :: ms ++ ns) s = s.raise f := rfl
      have e2 : runMicro (.raise f :: ms) s = s.raise f := rfl
      rw [e1, e2, if_pos (raise_faulted s f)]
    | wpxu x y c =>
      by_cases hb : s.inBounds x y = true
      · have e1 : runMicro (.wpxu x y c :: ms ++ ns) s = runMicro (ms ++ ns) (s.setPixel (s.linear x y) c) := by
          simp [runMicro, hb]
        have e2 : runMicro (.wpxu x y c :: ms) s = runMicro ms (s.setPixel (s.linear x y) c) := by simp [runMicro, hb]
        rw [e1, e2]
        exact ih (s := s.setPixel _ _) h
      · have e1 : runMicro (.wpxu x y c :: ms ++ ns) s = s.raise (.oob x y) := by simp [runMicro, hb]
        have e2 : runMicro (.wpxu x y c :: ms) s = s.raise (.oob x y) := by simp [runMicro, hb]
        rw [e1, e2, if_pos (raise_faulted s _)]

/-- The width of a text that is not empty (43_layout_and_blit.md R201). -/
theorem textWidth_nonneg (e : FontEntry) {text : List CodePoint} (h : text ≠ []) : 0 ≤ textWidth e text := by
  have h1 : 1 ≤ text.length := List.length_pos_iff.2 h
  simp only [textWidth]
  have : 0 ≤ (text.length : Int) - 1 := by omega
  positivity

/-- The pixel writes of the side fills (43_layout_and_blit.md R203). -/
theorem mem_sidesMicro {w h : Nat} {e : FontEntry} {x0 y0 x1 start stop x y : Int} {wob : Bool} {c : Colour} :
    Micro.wpxu x y c ∈ sidesMicro w h e x0 y0 x1 start stop wob ↔
      ((x0 ≤ x ∧ x < start) ∨ (stop ≤ x ∧ x < x1)) ∧ x < w ∧ y0 ≤ y ∧ y < y0 + drawnHeight e.font ∧ y < h ∧
        c = bgColour wob := by
  simp only [sidesMicro, List.mem_append, mem_frectMicro]
  tauto

/-- The first character of a text (43_layout_and_blit.md R204). -/
theorem charCovers_zero {e : FontEntry} {cp : CodePoint} {rest : List CodePoint} {start x : Int} {G : Glyph} :
    charCovers e (cp :: rest) start 0 G x ↔
      ∃ g, look e.font.coverage cp = some g ∧ (glyphTable e)[g]? = some G ∧ start ≤ x ∧
        x < start + drawnWidth G (!rest.isEmpty) := by
  have : decide (0 + 1 < (cp :: rest).length) = !rest.isEmpty := by cases rest <;> simp
  simp only [charCovers, charColumn, this]
  simp

/-- The columns of the characters after the first (43_layout_and_blit.md R204). -/
theorem charColumn_succ (e : FontEntry) (cp a : CodePoint) (l : List CodePoint) (start : Int) (k : Nat) :
    charColumn e (cp :: a :: l) start (k + 1) = charColumn e (a :: l) (start + charWidth e cp + e.font.spacing) k := by
  simp only [charColumn, List.take_succ_cons, List.map_cons, List.sum_cons]; push_cast; ring

/-- The characters after the first (43_layout_and_blit.md R204). -/
theorem charCovers_succ {e : FontEntry} {cp : CodePoint} {rest : List CodePoint} {start x : Int} {k : Nat} {G : Glyph} :
    charCovers e (cp :: rest) start (k + 1) G x ↔
      charCovers e rest (start + charWidth e cp + ((if rest.isEmpty then 0 else e.font.spacing : Nat) : Int)) k G x := by
  cases rest with
  | nil => simp [charCovers]
  | cons a l =>
    have e2 : decide (k + 1 + 1 < (cp :: a :: l).length) = decide (k + 1 < (a :: l).length) := by simp
    simp only [charCovers, charColumn_succ, e2, List.getElem?_cons_succ, List.isEmpty_cons]
    rfl

/-- The glyphs of a text are pixel writes alone, each of a column some character covers, in the rows a glyph draws. -/
theorem mem_textMicro {e : FontEntry} (hf : fontWf e.font = true) (y0 : Int) (wob : Bool) :
    ∀ (text : List CodePoint) (start : Int) (m : Micro), m ∈ textMicro e y0 wob start text →
      ∃ k G x y, charCovers e text start k G x ∧ y0 ≤ y ∧ y < y0 + drawnHeight e.font ∧ ∃ c, m = .wpxu x y c := by
  intro text
  induction text with
  | nil => intro start m hm; simp [textMicro] at hm
  | cons cp rest ih =>
    intro start m hm
    simp only [textMicro, List.mem_append] at hm
    rcases hm with hm | hm
    · cases hl : look e.font.coverage cp with
      | none => simp [hl] at hm
      | some g =>
        rw [hl] at hm
        obtain ⟨_, G, hG⟩ := look_get hf hl
        obtain ⟨gx, gy, a, b, c, d, rfl⟩ := (mem_glyphMicro hf hG).1 hm
        obtain ⟨_, _, _, hh, _⟩ := glyphTable_get hG
        exact ⟨0, G, _, _, charCovers_zero.2 ⟨g, hl, hG, by omega, by omega⟩, by omega, by omega, _, rfl⟩
    · obtain ⟨k, G, x, y, h1, h2⟩ := ih _ m hm
      exact ⟨k + 1, G, x, y, charCovers_succ.2 h1, h2⟩

/-- What the glyphs of a text leave at a pixel of their rows: nothing where no character covers the column, else the
pixel of the last character that does. -/
theorem lastWrite_textMicro {e : FontEntry} (hf : fontWf e.font = true) (y0 : Int) (wob : Bool) (x y : Nat)
    (hy : y0 ≤ y) (hy' : (y : Int) < y0 + drawnHeight e.font) :
    ∀ (text : List CodePoint) (start : Int),
      ((∀ k G, ¬ charCovers e text start k G x) → lastWrite (textMicro e y0 wob start text) x y = none) ∧
      ∀ k G, charCovers e text start k G x → (∀ k' G', k < k' → ¬ charCovers e text start k' G' x) →
        lastWrite (textMicro e y0 wob start text) x y =
          some (gray12 (inkOf wob ((gint e.font.blob G (x - charColumn e text start k) (y - y0)).getD 0))) := by
  intro text
  induction text with
  | nil => intro start; exact ⟨fun _ => rfl, fun k G h => by simp [charCovers] at h⟩
  | cons cp rest ih =>
    intro start
    simp only [textMicro, lastWrite_append]
    obtain ⟨i1, i2⟩ := ih (start + charWidth e cp + ((if rest.isEmpty then 0 else e.font.spacing : Nat) : Int))
    refine ⟨fun h => ?_, fun k G h hl => ?_⟩
    · rw [i1 fun k G hc => h (k + 1) G (charCovers_succ.2 hc), Option.none_or]
      refine lastWrite_none fun c hc => ?_
      cases hl : look e.font.coverage cp with
      | none => simp [hl] at hc
      | some g =>
        rw [hl] at hc
        obtain ⟨_, G, hG⟩ := look_get hf hl
        obtain ⟨gx, gy, a, b, c', d, hm⟩ := (mem_glyphMicro hf hG).1 hc
        simp only [Micro.wpxu.injEq] at hm
        exact h 0 G (charCovers_zero.2 ⟨g, hl, hG, by omega, by omega⟩)
    · cases k with
      | zero =>
        rw [i1 fun k G' hc => hl (k + 1) G' (by omega) (charCovers_succ.2 hc), Option.none_or]
        obtain ⟨g, h1, h2, h3, h4⟩ := charCovers_zero.1 h
        rw [h1]
        simp only
        obtain ⟨_, _, _, hh, _⟩ := glyphTable_get h2
        have hm := (mem_glyphMicro hf h2 (x := start) (y := y0) (wob := wob) (sp := !rest.isEmpty)).2
          ⟨x - start, y - y0, by omega, by omega, by omega, by omega, rfl⟩
        rw [show start + ((x : Int) - start) = x by omega, show y0 + ((y : Int) - y0) = y by omega] at hm
        refine lastWrite_eq hm fun c hc => ?_
        obtain ⟨gx, gy, a, b, c', d, hm'⟩ := (mem_glyphMicro hf h2).1 hc
        simp only [Micro.wpxu.injEq] at hm'
        obtain ⟨q1, q2, rfl⟩ := hm'
        simp only [charColumn, List.take_zero, List.map_nil, List.sum_nil]
        rw [show gx = (x : Int) - (start + ((0 : Nat) : Int) + (e.font.spacing : Int) * ((0 : Nat) : Int)) by simp; omega,
          show gy = (y : Int) - y0 by omega]
      | succ k =>
        have hc := charCovers_succ.1 h
        rw [i2 k G hc fun k' G' hk hc' => hl (k' + 1) G' (by omega) (charCovers_succ.2 hc'), Option.some_or]
        cases rest with
        | nil => simp [charCovers] at hc
        | cons a l => simp only [charColumn_succ]; rfl

/-- One unit call of the blit of a well-formed image (43_layout_and_blit.md R206, R207). -/
theorem imagePixelMicro_eq {m : Image} (hm : imageWf m = true) (x y : Int) {ix iy : Nat} (hy : iy < m.height) :
    imagePixelMicro m x y ix iy = .wpxu (x + ix) (y + iy)
      (let o := (iy * evenUp m.width + ix) * (if m.alpha then 4 else 3)
      if ix < m.width then
        rgb (hiNib (m.bytes[o + 2]?.getD 0)) (hiNib (m.bytes[o + 1]?.getD 0)) (hiNib (m.bytes[o]?.getD 0))
      else black) := by
  simp only [imagePixelMicro]
  by_cases h : ix < m.width
  · simp only [if_pos h, imageColour_eq hm h hy]
  · simp only [if_neg h]

/-- The blit as a picture drawn row by row (43_layout_and_blit.md R208). -/
theorem imageMicro_eq (m : Image) (x y : Int) :
    imageMicro m x y = (irange 0 m.height).flatMap fun gy =>
      (irange 0 (evenUp m.width)).map fun gx => imagePixelMicro m x y gx.toNat gy.toNat := by
  simp [imageMicro, irange, List.flatMap_map]; rfl

/-- A text of uncovered characters alone makes no unit call (43_layout_and_blit.md R204). -/
theorem textMicro_uncovered (e : FontEntry) (y0 : Int) (wob : Bool) :
    ∀ (text : List CodePoint) (start : Int), (∀ cp ∈ text, look e.font.coverage cp = none) →
      textMicro e y0 wob start text = [] := by
  intro text
  induction text with
  | nil => intro start _; rfl
  | cons cp rest ih =>
    intro start h
    simp only [List.mem_cons, forall_eq_or_imp] at h
    simp [textMicro, h.1, ih _ h.2]

/-- The width of a text of uncovered characters alone (43_layout_and_blit.md R201). -/
theorem textWidth_uncovered (e : FontEntry) {text : List CodePoint}
    (h : ∀ cp ∈ text, look e.font.coverage cp = none) :
    textWidth e text = (e.font.spacing : Int) * ((text.length : Int) - 1) := by
  have : (text.map (charWidth e)).sum = 0 := by
    rw [List.sum_eq_zero_iff]
    intro n hn
    obtain ⟨cp, hcp, rfl⟩ := List.mem_map.1 hn
    simp [charWidth, h cp hcp]
  simp [textWidth, this]

/-- The unit calls of the blit of a well-formed image (43_layout_and_blit.md R208). -/
theorem mem_imageMicro {m : Image} (hm : imageWf m = true) {x y : Int} {k : Micro} :
    k ∈ imageMicro m x y ↔ ∃ ix iy : Nat, ix < evenUp m.width ∧ iy < m.height ∧ k = .wpxu (x + ix) (y + iy)
      (let o := (iy * evenUp m.width + ix) * (if m.alpha then 4 else 3)
      if ix < m.width then
        rgb (hiNib (m.bytes[o + 2]?.getD 0)) (hiNib (m.bytes[o + 1]?.getD 0)) (hiNib (m.bytes[o]?.getD 0))
      else black) := by
  simp only [imageMicro, List.mem_flatMap, List.mem_map, List.mem_range'_1]
  constructor
  · rintro ⟨iy, h1, ix, h2, rfl⟩; exact ⟨ix, iy, by omega, by omega, imagePixelMicro_eq hm x y (by omega)⟩
  · rintro ⟨ix, iy, h1, h2, rfl⟩; exact ⟨iy, by omega, ix, by omega, imagePixelMicro_eq hm x y (by omega)⟩

end Sys2Proof.Machine
end

