-- ==== Sys2Proof/Laws/Record.lean ====
section
/-!
SUPPORT. Records and their fields (30_encoding.md R81): reading the fields back from the record they make, and a
record from its fields; what the decoder answers, said once.
-/

namespace Sys2Proof

/-- Bits below the seam of a concatenation. -/
theorem extract_append_low {w v : Nat} (a : BitVec w) (b : BitVec v) {s n : Nat} (h : s + n ≤ v) :
    (a ++ b).extractLsb' s n = b.extractLsb' s n := by
  apply BitVec.eq_of_getLsbD_eq
  intro i hi
  simp [BitVec.getLsbD_extractLsb', BitVec.getLsbD_append, show s + i < v by omega]

/-- Bits from the seam of a concatenation on. -/
theorem extract_append_high {w v : Nat} (a : BitVec w) (b : BitVec v) {s n : Nat} (h : v ≤ s) :
    (a ++ b).extractLsb' s n = a.extractLsb' (s - v) n := by
  apply BitVec.eq_of_getLsbD_eq
  intro i hi
  simp [BitVec.getLsbD_extractLsb', BitVec.getLsbD_append, show ¬ s + i < v by omega,
    show s + i - v = s - v + i by omega]

theorem extract_all {w : Nat} (a : BitVec w) : a.extractLsb' 0 w = a := by
  apply BitVec.eq_of_getLsbD_eq
  intro i hi
  simp [hi]

/-- A field of a record, and so each bit of it, is a function of the record. -/
theorem getLsbD_eq_of_extract {w : Nat} {r q : BitVec w} {s n i : Nat} (h : r.extractLsb' s n = q.extractLsb' s n)
    (h1 : s ≤ i) (h2 : i < s + n) : r.getLsbD i = q.getLsbD i := by
  have := congrArg (fun v => v.getLsbD (i - s)) h
  simpa [BitVec.getLsbD_extractLsb', show i - s < n by omega, show s + (i - s) = i by omega] using this

/-- Two records with the same fields are the same record (30_encoding.md R81). -/
theorem record_ext {r q : Record} (h : Fields.ofRecord r = Fields.ofRecord q) : r = q := by
  simp only [Fields.ofRecord, Fields.mk.injEq] at h
  obtain ⟨h1, h2, h3, h4, h5, h6, h7, h8, h9, h10⟩ := h
  apply BitVec.eq_of_getLsbD_eq
  intro i hi
  by_cases c1 : i < 8; · exact getLsbD_eq_of_extract h1 (by omega) (by omega)
  by_cases c2 : i < 16; · exact getLsbD_eq_of_extract h2 (by omega) (by omega)
  by_cases c3 : i < 32; · exact getLsbD_eq_of_extract h3 (by omega) (by omega)
  by_cases c4 : i < 48; · exact getLsbD_eq_of_extract h4 (by omega) (by omega)
  by_cases c5 : i < 64; · exact getLsbD_eq_of_extract h5 (by omega) (by omega)
  by_cases c6 : i < 80; · exact getLsbD_eq_of_extract h6 (by omega) (by omega)
  by_cases c7 : i < 92; · exact getLsbD_eq_of_extract h7 (by omega) (by omega)
  by_cases c8 : i < 96; · exact getLsbD_eq_of_extract h8 (by omega) (by omega)
  by_cases c9 : i < 112; · exact getLsbD_eq_of_extract h9 (by omega) (by omega)
  exact getLsbD_eq_of_extract h10 (by omega) (by omega)

/-- The fields of the record made of some fields are those fields (30_encoding.md R81). -/
theorem ofRecord_toRecord (x : Fields) : Fields.ofRecord x.toRecord = x := by
  have hr : x.toRecord = (x.f ++ x.e ++ x.z ++ x.col ++ x.d ++ x.c ++ x.b ++ x.a ++ x.flg ++ x.opc :
      BitVec (16 + 16 + 4 + 12 + 16 + 16 + 16 + 16 + 8 + 8)) := rfl
  have h1 : x.toRecord.extractLsb' 0 8 = x.opc := by
    rw [hr, extract_append_low _ _ (by decide), extract_all]
  have h2 : x.toRecord.extractLsb' 8 8 = x.flg := by
    rw [hr, extract_append_high _ _ (by decide), extract_append_low _ _ (by decide)]; exact extract_all _
  have h3 : x.toRecord.extractLsb' 16 16 = x.a := by
    rw [hr]; iterate 2 rw [extract_append_high _ _ (by decide)]
    rw [extract_append_low _ _ (by decide)]; exact extract_all _
  have h4 : x.toRecord.extractLsb' 32 16 = x.b := by
    rw [hr]; iterate 3 rw [extract_append_high _ _ (by decide)]
    rw [extract_append_low _ _ (by decide)]; exact extract_all _
  have h5 : x.toRecord.extractLsb' 48 16 = x.c := by
    rw [hr]; iterate 4 rw [extract_append_high _ _ (by decide)]
    rw [extract_append_low _ _ (by decide)]; exact extract_all _
  have h6 : x.toRecord.extractLsb' 64 16 = x.d := by
    rw [hr]; iterate 5 rw [extract_append_high _ _ (by decide)]
    rw [extract_append_low _ _ (by decide)]; exact extract_all _
  have h7 : x.toRecord.extractLsb' 80 12 = x.col := by
    rw [hr]; iterate 6 rw [extract_append_high _ _ (by decide)]
    rw [extract_append_low _ _ (by decide)]; exact extract_all _
  have h8 : x.toRecord.extractLsb' 92 4 = x.z := by
    rw [hr]; iterate 7 rw [extract_append_high _ _ (by decide)]
    rw [extract_append_low _ _ (by decide)]; exact extract_all _
  have h9 : x.toRecord.extractLsb' 96 16 = x.e := by
    rw [hr]; iterate 8 rw [extract_append_high _ _ (by decide)]
    rw [extract_append_low _ _ (by decide)]; exact extract_all _
  have h10 : x.toRecord.extractLsb' 112 16 = x.f := by
    rw [hr]; iterate 9 rw [extract_append_high _ _ (by decide)]
    exact extract_all _
  simp only [Fields.ofRecord, h1, h2, h3, h4, h5, h6, h7, h8, h9, h10]

/-- The record made of the fields of a record is that record (30_encoding.md R81). -/
theorem toRecord_ofRecord (r : Record) : (Fields.ofRecord r).toRecord = r :=
  record_ext (ofRecord_toRecord _)

theorem opcode_ofByte_code (op : Opcode) : Opcode.ofByte op.code = some op := by cases op <;> decide

/-- A conditional taken apart. -/
theorem if_pos_or_neg {α : Type} {c : Prop} [Decidable c] {a b r : α} {p : Prop} (h : (if c then a else b) = r)
    (hp : c → a = r → p) (hn : ¬ c → b = r → p) : p := by
  by_cases hc : c
  · rw [if_pos hc] at h; exact hp hc h
  · rw [if_neg hc] at h; exact hn hc h

/-- The byte an opcode is read from is its code (30_encoding.md R84). -/
theorem code_of_ofByte {b : BitVec 8} {op : Opcode} (h : Opcode.ofByte b = some op) : op.code = b := by
  unfold Opcode.ofByte at h
  iterate 12
    refine if_pos_or_neg h ?_ ?_
    · rintro hb e; cases e; exact hb.symm
    clear h; intro _ h
  cases h

/-- Everything the decoder of fields can answer. -/
theorem decodeFields_ok {x : Fields} {i : Instr} :
    decodeFields x = .ok i ↔ ∃ op : Opcode, x.opc = op.code ∧ op.illegal? x = none ∧ i = op.build x := by
  unfold decodeFields
  constructor
  · intro h
    split at h
    · cases h
    · next op hop =>
      split at h
      · cases h
      · next hl => cases h; exact ⟨op, (code_of_ofByte hop).symm, hl, rfl⟩
  · rintro ⟨op, h1, h2, rfl⟩
    rw [h1, opcode_ofByte_code]; simp only [h2]

/-- When fields are legal under an opcode (30_encoding.md R86). -/
theorem illegal?_none {op : Opcode} {x : Fields} :
    op.illegal? x = none ↔ x.z = 0 ∧ x.flg.extractLsb' 6 2 = 0 ∧ op.unusedFieldsZero x = true ∧
      op.unusedFlagsZero x = true ∧ ¬ (op = .dstr ∧ x.align = 3) := by
  unfold Opcode.illegal?
  constructor
  · intro h
    refine if_pos_or_neg h (fun _ e => nomatch e) fun h1 h => ?_
    refine if_pos_or_neg h (fun _ e => nomatch e) fun h2 h => ?_
    refine if_pos_or_neg h (fun _ e => nomatch e) fun h3 h => ?_
    refine if_pos_or_neg h (fun _ e => nomatch e) fun h4 h => ?_
    refine if_pos_or_neg h (fun _ e => nomatch e) fun h5 _ => ?_
    exact ⟨by simpa using h1, by simpa using h2, by simpa using h3, by simpa using h4, h5⟩
  · rintro ⟨h1, h2, h3, h4, h5⟩
    simpa [h1, h2, h3, h4] using h5

theorem opcode_build (op : Opcode) (x : Fields) : (op.build x).opcode = op := by cases op <;> rfl

/-- The subfields of `FLG` (30_encoding.md R82). -/
theorem flg_fields (align : BitVec 2) (rr rl sp wob : Bool) :
    (flgOf align rr rl sp wob).extractLsb' 6 2 = 0 ∧ (flgOf align rr rl sp wob).extractLsb' 4 2 = align ∧
      (flgOf align rr rl sp wob).getLsbD 0 = wob ∧ (flgOf align rr rl sp wob).getLsbD 1 = sp ∧
      (flgOf align rr rl sp wob).getLsbD 2 = rl ∧ (flgOf align rr rl sp wob).getLsbD 3 = rr := by
  revert align rr rl sp wob; decide

/-- Two neighbouring fields of a record are one field. -/
theorem extract_join (r : Record) (s w v : Nat) :
    r.extractLsb' (s + v) w ++ r.extractLsb' s v = r.extractLsb' s (w + v) := by
  apply BitVec.eq_of_getLsbD_eq
  intro i hi
  simp only [BitVec.getLsbD_append, BitVec.getLsbD_extractLsb']
  split
  · next h => simp [h, hi]
  · next h => simp [show i - v < w by omega, hi, show s + v + (i - v) = s + i by omega]

@[simp] theorem recordBytes_length (r : Record) : (recordBytes r).length = 16 := rfl

end Sys2Proof
end

