-- ==== Sys2Proof/Laws/PerInstr.lean ====
section
/-!
SUPPORT. The family EncLegal, one lemma per command: the fields of its record are legal, carry its opcode, and give
the command back (30_encoding.md R81, R82, R84, R86).
-/

namespace Sys2Proof.Laws.EncLegal

/-- The fields of a well-formed command's record. -/
def Statement (i : Instr) : Prop :=
  i.wf = true → (encodeFields i).opc = i.opcode.code ∧ i.opcode.illegal? (encodeFields i) = none ∧
    i.opcode.build (encodeFields i) = i

/-- A DGLYPH sets no flag it does not use. -/
theorem dglyph_flags (wob sp : Bool) :
    (flgOf 0 false false sp wob &&& ~~~Opcode.flagMask .dglyph &&& 0b00111111 == 0) = true := by
  revert wob sp; decide

/-- An RRECT sets no flag it does not use. -/
theorem rrect_flags (wob rl rr : Bool) :
    (flgOf 0 rr rl false wob &&& ~~~Opcode.flagMask .rrect &&& 0b00111111 == 0) = true := by
  revert wob rl rr; decide

/-- A DSTR sets no flag it does not use. -/
theorem dstr_flags (wob clear : Bool) (align : BitVec 2) :
    (flgOf align false false clear wob &&& ~~~Opcode.flagMask .dstr &&& 0b00111111 == 0) = true := by
  revert wob clear align; decide

theorem wpxu (x y : Coord) (c : Colour) : Statement (.wpxu x y c) := by
  intro _
  refine ⟨rfl, illegal?_none.2 ?_, rfl⟩
  simp [encodeFields, Instr.opcode, Fields.blank, Opcode.unusedFieldsZero, Opcode.unusedFlagsZero, Opcode.flagMask]

theorem wpx (x y : Coord) (c : Colour) : Statement (.wpx x y c) := by
  intro _
  refine ⟨rfl, illegal?_none.2 ?_, rfl⟩
  simp [encodeFields, Instr.opcode, Fields.blank, Opcode.unusedFieldsZero, Opcode.unusedFlagsZero, Opcode.flagMask]

theorem rpx (x y : Coord) : Statement (.rpx x y) := by
  intro _
  refine ⟨rfl, illegal?_none.2 ?_, rfl⟩
  simp [encodeFields, Instr.opcode, Fields.blank, Opcode.unusedFieldsZero, Opcode.unusedFlagsZero, Opcode.flagMask]

theorem fill (c : Colour) : Statement (.fill c) := by
  intro _
  refine ⟨rfl, illegal?_none.2 ?_, rfl⟩
  simp [encodeFields, Instr.opcode, Fields.blank, Opcode.unusedFieldsZero, Opcode.unusedFlagsZero, Opcode.flagMask]

theorem frect (x0 y0 x1 y1 : Coord) (c : Colour) : Statement (.frect x0 y0 x1 y1 c) := by
  intro _
  refine ⟨rfl, illegal?_none.2 ?_, rfl⟩
  simp [encodeFields, Instr.opcode, Fields.blank, Opcode.unusedFieldsZero, Opcode.unusedFlagsZero, Opcode.flagMask]

theorem lookup (font : Coord) (cp : CodePoint) : Statement (.lookup font cp) := by
  intro _
  refine ⟨rfl, illegal?_none.2 ?_, rfl⟩
  simp [encodeFields, Instr.opcode, Fields.blank, Opcode.unusedFieldsZero, Opcode.unusedFlagsZero, Opcode.flagMask]

theorem gpix (font glyph gx gy : Coord) : Statement (.gpix font glyph gx gy) := by
  intro _
  refine ⟨rfl, illegal?_none.2 ?_, rfl⟩
  simp [encodeFields, Instr.opcode, Fields.blank, Opcode.unusedFieldsZero, Opcode.unusedFlagsZero, Opcode.flagMask]

theorem dglyph (font glyph x y : Coord) (wob sp : Bool) : Statement (.dglyph font glyph x y wob sp) := by
  intro _
  refine ⟨rfl, illegal?_none.2 ⟨rfl, (flg_fields ..).1, rfl, ?_, by simp [Instr.opcode]⟩, ?_⟩
  · exact dglyph_flags wob sp
  · simp only [Opcode.build, Instr.opcode, encodeFields, Fields.wob, Fields.sp, flg_fields]

theorem rrect (x0 y0 x1 y1 : Coord) (wob rl rr : Bool) (radius : Coord) : Statement (.rrect x0 y0 x1 y1 wob rl rr radius) := by
  intro _
  refine ⟨rfl, illegal?_none.2 ⟨rfl, (flg_fields ..).1, rfl, ?_, by simp [Instr.opcode]⟩, ?_⟩
  · exact rrect_flags wob rl rr
  · simp only [Opcode.build, Instr.opcode, encodeFields, Fields.wob, Fields.rl, Fields.rr, flg_fields]

theorem dstr (toff tlen x0 y0 x1 font : Coord) (wob clear : Bool) (align : BitVec 2) : Statement (.dstr toff tlen x0 y0 x1 font wob clear align) := by
  intro h
  refine ⟨rfl, illegal?_none.2 ⟨rfl, (flg_fields ..).1, rfl, ?_, ?_⟩, ?_⟩
  · exact dstr_flags wob clear align
  · simpa [encodeFields, Fields.align, flg_fields, Instr.wf, Instr.opcode] using h
  · simp only [Opcode.build, Instr.opcode, encodeFields, Fields.wob, Fields.sp, Fields.align, flg_fields]

theorem dimg (image x y : Coord) : Statement (.dimg image x y) := by
  intro _
  refine ⟨rfl, illegal?_none.2 ?_, rfl⟩
  simp [encodeFields, Instr.opcode, Fields.blank, Opcode.unusedFieldsZero, Opcode.unusedFlagsZero, Opcode.flagMask]

theorem dimgc (image cx cy : Coord) : Statement (.dimgc image cx cy) := by
  intro _
  refine ⟨rfl, illegal?_none.2 ?_, rfl⟩
  simp [encodeFields, Instr.opcode, Fields.blank, Opcode.unusedFieldsZero, Opcode.unusedFlagsZero, Opcode.flagMask]

end Sys2Proof.Laws.EncLegal
end

