-- ==== Sys2Proof/Laws/RoundedRect.lean ====
section
/-!
SUPPORT. The integer square root (00_scope.md section 6), the pixel writes of one octant step (42_rounded_rect.md
R180), and the last write of a run of steps.
-/

namespace Sys2Proof.Machine

theorem isqrtFrom_spec (n b : Nat) : ∀ s, s * s ≤ n → n < (s + 2 ^ b) * (s + 2 ^ b) →
    isqrtFrom n b s * isqrtFrom n b s ≤ n ∧ n < (isqrtFrom n b s + 1) * (isqrtFrom n b s + 1) := by
  induction b with
  | zero => intro s h1 h2; simpa [isqrtFrom] using ⟨h1, h2⟩
  | succ b ih =>
    intro s h1 h2
    simp only [isqrtFrom]
    split
    · next h =>
      refine ih _ h ?_
      rwa [show s + 2 ^ b + 2 ^ b = s + 2 ^ (b + 1) by rw [pow_succ]; ring]
    · next h => exact ih _ h1 (by omega)

/-- `isqrt(n)` is the integer `s` with `s*s ≤ n < (s+1)*(s+1)` (00_scope.md section 6). -/
theorem isqrt_spec (n : Nat) : isqrt n * isqrt n ≤ n ∧ n < (isqrt n + 1) * (isqrt n + 1) := by
  refine isqrtFrom_spec _ _ 0 (by omega) ?_
  rw [Nat.zero_add, ← pow_add]
  exact Nat.lt_of_lt_of_le Nat.lt_log2_self (Nat.pow_le_pow_right (by omega) (by omega))

theorem isqrt_mono {m n : Nat} (h : m ≤ n) : isqrt m ≤ isqrt n := by
  by_contra hc
  have h1 := (isqrt_spec m).1
  have h2 := (isqrt_spec n).2
  have := Nat.mul_le_mul (show isqrt n + 1 ≤ isqrt m by omega) (show isqrt n + 1 ≤ isqrt m by omega)
  omega

/-- There is one such integer. -/
theorem isqrt_unique {n s : Nat} (h1 : s * s ≤ n) (h2 : n < (s + 1) * (s + 1)) : isqrt n = s := by
  have h := isqrt_spec n
  rcases lt_trichotomy (isqrt n) s with hs | hs | hs
  · have := Nat.mul_le_mul (show isqrt n + 1 ≤ s by omega) (show isqrt n + 1 ≤ s by omega); omega
  · exact hs
  · have := Nat.mul_le_mul (show s + 1 ≤ isqrt n by omega) (show s + 1 ≤ isqrt n by omega); omega

/-- The pixel writes of one octant step (42_rounded_rect.md R180). -/
theorem mem_step {x0 y0 x1 y1 : Int} {r : Nat} {wob rl rr : Bool} {e : Nat} {m : Micro} :
    m ∈ ((corners x0 y0 x1 y1 r rl rr).flatMap fun q => rowScan wob r e q ++ colScan wob r e q) ↔
      ∃ q ∈ corners x0 y0 x1 y1 r rl rr, ∃ d, d < r ∧
        (m = .wpxu (q.cx + q.sx * d) (q.cy + q.sy * e) (scanColour wob r e d q.rounded) ∨
          m = .wpxu (q.cx + q.sx * e) (q.cy + q.sy * d) (scanColour wob r e d q.rounded)) := by
  simp only [List.mem_flatMap, List.mem_append, rowScan, colScan, List.mem_map, List.mem_range'_1, cornerPixel]
  constructor
  · rintro ⟨q, hq, ⟨d, hd, rfl⟩ | ⟨d, hd, rfl⟩⟩
    · exact ⟨q, hq, d, by omega, .inl rfl⟩
    · exact ⟨q, hq, d, by omega, .inr rfl⟩
  · rintro ⟨q, hq, d, hd, rfl | rfl⟩
    · exact ⟨q, hq, .inl ⟨d, by omega, rfl⟩⟩
    · exact ⟨q, hq, .inr ⟨d, by omega, rfl⟩⟩

/-- No step writes the pixel, so the run of steps does not. -/
theorem lastWrite_steps_none (f : Nat → List Micro) (n x y : Nat) (h : ∀ e, e < n → lastWrite (f e) x y = none) :
    lastWrite ((List.range n).flatMap f) x y = none := by
  induction n with
  | zero => rfl
  | succ n ih =>
    rw [List.range_succ, List.flatMap_append, lastWrite_append, ih fun e he => h e (by omega)]
    simp [h n (by omega)]

/-- The last step that writes the pixel decides its colour (42_rounded_rect.md R182). -/
theorem lastWrite_steps (f : Nat → List Micro) (n x y k : Nat) (c : Colour) (hk : k < n)
    (h0 : lastWrite (f k) x y = some c) (h : ∀ e, k < e → e < n → lastWrite (f e) x y = none) :
    lastWrite ((List.range n).flatMap f) x y = some c := by
  induction n with
  | zero => omega
  | succ n ih =>
    rw [List.range_succ, List.flatMap_append, lastWrite_append]
    by_cases e : k = n
    · subst e; simp [h0]
    · rw [ih (by omega) fun e h1 h2 => h e h1 (by omega)]; simp [h n (by omega) (by omega)]

end Sys2Proof.Machine
end

