-- ==== Sys2Proof/Tests/Slice0.lean ====
section
/-!
SUPPORT. Tests: what WellFormed and the configuration check refuse, words written out from 30_encoding.md, single
steps with the results 95_test_vectors.md states (its vector named beside each), and a witness for the hypotheses
of every obligation that has some.
-/

namespace Sys2Proof.Tests

open Sys2Proof Sys2Proof.Machine

/-! ## Fixtures -/

/-- A machine of configuration K2 with the screen filled with one colour. -/
def blank (w h : Nat) (c : Colour) : State :=
  { State.resetWith (configK2 w h) 0 with fb := fillCells c 0 (w * h / 2) [] }

/-- The machine with a text at the start of `TXT`. -/
def withText (s : State) (cps : List CodePoint) : State := { s with txt := cps.mapIdx fun k cp => (k, cp) }

/-- The machine with the moves the host will make. -/
def withHost (s : State) (moves : List HostMove) : State := { s with host := moves }

/-- The four-by-two screen holding pixels `ABC` and `123` (the result of vector PW2). -/
def pairScreen : State :=
  { blank 4 2 0x000 with fb := [(0, 0xAB), (1, 0xC1), (2, 0x23), (3, 0), (4, 0), (5, 0), (6, 0), (7, 0), (8, 0), (9, 0),
      (10, 0), (11, 0)] }

/-- The machine after fault entry with STATUS `0x32` (vector PW20). -/
def faultedScreen : State := { blank 4 2 0x000 with status := 0x32, finfo := 0x00000004 }

/-- The next state of an outcome. -/
def nextOf (o : Host.Outcome State Fault Refusal) : Option State :=
  match o with
  | .next s => some s
  | .fault _ => none
  | .refused _ => none

/-- The bytes listed in FB after a step, in address order. -/
def fbAfter (o : Host.Outcome State Fault Refusal) : Option (List Byte) := (nextOf o).map fun t => t.fb.map Prod.snd

/-- Row `y` of the screen after a step. -/
def rowAfter (y : Nat) (o : Host.Outcome State Fault Refusal) : Option (List Colour) :=
  (nextOf o).map fun t => (List.range t.cfg.w).map fun x => t.pixel x y

/-- STATUS, FINFO and RES after a step. -/
def portsAfter (o : Host.Outcome State Fault Refusal) : Option (BitVec 8 × BitVec 32 × BitVec 32) :=
  (nextOf o).map fun t => (t.status, t.finfo, t.res)

/-! ## Well-formedness -/

/-- 30_encoding.md R82, R86: `ALIGN = 3` is reserved. -/
theorem test_wf_refuses_reserved_align : (Instr.dstr 0 2 0 1 12 0 true true 3).wf = false := by decide

/-- 00_scope.md R7: the screen's sides are even and at least 2. -/
theorem test_config_refuses_sizes :
    configWf (configK2 5 2) = false ∧ configWf (configK2 4 0) = false ∧ configWf (configK2 4 65536) = false ∧
      configWf (configK2 4 2) = true ∧ configWf (configK2 65534 65534) = true := by decide

/-- 10_state.md R31 (a): the skipped rows exceed the height. -/
theorem test_font_refuses_skips : fontWf { fontT0 with topSkip := 4 } = false := by decide

/-- 10_state.md R31 (b): one descriptor too few; a range with first past last. -/
theorem test_font_refuses_coverage :
    fontWf { fontT0 with coverage := .list [0x31, 0x38] } = false ∧
      fontWf { fontT1 with coverage := .range 0x32 0x30 } = false := by decide

/-- 10_state.md R31 (c): a glyph's storage runs past the blob. -/
theorem test_font_refuses_storage : fontWf { fontT0 with blob := fontT0.blob.take 15 } = false := by decide

/-- 10_state.md R35: too few bytes. -/
theorem test_image_refuses_bytes : imageWf { imageI0 with bytes := imageI0.bytes.take 23 } = false := by decide

/-! ## Decoding: words written out from 30_encoding.md R81 to R84 -/

/-- PW, 30_encoding.md section 5: WPXU, WPX, RPX, FILL and FRECT. -/
theorem test_decode_pixel_writer :
    decodeRecord 0x0000000005A700000000000100030001 = .ok (.wpxu 3 1 0x5A7) ∧
      decodeRecord 0x00000000000000000000000000010002 = .ok (.wpx 1 0 0x000) ∧
      decodeRecord 0x00000000000000000000000100020003 = .ok (.rpx 2 1) ∧
      decodeRecord 0x000000000FFF00000000000000000004 = .ok (.fill 0xFFF) ∧
      decodeRecord 0x0000000000F000010002000000000005 = .ok (.frect 0 0 2 1 0x0F0) := by decide

/-- GD, 30_encoding.md section 5: LOOKUP, GPIX and DGLYPH. -/
theorem test_decode_glyph_decoder :
    decodeRecord 0x00380000000000000000000000000010 = .ok (.lookup 0 0x38) ∧
      decodeRecord 0x00010000000000000000000000020011 = .ok (.gpix 0 1 2 0) ∧
      decodeRecord 0x00010000000000000000000100020112 = .ok (.dglyph 0 1 2 1 true false) := by decide

/-- RR, 95_test_vectors.md section 4, the field extraction check, as a record and as its sixteen bytes. -/
theorem test_decode_rounded_rect :
    decodeRecord 0x00000003000000070009000100010C20 = .ok (.rrect 1 1 9 7 false true true 3) ∧
      decodeBytes [0x20, 0x0C, 0x01, 0x00, 0x01, 0x00, 0x09, 0x00, 0x07, 0x00, 0x00, 0x00, 0x03, 0x00, 0x00, 0x00] =
        .ok (.rrect 1 1 9 7 false true true 3, []) := by decide

/-- Tier 2, 30_encoding.md section 5: DSTR, DIMG and DIMGC. -/
theorem test_decode_layout :
    decodeRecord 0x0002000000000000000C000100000330 = .ok (.dstr 0 2 0 1 12 0 true true 0) ∧
      decodeRecord 0x000000010000000000000003000E0031 = .ok (.dimg 1 14 3) ∧
      decodeRecord 0x00000000000000000000000200040032 = .ok (.dimgc 0 4 2) := by decide

/-- Every field of DSTR its own value: A, B, C, D, E, F = 1 .. 6, `ALIGN = 2` (30_encoding.md R81, R82, R84). -/
theorem test_decode_dstr_fields :
    decodeRecord 0x00060005000000040003000200012230 = .ok (.dstr 4 6 1 2 3 5 false true 2) ∧
      encode (.dstr 4 6 1 2 3 5 false true 2) = 0x00060005000000040003000200012230 := by decide

/-- EN1 to EN9 of 95_test_vectors.md section 4, each refused by name. -/
theorem test_decode_illegal :
    decodeRecord 0x00000000000000000000000000000000 = .error (.unassignedOpcode 0x00) ∧
      decodeRecord 0xFFFFFFFFFFFFFFFFFFFFFFFFFFFFFFFF = .error (.unassignedOpcode 0xFF) ∧
      decodeRecord 0x00000000000000000000000000000006 = .error (.unassignedOpcode 0x06) ∧
      decodeRecord 0x000000000FFF00000000000000010004 = .error .unusedField ∧
      decodeRecord 0x000000001FFF00000000000000000004 = .error .reservedField ∧
      decodeRecord 0x00000000000000000000000000010101 = .error .unusedFlag ∧
      decodeRecord 0x00010000000000000000000100028112 = .error .reservedFlags ∧
      decodeRecord 0x00000000000100000000000000000003 = .error .unusedField ∧
      decodeRecord 0x0002000000000000000C000100003330 = .error .reservedAlign := by decide

/-- 30_encoding.md R80: fifteen bytes are no record. -/
theorem test_decode_short : decodeBytes (List.replicate 15 0x01) = .error .shortRecord := by decide

/-- 30_encoding.md section 5 and R88: the DSTR line with its defaults, and the WPXU line. -/
theorem test_assemble :
    (assemble .dstr [.num 0, .num 2, .num 0, .num 1, .num 12, .num 0]).map encode =
        some 0x0002000000000000000C000100000330 ∧
      (assemble .wpxu [.num 3, .num 1, .num 0x5A7]).map encode = some 0x0000000005A700000000000100030001 ∧
      assemble .wpxu [.num 65536, .num 1, .num 0x5A7] = none := by decide

/-! ## Single steps: unit PW (95_test_vectors.md section 5) -/

/-- PW2 and PW4: the odd pixel keeps its pair's even one, the even pixel the odd one. -/
theorem test_wpxu_keeps_the_neighbour :
    fbAfter (exec (.wpxu 1 0 0x123) { pairScreen with fb := (0, 0xAB) :: (1, 0xC0) :: (2, 0) :: pairScreen.fb.drop 3 }) =
        some [0xAB, 0xC1, 0x23, 0, 0, 0, 0, 0, 0, 0, 0, 0] ∧
      fbAfter (exec (.wpxu 2 1 0x000) (blank 4 2 0xFFF)) =
        some [0xFF, 0xFF, 0xFF, 0xFF, 0xFF, 0xFF, 0xFF, 0xFF, 0xFF, 0x00, 0x0F, 0xFF] := by decide

/-- PW20 and PW21: the column and the row one past the last. -/
theorem test_wpxu_off_screen :
    portsAfter (exec (.wpxu 4 0 0xFFF) (blank 4 2 0x000)) = some (0x32, 0x00000004, 0) ∧
      portsAfter (exec (.wpxu 0 2 0xFFF) (blank 4 2 0x000)) = some (0x32, 0x00020000, 0) := by decide

/-- PW6: the source's scenario. -/
theorem test_wpx_writes :
    fbAfter (exec (.wpx 1 0 0x000) (blank 4 2 0xFFF)) =
      some [0xFF, 0xF0, 0x00, 0xFF, 0xFF, 0xFF, 0xFF, 0xFF, 0xFF, 0xFF, 0xFF, 0xFF] := by decide

/-- PW9 and PW11: off the screen nothing happens. -/
theorem test_wpx_off_screen :
    nextOf (exec (.wpx 4 0 0x000) (blank 4 2 0xFFF)) = some (blank 4 2 0xFFF) ∧
      nextOf (exec (.wpx 65535 65535 0x000) (blank 4 2 0xFFF)) = some (blank 4 2 0xFFF) := by decide

/-- PW12 and PW13: the even and the odd pixel of a pair. -/
theorem test_rpx_reads :
    portsAfter (exec (.rpx 0 0) pairScreen) = some (0, 0, 0x00000ABC) ∧
      portsAfter (exec (.rpx 1 0) pairScreen) = some (0, 0, 0x00000123) := by decide

/-- PW22: a read off the screen leaves RES. -/
theorem test_rpx_off_screen :
    portsAfter (exec (.rpx 4 1) { pairScreen with res := 7 }) = some (0x32, 0x00010004, 7) := by decide

/-- PW7: from a machine nothing has written. -/
theorem test_fill :
    fbAfter (exec (.fill 0x123) (State.resetWith (configK2 4 2) 0)) =
      some [0x12, 0x31, 0x23, 0x12, 0x31, 0x23, 0x12, 0x31, 0x23, 0x12, 0x31, 0x23] := by decide

/-- PW14: clamped to the screen. -/
theorem test_frect_clamps :
    fbAfter (exec (.frect 1 0 9 9 0xF0F) (blank 4 2 0x000)) =
      some [0x00, 0x0F, 0x0F, 0xF0, 0xFF, 0x0F, 0x00, 0x0F, 0x0F, 0xF0, 0xFF, 0x0F] := by decide

/-- PW15, PW16 and PW17: empty, and no fault. -/
theorem test_frect_empty :
    nextOf (exec (.frect 3 0 2 2 0xFFF) (blank 4 2 0x000)) = some (blank 4 2 0x000) ∧
      nextOf (exec (.frect 7 0 9 2 0xFFF) (blank 4 2 0x000)) = some (blank 4 2 0x000) ∧
      nextOf (exec (.frect 0 1 4 0 0xFFF) (blank 4 2 0x000)) = some (blank 4 2 0x000) := by decide

/-! ## Single steps: unit GD (95_test_vectors.md section 6) -/

/-- GD2 and GD4: a list, found and not found. -/
theorem test_lookup_list :
    portsAfter (exec (.lookup 0 0x38) (blank 4 2 0x000)) = some (0, 0, 0x00010001) ∧
      portsAfter (exec (.lookup 0 0x39) { blank 4 2 0x000 with res := 7 }) = some (0, 0, 0) := by decide

/-- GD7, GD8 and GD9: a range, its last code point and the ones outside. -/
theorem test_lookup_range :
    portsAfter (exec (.lookup 1 0x32) (blank 4 2 0x000)) = some (0, 0, 0x00010002) ∧
      portsAfter (exec (.lookup 1 0x33) (blank 4 2 0x000)) = some (0, 0, 0) ∧
      portsAfter (exec (.lookup 1 0x2F) (blank 4 2 0x000)) = some (0, 0, 0) := by decide

/-- GD13 and GD14: the last bitmap column, and the pad nibble that is not returned. -/
theorem test_gpix_bitmap :
    portsAfter (exec (.gpix 0 1 2 0) (blank 4 2 0x000)) = some (0, 0, 11) ∧
      portsAfter (exec (.gpix 0 1 3 0) { blank 4 2 0x000 with res := 7 }) = some (0, 0, 0) := by decide

/-- GD19, GD20 and GD27: the margin of a widened glyph, its bitmap, and no such glyph. -/
theorem test_gpix_widened :
    portsAfter (exec (.gpix 0 0 0 0) (blank 4 2 0x000)) = some (0, 0, 0) ∧
      portsAfter (exec (.gpix 0 0 1 0) (blank 4 2 0x000)) = some (0, 0, 10) ∧
      portsAfter (exec (.gpix 0 3 0 0) { blank 4 2 0x000 with res := 7 }) = some (0x42, 0, 7) := by decide

/-- GD31: inverted, the drawn width rounded up. -/
theorem test_dglyph_inverted :
    rowAfter 0 (exec (.dglyph 0 0 0 0 false true) (blank 8 4 0x111)) =
        some [0xFFF, 0x555, 0xFFF, 0xFFF, 0x111, 0x111, 0x111, 0x111] ∧
      rowAfter 1 (exec (.dglyph 0 0 0 0 false true) (blank 8 4 0x111)) =
        some [0xFFF, 0xAAA, 0xFFF, 0xFFF, 0x111, 0x111, 0x111, 0x111] := by decide

/-- GD34: over the right edge; and the glyph of GD30 on the last row, its second row off the screen, by hand from
R145 and R238. -/
theorem test_dglyph_over_the_edge :
    rowAfter 1 (exec (.dglyph 0 1 6 1 true true) (blank 8 4 0x111)) =
        some [0x111, 0x111, 0x111, 0x111, 0x111, 0x111, 0x999, 0xAAA] ∧
      rowAfter 2 (exec (.dglyph 0 1 6 1 true true) (blank 8 4 0x111)) = some (List.replicate 8 0x111) ∧
      portsAfter (exec (.dglyph 0 1 6 1 true true) (blank 8 4 0x111)) = some (0x32, 0x00010008, 0) ∧
      rowAfter 3 (exec (.dglyph 0 1 2 3 true false) (blank 8 4 0x111)) =
        some [0x111, 0x111, 0x999, 0xAAA, 0xBBB, 0x000, 0x111, 0x111] ∧
      portsAfter (exec (.dglyph 0 1 2 3 true false) (blank 8 4 0x111)) = some (0x32, 0x00040002, 0) := by decide

/-! ## Single steps: unit RR (95_test_vectors.md section 7) -/

set_option maxRecDepth 8192 in
/-- RR4: square corners on the left, rounded ones on the right, unwritten corner pixels. -/
theorem test_rrect_half_rounded :
    rowAfter 0 (exec (.rrect 0 0 8 8 true false true 4) (blank 8 8 0x111)) =
        some [0x111, 0x000, 0x000, 0x000, 0x000, 0x222, 0x888, 0x111] ∧
      rowAfter 6 (exec (.rrect 0 0 8 8 true false true 4) (blank 8 8 0x111)) =
        some [0x000, 0x000, 0x000, 0x000, 0x000, 0x000, 0x000, 0x888] := by decide

set_option maxRecDepth 16384 in
/-- RR14: the smallest radius at which a scan reaches past the boundary pixel. -/
theorem test_rrect_exterior :
    rowAfter 0 (exec (.rrect 0 0 12 12 false true true 6) (blank 12 12 0x111)) =
        some [0x111, 0x000, 0x333, 0xAAA, 0xEEE, 0xFFF, 0xFFF, 0xEEE, 0xAAA, 0x333, 0x000, 0x111] ∧
      rowAfter 10 (exec (.rrect 0 0 12 12 false true true 6) (blank 12 12 0x111)) =
        some [0x000, 0x777, 0xFFF, 0xFFF, 0xFFF, 0xFFF, 0xFFF, 0xFFF, 0xFFF, 0xFFF, 0x777, 0x000] := by decide

/-! ## Single steps: Tier 2 (95_test_vectors.md section 8) -/

/-- T2V2: an uncovered character in the middle; its spacing column keeps the old pixel. -/
theorem test_dstr_uncovered_character :
    rowAfter 1 (exec (.dstr 0 3 0 1 12 0 true true 0) (withText (blank 16 4 0x111) [0x31, 0x3F, 0x38])) =
      some [0x000, 0x000, 0x000, 0xAAA, 0x000, 0x000, 0x111, 0x999, 0xAAA, 0xBBB, 0x000, 0x000, 0x111, 0x111, 0x111,
        0x111] := by decide

/-- T2V9: right-aligned past the left end of the span, the last glyph over the edge. -/
theorem test_dstr_over_the_edge :
    rowAfter 0 (exec (.dstr 0 2 10 0 16 0 true true 2) (withText (blank 16 4 0x111) [0x38, 0x38])) =
        some [0x111, 0x111, 0x111, 0x111, 0x111, 0x111, 0x111, 0x111, 0x111, 0x999, 0xAAA, 0xBBB, 0x000, 0x999, 0xAAA,
          0xBBB] ∧
      portsAfter (exec (.dstr 0 2 10 0 16 0 true true 2) (withText (blank 16 4 0x111) [0x38, 0x38])) =
        some (0x32, 0x00000010, 0) := by decide

/-- T2V12: the pad column is black. -/
theorem test_dimg_pad_column :
    rowAfter 0 (exec (.dimg 0 1 0) (blank 8 4 0x111)) =
        some [0x111, 0x321, 0x654, 0x80F, 0x000, 0x111, 0x111, 0x111] ∧
      rowAfter 1 (exec (.dimg 0 1 0) (blank 8 4 0x111)) =
        some [0x111, 0x210, 0xDEF, 0x000, 0x000, 0x111, 0x111, 0x111] := by decide

/-- T2V13 and T2V15: an image with alpha, and an image over the right edge. -/
theorem test_dimg_alpha_and_edge :
    rowAfter 3 (exec (.dimg 1 6 3) (blank 8 4 0x111)) =
        some [0x111, 0x111, 0x111, 0x111, 0x111, 0x111, 0x531, 0xDB9] ∧
      rowAfter 0 (exec (.dimg 0 5 0) (blank 8 4 0x111)) =
        some [0x111, 0x111, 0x111, 0x111, 0x111, 0x321, 0x654, 0x80F] ∧
      portsAfter (exec (.dimg 0 5 0) (blank 8 4 0x111)) = some (0x32, 0x00000008, 0) := by decide

/-- T2V14. -/
theorem test_dimgc_centres :
    rowAfter 1 (exec (.dimgc 0 4 2) (blank 8 4 0x111)) =
      some [0x111, 0x111, 0x111, 0x321, 0x654, 0x80F, 0x000, 0x111] := by decide

/-- T2V16: a negative position. -/
theorem test_dimgc_negative :
    nextOf (exec (.dimgc 0 0 0) (blank 8 4 0x111)) =
      some { blank 8 4 0x111 with status := 0x32, finfo := 0xFFFFFFFF } := by decide

/-! ## Faults and reset (95_test_vectors.md section 9) -/

/-- F1: a command, a text write and an illegal record are dropped while faulted. -/
theorem test_fault_drops_writes :
    nextOf (step (withHost faultedScreen [.writeCmd 0x000000000FFF00000000000000000004])) = some faultedScreen ∧
      nextOf (step (withHost faultedScreen [.writeTxtw 0x00010038])) = some faultedScreen ∧
      nextOf (step (withHost faultedScreen [.writeCmd 0])) = some faultedScreen := by decide

/-- F2: RESET, after which FILL executes. -/
theorem test_reset_clears_the_fault :
    portsAfter (step (withHost faultedScreen [.reset])) = some (0, 0, 0) ∧
      fbAfter ((nextOf (step (withHost faultedScreen [.reset, .writeCmd 0x000000000FFF00000000000000000004]))).elim
        (.refused .hostAccessWhileBusy) step) = some (List.replicate 12 0xFF) := by decide

/-- F3: legality before the drawing; the font before the no-op; the no-op before the text range. -/
theorem test_fault_priority :
    portsAfter (step (withHost (blank 8 4 0x111) [.writeCmd 0x00010000000000000000000100068312])) = some (0x12, 0, 0) ∧
      portsAfter (exec (.dstr 0 0 0 0 8 2 true true 0) (blank 8 4 0x111)) = some (0x42, 0, 0) ∧
      nextOf (exec (.dstr 9 0 0 0 8 0 true true 0) (blank 8 4 0x111)) = some (blank 8 4 0x111) ∧
      nextOf (exec (.dstr 7 2 5 0 4 0 true true 0) (blank 8 4 0x111)) = some (blank 8 4 0x111) := by decide

/-- 10_state.md R38, 00_scope.md R7: what the reset machine's ports read. -/
theorem test_reset_ports :
    State.reset.status = 0x00 ∧ State.reset.res = 0 ∧ State.reset.finfo = 0 ∧ State.reset.readPort .cfgW = 320 ∧
      State.reset.readPort .cfgH = 240 := by decide

/-- 20_memory.md R63: FBR reads a byte of FB; past the end the model stops. -/
theorem test_fbr :
    (nextOf (step (withHost pairScreen [.read (.fbr 1)]))).map State.portOut = some 0xC1 ∧
      nextOf (step (withHost pairScreen [.read (.fbr 12)])) = none := by decide

/-- P6 of 95_test_vectors.md section 10, step 1: TXTW writes one entry. -/
theorem test_txtw :
    (nextOf (step (withHost (blank 16 4 0x111) [.writeTxtw 0x00010038]))).map State.txt = some [(1, 0x0038)] := by decide

/-- The step fetches what State.withFetchWord placed. -/
theorem test_fetch_word :
    fbAfter (step ((blank 4 2 0x000).withFetchWord 128 0x0000000005A700000000000100030001)) =
      some [0, 0, 0, 0, 0, 0, 0, 0, 0, 0, 0x05, 0xA7] := by decide

/-! ## Witnesses: a state and operands that meet all the hypotheses of each obligation together -/

/-- Of DecodeOfEncodeIsTheCommand: the greatest legal `ALIGN`. -/
theorem witness_DecodeOfEncodeIsTheCommand : (Instr.dstr 4 6 1 2 3 5 false true 2).wf = true := by decide

/-- Of LegalRecordIsTheEncodingOfItsCommand. -/
theorem witness_LegalRecordIsTheEncodingOfItsCommand :
    decodeRecord 0x00000003000000070009000100010C20 = .ok (.rrect 1 1 9 7 false true true 3) := by decide

/-- Of RecordBytesAreLittleEndian: the last byte. -/
theorem witness_RecordBytesAreLittleEndian : 15 < 16 ∧ 0 < 16 := by decide

/-- Of AssemblerLinesAreLegalRecords: a line that assembles, its last number the greatest of its field. -/
theorem witness_AssemblerLinesAreLegalRecords :
    assemble .dimg [.num 0, .num 1, .num 65535] = some (.dimg 0 1 65535) := by decide

/-- A machine the host is about to write a record to, idle and not faulted. -/
theorem witness_StepRunsTheDecodedCommand :
    let s := withHost (blank 4 2 0x000) [.writeCmd 0x00000000000000000000000000010001, .reset]
    configWf s.cfg = true ∧ statusFault s.status = false ∧ statusBusy s.status = false ∧
      s.host = .writeCmd 0x00000000000000000000000000010001 :: [.reset] ∧
      decodeRecord 0x00000000000000000000000000010001 = .ok (.wpxu 1 0 0x000) := by decide

/-- The reset machine, and a word of WPXU. -/
theorem witness_FetchedWordIsRunNext :
    configWf State.reset.cfg = true ∧ statusFault State.reset.status = false ∧ statusBusy State.reset.status = false ∧
      decodeTableWord 128 0x10001 = some (.wpxu 1 0 0x000) := by decide

/-- The all-zero record agrees with no row; the DSTR record EN9 agrees with the row of DSTR and has `ALIGN = 3`. -/
theorem witness_IllegalRecordRaisesFIllegal :
    let s := withHost (blank 4 2 0x000) [.writeCmd 0]
    let r : Record := 0x0002000000000000000C000100003330
    let u := withHost (blank 4 2 0x000) [.writeCmd r]
    (configWf s.cfg = true ∧ statusFault s.status = false ∧ statusBusy s.status = false ∧ s.host = .writeCmd 0 :: [] ∧
      ∀ op : Opcode, (0 : Record) &&& tableMask op = tableMatch op →
        op = .dstr ∧ (0 : Record).extractLsb' 12 2 = 3) ∧
      configWf u.cfg = true ∧ statusFault u.status = false ∧ statusBusy u.status = false ∧ u.host = .writeCmd r :: [] ∧
      (∀ op : Opcode, r &&& tableMask op = tableMatch op → op = .dstr ∧ r.extractLsb' 12 2 = 3) ∧
      r &&& tableMask .dstr = tableMatch .dstr := by
  refine ⟨⟨by decide, by decide, by decide, rfl, fun op => ?_⟩, by decide, by decide, by decide, rfl, fun op => ?_,
    by decide⟩
  · cases op <;> decide
  · cases op <;> decide

/-- A faulted machine, for each of the host's moves: the first and the last byte of FB among them. -/
theorem witness_FaultIsStickyUntilReset :
    configWf faultedScreen.cfg = true ∧ statusFault faultedScreen.status = true ∧ statusBusy faultedScreen.status = false ∧
      (∀ m : HostMove, (withHost faultedScreen [m]).host = m :: []) ∧ 0 < faultedScreen.fbBytes ∧
      11 < faultedScreen.fbBytes := by
  refine ⟨by decide, by decide, by decide, fun _ => rfl, by decide, by decide⟩

/-- A faulted machine takes a step that is no RESET. -/
theorem witness_OnlyResetLeavesAFault :
    let s := withHost faultedScreen [.writeCmd 0x000000000FFF00000000000000000004]
    statusFault s.status = true ∧ s.host.head? ≠ some .reset ∧ ∃ t, step s = .next t := by
  refine ⟨by decide, by decide, ⟨_, rfl⟩⟩

/-- The last index of TXT, and the first past it. -/
theorem witness_TxtwWriteStoresOneEntry :
    let s := fun index : BitVec 16 => withHost (blank 4 2 0x000) [.writeTxtw (index ++ 0x38#16)]
    configWf (s 7).cfg = true ∧ statusFault (s 7).status = false ∧ statusBusy (s 7).status = false ∧
      (∀ index, (s index).host = .writeTxtw (index ++ 0x38#16) :: []) ∧ (7#16).toNat < (s 7).cfg.ntxt ∧
      (s 8).cfg.ntxt ≤ (8#16).toNat ∧ 6 ≠ (7#16).toNat := by
  refine ⟨by decide, by decide, by decide, fun _ => rfl, by decide, by decide, by decide⟩

/-- A read of every port, on a machine that is not busy. -/
theorem witness_PortReadsReturnThePorts :
    configWf pairScreen.cfg = true ∧ (∀ p : ReadPort, (withHost pairScreen [.read p]).host = .read p :: []) ∧
      statusBusy pairScreen.status = false ∧ 11 < pairScreen.fbBytes ∧ ¬ 12 < pairScreen.fbBytes := by
  refine ⟨by decide, fun _ => rfl, by decide, by decide, by decide⟩

/-- RESET of a machine that is faulted and busy. -/
theorem witness_ResetMoveResetsTheBlock :
    let s := withHost { faultedScreen with status := 0x33 } [.reset]
    configWf s.cfg = true ∧ s.host = .reset :: [] ∧ statusBusy s.status = true ∧ statusFault s.status = true := by decide

/-- The least and the greatest screen. -/
theorem witness_ResetLeavesTheStatedValues :
    configWf (configK2 2 2) = true ∧ configWf (configK2 65534 65534) = true := by decide

/-- A machine with no move to make. -/
theorem witness_IdleBlockDoesNothing : configWf State.reset.cfg = true ∧ State.reset.host = [] := by decide

/-- A screen of an odd width. -/
theorem witness_IllFormedConfigurationIsRefused : configWf (blank 5 2 0x000).cfg = false := by decide

/-- The configuration of State.reset. -/
theorem witness_InvariantHoldsAtReset : configWf resetConfig = true := by decide

/-- A machine in the invariant whose step runs a command that faults. -/
theorem witness_StepKeepsTheInvariant :
    let s := withHost (blank 4 2 0x000) [.writeCmd 0x000000000FFF00000000000000040001]
    s.inv = true ∧ (nextOf (step s)).map State.status = some 0x32 := by decide

/-- A step and a command that end in a next state. -/
theorem witness_NothingButTheArchitecturalStateChanges :
    (∃ t, step State.reset = .next t) ∧ ∃ t, exec (.rpx 1 0) pairScreen = .next t ∧ t.res = 0x123 :=
  ⟨⟨_, rfl⟩, _, rfl, by decide⟩

/-- A host move that starts no command, a read of RES, the three commands that write RES, and one that does not. -/
theorem witness_ResIsWrittenByThreeCommands :
    ((∃ t, step (withHost { pairScreen with res := 7 } [.writeTxtw 0x38]) = .next t ∧ t.res = 7) ∧
        (∀ r, (withHost pairScreen [.writeTxtw 0x38]).host.head? ≠ some (.writeCmd r)) ∧
        (withHost pairScreen [.writeTxtw 0x38]).host.head? ≠ some .reset) ∧
      (configWf pairScreen.cfg = true ∧ (withHost pairScreen [.read .res]).host = .read .res :: []) ∧
    (∃ t, exec (.rpx 1 0) pairScreen = .next t ∧ t.res = 0x123) ∧
      (∃ t, exec (.rpx 4 0) { pairScreen with res := 7 } = .next t ∧ t.res = 7) ∧
      (∃ t, exec (.gpix 0 1 2 0) pairScreen = .next t ∧ t.res = 11) ∧
      (∃ t, exec (.lookup 0 0x38) pairScreen = .next t ∧ t.res = 0x10001) ∧
      ∃ t, exec (.wpxu 0 0 0x000) { pairScreen with res := 7 } = .next t ∧ t.res = 7 :=
  ⟨⟨⟨_, rfl, by decide⟩, fun _ => by simp [withHost], by decide⟩, ⟨by decide, rfl⟩, ⟨_, rfl, by decide⟩,
    ⟨_, rfl, by decide⟩, ⟨_, rfl, by decide⟩, ⟨_, rfl, by decide⟩, ⟨_, rfl, by decide⟩⟩

/-- A command that completes, and one for each fault a command raises. -/
theorem witness_StatusAndFinfoChangeByFaultEntryOnly :
    (∃ t, exec (.wpxu 0 0 0xABC) (blank 4 2 0x000) = .next t ∧ t.status = 0x00) ∧
      (∃ t, exec (.dstr 0 0 0 0 0 0 true true 3) (blank 4 2 0x000) = .next t ∧ t.status = 0x12) ∧
      (∃ t, exec (.rrect 0 0 0 0 true true true 0) (blank 4 2 0x000) = .next t ∧ t.status = 0x22) ∧
      (∃ t, exec (.wpxu 4 0 0xABC) (blank 4 2 0x000) = .next t ∧ t.status = 0x32) ∧
      ∃ t, exec (.dimg 2 0 0) (blank 4 2 0x000) = .next t ∧ t.status = 0x42 :=
  ⟨⟨_, rfl, by decide⟩, ⟨_, rfl, by decide⟩, ⟨_, rfl, by decide⟩, ⟨_, rfl, by decide⟩, ⟨_, rfl, by decide⟩⟩

/-- The last pixel of the screen, which is odd, and the even one before it. -/
theorem witness_WpxuWritesTheMaskedBytes :
    let s := blank 4 2 0x000
    (3#16).toNat < s.cfg.w ∧ (1#16).toNat < s.cfg.h ∧ (1#16).toNat * s.cfg.w + (3#16).toNat = 2 * 3 + 1 ∧
      (1#16).toNat * s.cfg.w + (2#16).toNat = 2 * 3 := by decide

/-- The first column and the first row off the screen, each alone. -/
theorem witness_UncheckedAccessOffTheScreenRaisesFOob :
    let s := blank 4 2 0x000
    (s.cfg.w ≤ (4#16).toNat ∧ ¬ s.cfg.h ≤ (1#16).toNat) ∧ (s.cfg.h ≤ (2#16).toNat ∧ ¬ s.cfg.w ≤ (3#16).toNat) := by decide

/-- The last pixel of the screen; the first column and the first row off it. -/
theorem witness_WpxWritesOnScreenAndIsANoOpOff :
    let s := blank 4 2 0x000
    ((3#16).toNat < s.cfg.w ∧ (1#16).toNat < s.cfg.h) ∧ s.cfg.w ≤ (4#16).toNat ∧ s.cfg.h ≤ (2#16).toNat := by decide

/-- The last pixel of the screen and the even one before it; the first column and the first row off it. -/
theorem witness_RpxReturnsThePixel :
    let s := blank 4 2 0x000
    ((3#16).toNat < s.cfg.w ∧ (1#16).toNat < s.cfg.h ∧ (1#16).toNat * s.cfg.w + (3#16).toNat = 2 * 3 + 1 ∧
      (1#16).toNat * s.cfg.w + (2#16).toNat = 2 * 3) ∧ s.cfg.w ≤ (4#16).toNat ∧ s.cfg.h ≤ (2#16).toNat := by decide

/-- The last nibble of a pixel. -/
theorem witness_PixelIsItsThreeNibbles : 2 < 3 ∧ 2 < 3 ∧ 3 * 5 + 2 = 3 * 5 + 2 := by decide

/-- A pixel, its neighbour in the pair, and a nibble of the neighbour. -/
theorem witness_PixelWriteKeepsEveryOtherNibble :
    let s := blank 4 2 0x000
    (2#16).toNat < s.cfg.w ∧ (1#16).toNat < s.cfg.h ∧ 21 / 3 ≠ (1#16).toNat * s.cfg.w + (2#16).toNat ∧
      (3#16).toNat < s.cfg.w ∧ ((3#16, 1#16) : Coord × Coord) ≠ (2, 1) := by decide

/-- The last pair, the last pixel, and the first address past FB. -/
theorem witness_FillWritesEveryPixel :
    let s := blank 4 2 0x000
    configWf s.cfg = true ∧ 3 < s.cfg.w * s.cfg.h / 2 ∧ 3 < s.cfg.w ∧ 1 < s.cfg.h ∧ s.fbBytes ≤ 12 := by decide

/-- A gray. -/
theorem witness_FillFastPathIsNotObservable :
    let c : Colour := 0x777
    (c.extractLsb' 8 4 ++ c.extractLsb' 4 4 : Byte) = c.extractLsb' 0 4 ++ c.extractLsb' 8 4 ∧
      (c.extractLsb' 0 4 ++ c.extractLsb' 8 4 : Byte) = c.extractLsb' 4 4 ++ c.extractLsb' 0 4 ∧
      configWf (blank 4 2 0x000).cfg = true ∧ 11 < (blank 4 2 0x000).fbBytes := by decide

/-- The product's screen. -/
theorem witness_WholeScreenFrectIsFill : configWf State.reset.cfg = true := by decide

/-- Two pixels of one pair, swapped; and a pixel write of FRECT and of DGLYPH. -/
theorem witness_DistinctPixelWritesCommute :
    let s := blank 4 2 0x000
    let px : List (Nat × Nat × Colour) := [(2, 1, 0xABC), (3, 1, 0xDEF)]
    (∀ p ∈ px, p.1 < s.cfg.w ∧ p.2.1 < s.cfg.h) ∧ (px.map fun p => (p.1, p.2.1)).Nodup ∧
      px.Perm [(3, 1, 0xDEF), (2, 1, 0xABC)] ∧ (frectMicro 4 2 1 0 9 9 0xF0F).head? = some (.wpxu 1 0 0xF0F) ∧
      (glyphMicro ⟨fontT0, true⟩ 1 2 1 true false).head? = some (.wpxu 2 1 0x999) :=
  ⟨by decide, by decide, .swap _ _ _, by decide, by decide⟩

/-- No such font; a range, at its last code point and past it; a list, found at its index and not found. -/
theorem witness_LookupReturnsFoundAndIndex :
    let s := blank 4 2 0x000
    configWf s.cfg = true ∧ s.cfg.fonts[(2#16).toNat]? = none ∧
      (∃ e, s.cfg.fonts[(1#16).toNat]? = some e ∧ e.font.coverage = .range 0x30 0x32) ∧
      ∃ e cps, s.cfg.fonts[(0#16).toNat]? = some e ∧ e.font.coverage = .list cps ∧ cps[2]? = some 0x41 ∧
        (∀ g', g' < 2 → cps[g']? ≠ some 0x41) ∧ 0x39 ∉ cps := by
  refine ⟨by decide, by decide, ⟨_, rfl, rfl⟩, _, _, rfl, rfl, by decide, by decide, by decide⟩

/-- A digit glyph of a font with MONO set, one of a font without, and a glyph that is no digit. -/
theorem witness_GlyphTableIsBuiltInTwoPasses :
    fontT0.desc[0]? = some ⟨1, 0⟩ ∧ fontT0.desc[2]? = some ⟨2, 12⟩ ∧ (⟨fontT0, true⟩ : FontEntry).mono = true ∧
      (⟨fontT0, false⟩ : FontEntry).mono = false ∧
      (∃ cp, codePointOf fontT0.coverage 0 = some cp ∧ 0x30 ≤ cp ∧ cp ≤ 0x39) ∧
      (¬ ∃ cp, codePointOf fontT0.coverage 2 = some cp ∧ 0x30 ≤ cp ∧ cp ≤ 0x39) ∧
      fontT0.desc[1]? = some ⟨3, 4⟩ ∧ codePointOf fontT0.coverage 1 = some 0x38 := by
  refine ⟨rfl, rfl, rfl, rfl, ⟨0x31, by decide⟩, ?_, rfl, rfl⟩
  rintro ⟨cp, h, _, hle⟩
  have : cp = 0x41 := by simpa [codePointOf, fontT0] using h.symm
  omega

/-- The widened glyph 0 of T0: each way out of bounds, both margins, and the one bitmap column with its byte. -/
theorem witness_GintIsBoundedAndLiteral :
    let G : Glyph := ⟨3, 1, 2, 4, 1, 0⟩
    G.bitmapWidth ≤ G.width ∧ ((-1 : Int) < 0 ∧ G.height ≤ 2 ∧ (G.width : Int) ≤ 3) ∧
      (0 - ((G.width : Int) - G.bitmapWidth) / 2 < 0 ∧ (G.bitmapWidth : Int) ≤ 2 - ((G.width : Int) - G.bitmapWidth) / 2) ∧
      ((1 : Nat) : Int) = 1 ∧ ((1 : Nat) : Int) < G.height ∧ 0 < G.bitmapWidth ∧
      (1 : Int) = (0 : Nat) + ((G.width : Int) - G.bitmapWidth) / 2 ∧
      fontT0.blob[G.base + (1 + G.topSkip) * (evenUp G.bitmapWidth / 2) + 0 / 2]? = some 0x5C := by decide

/-- No such font; no such glyph; a glyph. -/
theorem witness_GpixReturnsTheIntensity :
    let s := blank 4 2 0x000
    configWf s.cfg = true ∧ s.cfg.fonts[(2#16).toNat]? = none ∧
      ∃ e, s.cfg.fonts[(0#16).toNat]? = some e ∧ (glyphTable e)[(3#16).toNat]? = none ∧
        (glyphTable e)[(2#16).toNat]? = some ⟨2, 2, 2, 3, 1, 12⟩ := by
  refine ⟨by decide, by decide, _, rfl, by decide, by decide⟩

/-- Vector GD30 moved so that its drawn columns end at the right edge and its rows at the bottom. -/
theorem witness_DglyphPaintsTheGlyph :
    let s := blank 8 4 0x111
    let G : Glyph := ⟨3, 3, 2, 4, 1, 4⟩
    configWf s.cfg = true ∧
      (∃ e, s.cfg.fonts[(0#16).toNat]? = some e ∧ (glyphTable e)[(1#16).toNat]? = some G) ∧
      (4#16).toNat + evenUp G.width ≤ s.cfg.w ∧ ((2#16).toNat : Int) + G.height ≤ s.cfg.h ∧
      (4#16).toNat + G.width ≤ 7 ∧ 7 < (4#16).toNat + evenUp G.width ∧ (2#16).toNat ≤ 3 ∧
      (3 : Int) < (2#16).toNat + G.height := by
  refine ⟨by decide, ⟨_, rfl, by decide⟩, by decide, by decide, by decide, by decide, by decide, by decide⟩

/-- Each clause at its boundary: a first pixel one past the right edge and one past the bottom; vector GD34 and the
first column off the screen; rows past the bottom, the columns ending at the edge; a glyph without rows, in a font
that is well formed. -/
theorem witness_DglyphOverTheEdgeRaisesFOob :
    let s := blank 8 4 0x111
    let G : Glyph := ⟨3, 3, 2, 4, 1, 4⟩
    let flat : FontEntry := ⟨{ fontT0 with topSkip := 3 }, true⟩
    configWf s.cfg = true ∧
      (∃ e, s.cfg.fonts[(0#16).toNat]? = some e ∧ (glyphTable e)[(1#16).toNat]? = some G) ∧ 0 < G.height ∧
      0 < evenUp G.width ∧ (s.cfg.w < (9#16).toNat ∧ s.cfg.h ≤ (4#16).toNat) ∧
      ((1#16).toNat < s.cfg.h ∧ (6#16).toNat ≤ s.cfg.w ∧ s.cfg.w < (6#16).toNat + evenUp G.widthWithSpacing ∧
        (8#16).toNat ≤ s.cfg.w ∧ s.cfg.w < (8#16).toNat + evenUp G.widthWithSpacing) ∧
      ((3#16).toNat < s.cfg.h ∧ (4#16).toNat + evenUp G.width ≤ s.cfg.w ∧ (s.cfg.h : Int) < (3#16).toNat + G.height) ∧
      configWf { s.cfg with fonts := [flat] } = true ∧ ∃ F, (glyphTable flat)[(1#16).toNat]? = some F ∧ F.height = 0 := by
  refine ⟨by decide, ⟨_, rfl, by decide⟩, by decide, by decide, by decide, by decide, by decide, by decide, _, rfl, rfl⟩

/-- Each command that names an asset, at the first number that is not there. -/
theorem witness_MissingAssetRaisesFAsset :
    let s := blank 8 4 0x111
    s.cfg.fonts.length ≤ (2#16).toNat ∧
      (∃ e, s.cfg.fonts[(0#16).toNat]? = some e ∧ e.font.desc.length ≤ (3#16).toNat) ∧
      ((0 : BitVec 2) ≠ 3 ∧ (2#16) ≠ 0 ∧ (0#16).toNat ≤ (0#16).toNat ∧ s.cfg.ntxt < (7#16).toNat + (2#16).toNat) ∧
      s.cfg.images.length ≤ (2#16).toNat := by
  refine ⟨by decide, ⟨_, rfl, by decide⟩, by decide, by decide⟩

/-- Both ends of the range of `e`. -/
theorem witness_EdgeFunctionIsTheFixedPointRoot : 0 ≤ 6 ∧ 6 ≤ 6 := by decide

/-- Two offsets up to the radius, and a radius of 1. -/
theorem witness_OctantStepsAreAnInitialSegment : 3 ≤ 6 ∧ 6 ≤ 6 ∧ 1 ≤ 1 := by decide

/-- Step 4 of vector RR14: before, at and past the boundary. -/
theorem witness_ScanColourFollowsTheCoverage : 3 < xi 6 4 ∧ 4 = xi 6 4 ∧ xi 6 4 < 5 := by decide

/-- RR9 to RR13, each failing test alone. -/
theorem witness_RrectPreconditionRaisesFPrecond :
    let pre := fun x0 y0 x1 y1 r : Nat =>
      x0 ≤ x1 ∧ x1 ≤ (blank 8 8 0x111).cfg.w ∧ y0 ≤ y1 ∧ y1 ≤ (blank 8 8 0x111).cfg.h ∧ 1 ≤ r ∧
        2 * (r : Int) ≤ (x1 : Int) - x0 ∧ 2 * (r : Int) ≤ (y1 : Int) - y0
    ¬ pre 0 0 8 8 5 ∧ ¬ pre 0 0 8 8 0 ∧ ¬ pre 0 0 9 8 2 ∧ ¬ pre 6 0 2 8 1 ∧ ¬ pre 0 0 8 1 1 ∧ ¬ pre 0 0 8 9 1 ∧
      ¬ pre 0 6 8 2 1 := by decide

/-- Vector RR8, whose radius is the greatest its height allows. -/
theorem witness_RrectPaintsTheRoundedRectangle :
    let s := blank 12 6 0x111
    (2#16).toNat ≤ (12#16).toNat ∧ (12#16).toNat ≤ s.cfg.w ∧ (0#16).toNat ≤ (6#16).toNat ∧ (6#16).toNat ≤ s.cfg.h ∧
      1 ≤ (3#16).toNat ∧ 2 * (3#16).toNat ≤ (12#16).toNat - (2#16).toNat ∧
      2 * (3#16).toNat ≤ (6#16).toNat - (0#16).toNat := by decide

/-- Vector RR6, on a screen of one colour; the last offsets of the rectangle, which is square. -/
theorem witness_RrectIsItsOwnMirror :
    let s := blank 4 4 0x111
    (0#16).toNat ≤ (4#16).toNat ∧ (4#16).toNat ≤ s.cfg.w ∧ (4#16).toNat ≤ s.cfg.h ∧ 1 ≤ (2#16).toNat ∧
      2 * (2#16).toNat ≤ (4#16).toNat - (0#16).toNat ∧ (∀ x y, x < s.cfg.w → y < s.cfg.h → s.pixel x y = 0x111) ∧
      3 < (4#16).toNat - (0#16).toNat ∧ (4#16).toNat - (0#16).toNat = (4#16).toNat - (0#16).toNat := by
  refine ⟨by decide, by decide, by decide, by decide, by decide, ?_, by decide, by decide⟩
  have h : ∀ x < 4, ∀ y < 4, (blank 4 4 0x111).pixel x y = 0x111 := by decide
  exact fun x y hx hy => h x hx y hy

/-- The reserved `ALIGN`; a font that is there with an empty text, and with `x0` one past `x1`. -/
theorem witness_DstrNoOpAndReservedAlign :
    let s := blank 8 4 0x111
    ((3 : BitVec 2) = 3) ∧ ((2 : BitVec 2) ≠ 3 ∧ (1#16).toNat < s.cfg.fonts.length ∧ (4#16).toNat < (5#16).toNat) ∧
      ((0 : Coord) = 0) := by decide

/-- A text and a covered character. -/
theorem witness_AppendingACoveredCharacterNeverNarrows :
    ([0x3F] : List CodePoint) ≠ [] ∧ (look fontT0.coverage 0x41).isSome = true := by decide

/-- A text one column wider than the span; one that fits it exactly; odd space left over (vector T2V1). -/
theorem witness_StartColumnFollowsTheAlignment :
    (3 : Int) - 3 < 1 ∧ (7 : Int) ≤ 7 - 0 ∧ (7 : Int) ≤ 12 - 0 := by decide

/-- Vector T2V2, its rows moved to the bottom of the screen: two covered characters and one that is not. -/
theorem witness_DstrPaintsTheText :
    let s := withText (blank 16 4 0x111) [0x31, 0x3F, 0x38]
    let e : FontEntry := ⟨fontT0, true⟩
    let text := [0x31, 0x3F, 0x38]
    let start := textStart 0 (0#16).toNat (12#16).toNat (textWidth e text)
    configWf s.cfg = true ∧ (0 : BitVec 2) ≠ 3 ∧ s.cfg.fonts[(0#16).toNat]? = some e ∧ (3#16) ≠ 0 ∧
      (0#16).toNat ≤ (12#16).toNat ∧ (0#16).toNat + (3#16).toNat ≤ s.cfg.ntxt ∧ s.text (0#16).toNat (3#16).toNat = text ∧
      (∀ k G x, charCovers e text start k G x → 0 ≤ x ∧ x < s.cfg.w) ∧
      ((2#16).toNat : Int) + ((e.font.height : Int) - e.font.topSkip - e.font.bottomSkip) ≤ s.cfg.h ∧
      charCovers e text start 2 ⟨3, 3, 2, 4, 1, 4⟩ 7 ∧ (∀ k G, ¬ charCovers e text start k G 6) := by
  have hs : textStart 0 (0#16).toNat (12#16).toNat (textWidth ⟨fontT0, true⟩ [0x31, 0x3F, 0x38]) = 2 := by decide
  have hcov : ∀ k G x, charCovers ⟨fontT0, true⟩ [0x31, 0x3F, 0x38] 2 k G x →
      (k = 0 ∧ 2 ≤ x ∧ x < 6) ∨ (k = 2 ∧ 7 ≤ x ∧ x < 11) := by
    rintro k G x ⟨cp, g, hk, hg, hG, hlo, hhi⟩
    match k, hk with
    | 0, hk =>
      obtain rfl : (0x31 : CodePoint) = cp := by simpa using hk
      obtain rfl : (0 : Nat) = g := by
        exact Option.some.inj ((show look fontT0.coverage 0x31 = some 0 from by decide).symm.trans hg)
      obtain rfl : (⟨3, 1, 2, 4, 1, 0⟩ : Glyph) = G := by
        exact Option.some.inj
          ((show (glyphTable ⟨fontT0, true⟩)[0]? = some ⟨3, 1, 2, 4, 1, 0⟩ from by decide).symm.trans hG)
      rw [show charColumn ⟨fontT0, true⟩ [0x31, 0x3F, 0x38] 2 0 = 2 from by decide] at hlo hhi
      rw [show (drawnWidth ⟨3, 1, 2, 4, 1, 0⟩ (decide (0 + 1 < ([0x31, 0x3F, 0x38] : List CodePoint).length))) = 4 from by
        decide] at hhi
      omega
    | 1, hk =>
      obtain rfl : (0x3F : CodePoint) = cp := by simpa using hk
      exact absurd ((show look fontT0.coverage 0x3F = none from by decide).symm.trans hg) (by simp)
    | 2, hk =>
      obtain rfl : (0x38 : CodePoint) = cp := by simpa using hk
      obtain rfl : (1 : Nat) = g := by
        exact Option.some.inj ((show look fontT0.coverage 0x38 = some 1 from by decide).symm.trans hg)
      obtain rfl : (⟨3, 3, 2, 4, 1, 4⟩ : Glyph) = G := by
        exact Option.some.inj
          ((show (glyphTable ⟨fontT0, true⟩)[1]? = some ⟨3, 3, 2, 4, 1, 4⟩ from by decide).symm.trans hG)
      rw [show charColumn ⟨fontT0, true⟩ [0x31, 0x3F, 0x38] 2 2 = 7 from by decide] at hlo hhi
      rw [show (drawnWidth ⟨3, 3, 2, 4, 1, 4⟩ (decide (2 + 1 < ([0x31, 0x3F, 0x38] : List CodePoint).length))) = 4 from by
        decide] at hhi
      omega
    | k + 3, hk => simp at hk
  dsimp only
  rw [hs]
  refine ⟨by decide, by decide, rfl, by decide, by decide, by decide, by decide, ?_, by decide,
    ⟨0x38, 1, by decide⟩, ?_⟩
  · intro k G x h
    have hw : (withText (blank 16 4 0x111) [0x31, 0x3F, 0x38]).cfg.w = 16 := rfl
    have := hcov k G x h
    omega
  · intro k G h
    have := hcov k G 6 h
    omega

/-- Vector T2V8, its rows moved so that they pass the bottom of the screen. -/
theorem witness_DstrOfUncoveredTextClearsItsSides :
    let s := withText (blank 16 4 0x111) [0x3F, 0x3F]
    let e : FontEntry := ⟨fontT0, true⟩
    (0 : BitVec 2) ≠ 3 ∧ s.cfg.fonts[(0#16).toNat]? = some e ∧ (2#16) ≠ 0 ∧ (0#16).toNat ≤ (8#16).toNat ∧
      (0#16).toNat + (2#16).toNat ≤ s.cfg.ntxt ∧
      (∀ k, k < (2#16).toNat → look e.font.coverage (s.txtEntry ((0#16).toNat + k)) = none) ∧
      (s.cfg.h : Int) < (3#16).toNat + ((e.font.height : Int) - e.font.topSkip - e.font.bottomSkip) := by decide

/-- A text of width 7 ending at column 6, of font T0. -/
theorem witness_RightAlignedTextWiderThanX1RaisesFOob :
    let s := withText (blank 16 4 0x111) [0x38, 0x38]
    let e : FontEntry := ⟨fontT0, true⟩
    configWf s.cfg = true ∧ s.cfg.fonts[(0#16).toNat]? = some e ∧ (2#16) ≠ 0 ∧ (0#16).toNat ≤ (6#16).toNat ∧
      (0#16).toNat + (2#16).toNat ≤ s.cfg.ntxt ∧ ((6#16).toNat : Int) < textWidth e (s.text (0#16).toNat (2#16).toNat) ∧
      look e.font.coverage (s.txtEntry (0#16).toNat) = some 1 ∧ (glyphTable e)[1]? = some ⟨3, 3, 2, 4, 1, 4⟩ ∧
      0 < (⟨3, 3, 2, 4, 1, 4⟩ : Glyph).height ∧
      0 < drawnWidth ⟨3, 3, 2, 4, 1, 4⟩ (decide (1 < (2#16).toNat)) := by decide

/-- Vector T2V1. -/
theorem witness_DstrIsItsTier1Program :
    let s := withText (blank 16 4 0x111) [0x31, 0x38]
    let e : FontEntry := ⟨fontT0, true⟩
    let start := textStart 0 (0#16).toNat (12#16).toNat (textWidth e (s.text (0#16).toNat (2#16).toNat))
    configWf s.cfg = true ∧ statusFault s.status = false ∧ (0 : BitVec 2) ≠ 3 ∧
      s.cfg.fonts[(0#16).toNat]? = some e ∧ (2#16) ≠ 0 ∧ (0#16).toNat ≤ (12#16).toNat ∧
      (0#16).toNat + (2#16).toNat ≤ s.cfg.ntxt ∧ 0 ≤ start ∧
      start + textWidth e (s.text (0#16).toNat (2#16).toNat) < 2 ^ 16 ∧
      ((1#16).toNat : Int) + (e.font.height - e.font.topSkip - e.font.bottomSkip) < 2 ^ 16 := by decide

/-- Image I0 in the bottom right corner of the screen. -/
theorem witness_DimgPaintsTheImage :
    let s := blank 8 4 0x111
    configWf s.cfg = true ∧ s.cfg.images[(0#16).toNat]? = some imageI0 ∧
      (4#16).toNat + evenUp imageI0.width ≤ s.cfg.w ∧ (2#16).toNat + imageI0.height ≤ s.cfg.h := by decide

/-- Each clause at its boundary: a first pixel one past the right edge and one past the bottom; vector T2V15 and the
first column off the screen; rows past the bottom, the columns ending at the edge; an image without columns. -/
theorem witness_DimgOverTheEdgeRaisesFOob :
    let s := blank 8 4 0x111
    configWf s.cfg = true ∧ s.cfg.images[(0#16).toNat]? = some imageI0 ∧ 0 < imageI0.height ∧ 0 < evenUp imageI0.width ∧
      (s.cfg.w < (9#16).toNat ∧ s.cfg.h ≤ (4#16).toNat) ∧
      ((0#16).toNat < s.cfg.h ∧ (5#16).toNat ≤ s.cfg.w ∧ s.cfg.w < (5#16).toNat + evenUp imageI0.width ∧
        (8#16).toNat ≤ s.cfg.w ∧ s.cfg.w < (8#16).toNat + evenUp imageI0.width) ∧
      ((3#16).toNat < s.cfg.h ∧ (4#16).toNat + evenUp imageI0.width ≤ s.cfg.w ∧
        s.cfg.h < (3#16).toNat + imageI0.height) ∧
      configWf { s.cfg with images := [⟨0, 2, false, []⟩] } = true ∧ evenUp (⟨0, 2, false, []⟩ : Image).width = 0 := by
  decide

/-- Image I0 centred as far up and left as it goes; on the screen; and one column, one row further. -/
theorem witness_DimgcIsDimgAroundTheCentre :
    let s := blank 8 4 0x111
    let m := imageI0
    configWf s.cfg = true ∧ s.cfg.images[(0#16).toNat]? = some m ∧ 1 ≤ m.width ∧ 1 ≤ m.height ∧
      (m.width / 2 ≤ (1#16).toNat ∧ m.height / 2 ≤ (1#16).toNat ∧
        (1#16).toNat - m.width / 2 + evenUp m.width ≤ s.cfg.w ∧ (1#16).toNat - m.height / 2 + m.height ≤ s.cfg.h) ∧
      (configWf { s.cfg with images := [⟨0, 2, false, []⟩] } = true ∧ (⟨0, 2, false, []⟩ : Image).width = 0) ∧
      (0#16).toNat < m.width / 2 ∧ (0#16).toNat < m.height / 2 := by decide

end Sys2Proof.Tests
end

section
/-!
PROOF. The scope of the model: the configurations that are none of this hardware (00_scope.md).
-/

namespace Sys2Proof.Machine

/-- Settles O17: the step tests the configuration before it looks at the host's next move (00_scope.md R7), so the
refusal rests on nothing else of the state. -/
theorem illFormedConfigurationIsRefused : Obligations.IllFormedConfigurationIsRefused := by
  intro s hc
  exact step_illFormed hc

end Sys2Proof.Machine
end

section
/-!
PROOF. The layer the state's statements rest on: the invariant field by field and what keeps it, what a write to CMD
and a write to TXTW lead to on an idle block, the byte decoder on the bytes of a record, and what each command does
to RES (10_state.md R26 to R29, R36; 30_encoding.md R83).
-/

namespace Sys2Proof.Machine

variable {s t : State}

/-! ## The invariant -/

theorem State.inv_iff (s : State) : s.inv = true ↔
    configWf s.cfg = true ∧ Memory.wf s.fbBytes s.fb = true ∧ cellsWf s.cfg.ntxt s.txt = true ∧
      statusLegal s.status = true ∧ (statusFcode s.status = 3 ∨ s.finfo = 0) := by
  simp [State.inv, and_assoc]

/-- The host's side is no part of the invariant. -/
@[simp] theorem State.inv_withHost (s : State) (rest : List HostMove) : State.inv { s with host := rest } = s.inv := rfl

@[simp] theorem State.inv_withHost_portOut (s : State) (rest : List HostMove) (v : BitVec 32) :
    State.inv { s with host := rest, portOut := v } = s.inv := rfl

/-- `RES` holds any value in the invariant. -/
@[simp] theorem State.inv_setRes (s : State) (v : BitVec 32) : (s.setRes v).inv = s.inv := rfl

theorem State.inv_withFb (h : s.inv = true) {m : List Host.Cell} (hm : Memory.wf s.fbBytes m = true) :
    State.inv { s with fb := m } = true := by
  obtain ⟨hcfg, -, htxt, hst, hfi⟩ := s.inv_iff.1 h
  exact (State.inv_iff _).2 ⟨hcfg, hm, htxt, hst, hfi⟩

/-- What each fault leaves in STATUS and FINFO (60_exceptions.md R231, R238). -/
theorem status_finfo_ofFault (f : BlockFault) :
    (statusOfFault f = 0x12 ∧ finfoOfFault f = 0) ∨ (statusOfFault f = 0x22 ∧ finfoOfFault f = 0) ∨
      statusOfFault f = 0x32 ∨ (statusOfFault f = 0x42 ∧ finfoOfFault f = 0) := by
  cases f with
  | illegal => exact .inl ⟨rfl, rfl⟩
  | precond => exact .inr (.inl ⟨rfl, rfl⟩)
  | oob x y => exact .inr (.inr (.inl (by simp [statusOfFault, faultCode])))
  | asset => exact .inr (.inr (.inr ⟨rfl, rfl⟩))

theorem statusLegal_statusOfFault (f : BlockFault) : statusLegal (statusOfFault f) = true := by
  obtain ⟨h, -⟩ | ⟨h, -⟩ | h | ⟨h, -⟩ := status_finfo_ofFault f <;> rw [h] <;> decide

/-- Fault entry leaves `FINFO` 0 unless the code is that of F_OOB (10_state.md R28). -/
theorem statusFcode_eq_oob_or_finfo_eq_zero (f : BlockFault) :
    statusFcode (statusOfFault f) = 3 ∨ finfoOfFault f = 0 := by
  obtain ⟨-, h⟩ | ⟨-, h⟩ | h | ⟨-, h⟩ := status_finfo_ofFault f
  · exact .inr h
  · exact .inr h
  · exact .inl (by rw [h]; decide)
  · exact .inr h

theorem State.inv_raise (h : s.inv = true) (f : BlockFault) : (s.raise f).inv = true := by
  obtain ⟨hcfg, hfb, htxt, -, -⟩ := s.inv_iff.1 h
  exact (State.inv_iff _).2 ⟨hcfg, hfb, htxt, statusLegal_statusOfFault f, statusFcode_eq_oob_or_finfo_eq_zero f⟩

theorem State.inv_txtWrite (h : s.inv = true) {k : Nat} (hk : k < s.cfg.ntxt) (v : CodePoint) :
    (s.txtWrite k v).inv = true := by
  obtain ⟨hcfg, hfb, htxt, hst, hfi⟩ := s.inv_iff.1 h
  exact (State.inv_iff _).2 ⟨hcfg, hfb, cellsWf_cellsWrite v htxt hk, hst, hfi⟩

theorem State.inv_txtwWrite (h : s.inv = true) (w : BitVec 32) : (s.txtwWrite w).inv = true := by
  unfold State.txtwWrite
  split
  · next hk => exact State.inv_txtWrite h hk _
  · exact h

theorem State.inv_resetWith {c : Config} (h : configWf c = true) (d : Nat) : (State.resetWith c d).inv = true :=
  (State.inv_iff _).2 ⟨h, memory_wf_reset .., rfl, rfl, .inr rfl⟩

theorem State.inv_applyReset (h : configWf s.cfg = true) : s.applyReset.inv = true :=
  State.inv_resetWith h (s.draw + 1)

/-- Every command keeps the invariant. -/
theorem ExecShape.inv (hx : ExecShape s t) (h : s.inv = true) : t.inv = true := by
  obtain ⟨hcfg, hfb, -⟩ := s.inv_iff.1 h
  have hw : s.cfg.w % 2 = 0 := (configWf_dims hcfg).1.1
  cases hx with
  | fb m hm => exact State.inv_withFb h (hm hw hfb)
  | fault m f hm => exact State.inv_raise (State.inv_withFb h (hm hw hfb)) f
  | res v => exact (s.inv_setRes v).trans h

/-! ## What a command changes -/

/-- A command changes FB, STATUS, RES and FINFO alone (10_state.md R20). -/
theorem ExecShape.frame (hx : ExecShape s t) :
    t = { s with fb := t.fb, status := t.status, res := t.res, finfo := t.finfo } := by
  cases hx <;> rfl

theorem ExecShape.cfg (hx : ExecShape s t) : t.cfg = s.cfg := by
  cases hx <;> rfl

/-! ## Writes to CMD and TXTW -/

/-- On an idle, unfaulted block a legal record written to CMD starts its command (10_state.md R29). -/
theorem writeCmd_run {r : Record} {i : Instr} (hf : statusFault s.status = false) (hb : statusBusy s.status = false)
    (hd : decodeRecord r = .ok i) : s.writeCmd r = .run i s := by
  simp [State.writeCmd, hf, hb, hd]

/-- Where the block is idle and unfaulted, placing a record adds the move alone. -/
theorem withCommand_idle (r : Record) (hf : statusFault s.status = false) (hb : statusBusy s.status = false) :
    s.withCommand r = { s with host := .writeCmd r :: s.host } := by
  simp [State.withCommand, hf, hb]

/-- A TXTW word by its fields: index in bits 31:16, value in bits 15:0 (10_state.md R29). -/
theorem txtwWrite_append (s : State) (index value : BitVec 16) :
    s.txtwWrite (index ++ value) = if index.toNat < s.cfg.ntxt then s.txtWrite index.toNat value else s := by
  have hi : (index ++ value).extractLsb' 16 16 = index := BitVec.extractLsb'_append_eq_left
  have hv : (index ++ value).extractLsb' 0 16 = value := BitVec.extractLsb'_append_eq_right
  rw [State.txtwWrite, hi, hv]

@[simp] theorem State.txtwWrite_cfg (s : State) (w : BitVec 32) : (s.txtwWrite w).cfg = s.cfg := by
  unfold State.txtwWrite; split <;> rfl

@[simp] theorem State.txtwWrite_res (s : State) (w : BitVec 32) : (s.txtwWrite w).res = s.res := by
  unfold State.txtwWrite; split <;> rfl

/-! ## What each command does to RES -/

/-- RPX returns the pixel in RES when it is on the screen (40_pixel_writer.md R112). -/
theorem rpx_res {x y : Coord} (h : exec (.rpx x y) s = .next t) :
    t.res = if x.toNat < s.cfg.w ∧ y.toNat < s.cfg.h then (s.pixel x.toNat y.toNat).setWidth 32 else s.res := by
  cases h
  by_cases hin : x.toNat < s.cfg.w ∧ y.toNat < s.cfg.h
  · rw [if_pos ((inBounds_op x y).2 hin), if_pos hin, State.setRes_res, State.pixel, opInt, opInt, linear_nat]
  · rw [if_neg (mt (inBounds_op x y).1 hin), if_neg hin, State.raise_res]

/-- `found` in bit 16 and the index in bits 15:0, as a number; 0 when nothing is found (10_state.md R27). -/
theorem lookupResult_eq (o : Option Nat) :
    lookupResult o = match o with
      | none => 0
      | some g => BitVec.ofNat 32 (2 ^ 16 + g % 2 ^ 16) := by
  cases o with
  | none => rfl
  | some g =>
    apply BitVec.eq_of_toNat_eq
    have hg : g % 2 ^ 16 < 2 ^ 16 := Nat.mod_lt _ (by decide)
    simp only [lookupResult, BitVec.toNat_append, BitVec.toNat_ofNat]
    rw [← Nat.shiftLeft_add_eq_or_of_lt hg, Nat.shiftLeft_eq]
    omega

/-- LOOKUP of a font that is there writes RES (41_glyph_decoder.md R142). -/
theorem lookup_res {font : Coord} {cp : CodePoint} (h : exec (.lookup font cp) s = .next t) :
    t.res = match s.cfg.fonts[font.toNat]? with
      | none => s.res
      | some e => match look e.font.coverage cp with
        | none => 0
        | some g => BitVec.ofNat 32 (2 ^ 16 + g % 2 ^ 16) := by
  cases h
  rw [State.font?]
  cases s.cfg.fonts[font.toNat]? with
  | none => rfl
  | some e => exact lookupResult_eq (look e.font.coverage cp)

/-- GPIX of a glyph that is there writes RES (41_glyph_decoder.md R144). -/
theorem gpix_res {font glyph gx gy : Coord} (h : exec (.gpix font glyph gx gy) s = .next t) :
    t.res = match s.cfg.fonts[font.toNat]? with
      | none => s.res
      | some e => match (glyphTable e)[glyph.toNat]? with
        | none => s.res
        | some G => match gint e.font.blob G gx.toNat gy.toNat with
          | none => s.res
          | some v => v.setWidth 32 := by
  cases h
  rw [State.font?]
  cases s.cfg.fonts[font.toNat]? with
  | none => rfl
  | some e =>
    cases hG : (glyphTable e)[glyph.toNat]? with
    | none => simp only [hG, State.raise_res]
    | some G =>
      simp only [hG, opInt]
      cases gint e.font.blob G gx.toNat gy.toNat <;> rfl

/-- Every command but RPX, GPIX and LOOKUP leaves RES, a faulting one included (10_state.md R27). -/
theorem exec_res_unchanged {i : Instr} (h : exec i s = .next t)
    (hi : i.opcode ≠ .rpx ∧ i.opcode ≠ .gpix ∧ i.opcode ≠ .lookup) : t.res = s.res := by
  obtain ⟨hrpx, hgpix, hlookup⟩ := hi
  cases i with
  | rpx x y => exact absurd rfl hrpx
  | gpix font glyph gx gy => exact absurd rfl hgpix
  | lookup font cp => exact absurd rfl hlookup
  | wpxu x y c => cases h; exact runMicro_res ..
  | wpx x y c => cases h; split; exacts [rfl, runMicro_res ..]
  | fill c => cases h; rfl
  | frect x0 y0 x1 y1 c => cases h; exact runMicro_res ..
  | dglyph font glyph x y wob sp => cases h; split; exacts [rfl, runMicro_res ..]
  | rrect x0 y0 x1 y1 wob rl rr radius => cases h; split; exacts [runMicro_res .., rfl]
  | dstr toff tlen x0 y0 x1 font wob clear align =>
    cases h
    split
    · rfl
    · split
      · rfl
      · split
        · rfl
        · split
          · rfl
          · exact runMicro_res ..
  | dimg image x y => cases h; split; exacts [rfl, runMicro_res ..]
  | dimgc image cx cy => cases h; split; exacts [rfl, runMicro_res ..]

/-- A step whose move is neither a write to CMD nor RESET leaves RES (10_state.md R27). -/
theorem step_res_unchanged (h : step s = .next t) (hcmd : ∀ r, s.host.head? ≠ some (.writeCmd r))
    (hreset : s.host.head? ≠ some .reset) : t.res = s.res := by
  obtain ⟨-, ⟨-, rfl⟩ | ⟨m, rest, hh, hm⟩⟩ := step_cases h
  · rfl
  · rw [hh, List.head?_cons] at hreset
    simp only [hh, List.head?_cons] at hcmd
    obtain ⟨-, -, rfl⟩ | ⟨-, -, rfl⟩ | ⟨r, i, rfl, -⟩ | ⟨w, -, -, -, rfl⟩ | ⟨p, -, rfl⟩ | ⟨rfl, -⟩ := hm
    · rfl
    · rfl
    · exact absurd rfl (hcmd r)
    · exact State.txtwWrite_res ..
    · rfl
    · exact absurd rfl hreset

end Sys2Proof.Machine

namespace Sys2Proof

/-- The sixteen bytes of a record, most significant first, are the record (30_encoding.md R83). -/
theorem append_recordBytes (r : Record) :
    (recordByte r 15 ++ recordByte r 14 ++ recordByte r 13 ++ recordByte r 12 ++ recordByte r 11 ++ recordByte r 10 ++
      recordByte r 9 ++ recordByte r 8 ++ recordByte r 7 ++ recordByte r 6 ++ recordByte r 5 ++ recordByte r 4 ++
      recordByte r 3 ++ recordByte r 2 ++ recordByte r 1 ++ recordByte r 0 : Record) = r := by
  simp only [recordByte]
  iterate 15 rw [extract_join r _ _ 8]
  exact extract_all r

/-- The byte decoder on the bytes of a record decodes the record (30_encoding.md R83). -/
theorem decodeBytes_recordBytes (r : Record) :
    decodeBytes (recordBytes r) = (decodeRecord r).map fun i => (i, []) := by
  have h := congrArg decodeRecord (append_recordBytes r)
  show (match decodeRecord _ with | .ok i => _ | .error why => _) = _
  rw [h]
  cases decodeRecord r <;> rfl

/-- A word of the table decodes as its record does. -/
theorem decodeTableWord_eq_some {nbits w : Nat} {i : Instr} :
    decodeTableWord nbits w = some i ↔ decodeRecord (tableRecord nbits w) = .ok i := by
  rw [decodeTableWord, decodeBytes_recordBytes]
  cases decodeRecord (tableRecord nbits w) <;> simp [Except.map]

end Sys2Proof
end

section
/-!
PROOF. The state (10_state.md): the invariant of the whole machine, what a command changes, the host's ports and
what reset leaves.
-/

namespace Sys2Proof.Machine

/-- Settles O19: a step is one of the moves of `step_cases`, and each of them keeps the invariant; a command because it
changes FB canonically, takes a fault or writes RES. -/
theorem stepKeepsTheInvariant : Obligations.StepKeepsTheInvariant := by
  intro s t hs h
  obtain ⟨hc, ⟨-, rfl⟩ | ⟨m, rest, -, hm⟩⟩ := step_cases h
  · exact hs
  · have hs' := (s.inv_withHost rest).trans hs
    obtain ⟨-, -, rfl⟩ | ⟨-, -, rfl⟩ | ⟨r, i, -, -, -, -, hx⟩ | ⟨w, -, -, -, rfl⟩ | ⟨p, -, rfl⟩ | ⟨-, rfl⟩ := hm
    · exact hs'
    · exact State.inv_raise hs' _
    · exact (exec_cases hx).inv hs'
    · exact State.inv_txtwWrite hs' w
    · exact (s.inv_withHost_portOut rest _).trans hs
    · exact State.inv_applyReset hc

/-- Settles O20: by what each move of a step and each command can do. -/
theorem nothingButTheArchitecturalStateChanges : Obligations.NothingButTheArchitecturalStateChanges := by
  refine ⟨fun s t h => ?_, fun i s t h => (exec_cases h).frame⟩
  obtain ⟨-, ⟨-, rfl⟩ | ⟨m, rest, -, hm⟩⟩ := step_cases h
  · rfl
  · obtain ⟨-, -, rfl⟩ | ⟨-, -, rfl⟩ | ⟨r, i, -, -, -, -, hx⟩ | ⟨w, -, -, -, rfl⟩ | ⟨p, -, rfl⟩ | ⟨-, rfl⟩ := hm
    · rfl
    · rfl
    · exact (exec_cases hx).cfg
    · exact State.txtwWrite_cfg ..
    · rfl
    · rfl

/-- Settles O21: the three commands that write RES by their own lemma, every other one by `exec_res_unchanged`. -/
theorem resIsWrittenByThreeCommands : Obligations.ResIsWrittenByThreeCommands := by
  refine ⟨fun s t => step_res_unchanged, rfl, fun s rest hc hh => step_readRegister hc hh (by simp), fun i s t h => ?_⟩
  cases i with
  | rpx x y => exact rpx_res h
  | gpix font glyph gx gy => exact gpix_res h
  | lookup font cp => exact lookup_res h
  | _ => exact exec_res_unchanged h (by simp [Instr.opcode])

/-- Settles O22: a command that takes no fault writes neither register. -/
theorem statusAndFinfoChangeByFaultEntryOnly : Obligations.StatusAndFinfoChangeByFaultEntryOnly := by
  intro i s t h
  cases exec_cases h with
  | fb m hm => exact .inl ⟨rfl, rfl⟩
  | res v => exact .inl ⟨rfl, rfl⟩
  | fault m f hm => exact .inr ⟨rfl, rfl, status_finfo_ofFault f⟩

/-- Settles O7: the write to CMD leads to the command, which the step runs on the state with the move taken off. -/
theorem stepRunsTheDecodedCommand : Obligations.StepRunsTheDecodedCommand := by
  intro s r rest i hc hf hb hh hd
  rw [step_writeCmd hc hh, writeCmd_run (s := { s with host := rest }) hf hb hd]

/-- Settles O8: placing the word adds one move to the host's list, and the step takes it off again. -/
theorem fetchedWordIsRunNext : Obligations.FetchedWordIsRunNext := by
  intro s nbits w i hc hf hb hd
  rw [State.withFetchWord, withCommand_idle _ hf hb]
  exact stepRunsTheDecodedCommand _ _ s.host i hc hf hb rfl (decodeTableWord_eq_some.1 hd)

/-- Settles O12: the two sides of `index < NTXT`. -/
theorem txtwWriteStoresOneEntry : Obligations.TxtwWriteStoresOneEntry := by
  intro s index value rest hc hf hb hh
  refine ⟨State.txtwWrite { s with host := rest } (index ++ value), ?_, ?_⟩
  · rw [step_writeTxtw hc hh, hf, hb]; rfl
  · rw [txtwWrite_append]
    split
    · next hlt =>
      exact ⟨rfl, fun _ => ⟨txtEntry_txtWrite_same .., fun k hk => txtEntry_txtWrite_other _ hk⟩,
        fun hge => absurd hlt (Nat.not_lt.2 hge)⟩
    · next hge => exact ⟨rfl, fun hlt => absurd hlt hge, fun _ => rfl⟩

/-- Settles O13: a register read by `step_readRegister`, a read of FBR by `step_fbr`. -/
theorem portReadsReturnThePorts : Obligations.PortReadsReturnThePorts := by
  intro s p rest hc hh
  cases p with
  | fbr a => intro hb; rw [step_fbr hc hh, hb]; rfl
  | _ => exact step_readRegister hc hh (by simp)

/-- Settles O15: nothing is listed after reset, so FB and TXT read as the draw; a screen side fits 32 bits. -/
theorem resetLeavesTheStatedValues : Obligations.ResetLeavesTheStatedValues := by
  intro c d hc
  obtain ⟨⟨-, -, hw⟩, -, -, hh⟩ := configWf_dims hc
  have hw' : c.w < 2 ^ 32 := by omega
  have hh' : c.h < 2 ^ 32 := by omega
  refine ⟨rfl, rfl, rfl, ?_, ?_, fun _ => rfl, fun _ => rfl⟩
  · exact (BitVec.toNat_ofNat ..).trans (Nat.mod_eq_of_lt hw')
  · exact (BitVec.toNat_ofNat ..).trans (Nat.mod_eq_of_lt hh')

/-- Settles O18: nothing is listed after reset, STATUS is idle and FINFO 0. -/
theorem invariantHoldsAtReset : Obligations.InvariantHoldsAtReset :=
  ⟨fun _ d hc => State.inv_resetWith hc d, State.inv_resetWith (by decide) 0⟩

end Sys2Proof.Machine
end

section
/-!
PROOF. The layer the statements on FB rest on: a byte and a colour put together by shifts and masks, the stream of
nibbles by bytes, the bytes a pixel write leaves, and WPXU on the screen as one pixel write (20_memory.md R53 to R58).
-/

namespace Sys2Proof.Machine

variable {s : State}

/-! ## Shifts and masks -/

/-- Appending is a shift and an or. -/
theorem append_eq_shiftLeft_or {m n : Nat} (h : BitVec m) (l : BitVec n) :
    h ++ l = (h.setWidth (m + n) <<< n) ||| l.setWidth (m + n) := by
  rw [← BitVec.setWidth_append_eq_shiftLeft_setWidth_or, BitVec.setWidth_eq]

theorem shiftLeft_or_eq_pack (h l : Nibble) : (h.setWidth 8 <<< 4) ||| l.setWidth 8 = pack h l :=
  (append_eq_shiftLeft_or h l).symm

theorem setWidth_eq_pack (n : Nibble) : n.setWidth 8 = pack 0#4 n :=
  BitVec.setWidth_eq_append (by decide)

theorem pack_and_pack (h l h' l' : Nibble) : pack h l &&& pack h' l' = pack (h &&& h') (l &&& l') :=
  BitVec.and_append

theorem pack_or_pack (h l h' l' : Nibble) : pack h l ||| pack h' l' = pack (h ||| h') (l ||| l') :=
  BitVec.or_append

theorem pack_and_0x0F (h l : Nibble) : pack h l &&& 0x0F = l.setWidth 8 := by
  rw [show (0x0F : Byte) = pack 0#4 (BitVec.allOnes 4) from rfl, pack_and_pack, BitVec.and_zero, BitVec.and_allOnes,
    setWidth_eq_pack]

theorem pack_and_0xF0_or (h l n : Nibble) : (pack h l &&& 0xF0) ||| n.setWidth 8 = pack h n := by
  rw [show (0xF0 : Byte) = pack (BitVec.allOnes 4) 0#4 from rfl, pack_and_pack, setWidth_eq_pack, pack_or_pack,
    BitVec.and_allOnes, BitVec.or_zero, BitVec.and_zero, BitVec.zero_or]

theorem and_0x0F_eq_setWidth_loNib (b : Byte) : b &&& 0x0F = (loNib b).setWidth 8 := by
  conv_lhs => rw [byte_eq_pack b, pack_and_0x0F]

theorem and_0xF0_or_eq_pack (b : Byte) (n : Nibble) : (b &&& 0xF0) ||| n.setWidth 8 = pack (hiNib b) n := by
  conv_lhs => rw [byte_eq_pack b, pack_and_0xF0_or]

theorem setWidth_and_0x0F (b : Byte) : b.setWidth 12 &&& 0x0F = (loNib b).setWidth 12 := by
  have h := congrArg (BitVec.setWidth 12) (and_0x0F_eq_setWidth_loNib b)
  rwa [BitVec.setWidth_and, BitVec.setWidth_setWidth (by decide)] at h

theorem setWidth_ushiftRight_four (b : Byte) : b.setWidth 12 >>> 4 = (hiNib b).setWidth 12 := by
  apply BitVec.eq_of_toNat_eq
  have hb := b.isLt
  simp only [hiNib, BitVec.toNat_ushiftRight, BitVec.toNat_setWidth, BitVec.extractLsb'_toNat, Nat.shiftRight_eq_div_pow]
  omega

/-- The colour of the even pixel of a pair by its two bytes (20_memory.md R57). -/
theorem rgb_eq_shiftLeft_or_ushiftRight (a b : Byte) :
    rgb (hiNib a) (loNib a) (hiNib b) = (a.setWidth 12 <<< 4) ||| (b.setWidth 12 >>> 4) := by
  rw [setWidth_ushiftRight_four]
  calc rgb (hiNib a) (loNib a) (hiNib b) = a ++ hiNib b := congrArg (· ++ hiNib b) (byte_eq_pack a).symm
    _ = _ := append_eq_shiftLeft_or a (hiNib b)

/-- The colour of the odd pixel of a pair by its two bytes (20_memory.md R57). -/
theorem rgb_eq_and_shiftLeft_or (a b : Byte) :
    rgb (loNib a) (hiNib b) (loNib b) = ((a.setWidth 12 &&& 0x0F) <<< 8) ||| b.setWidth 12 := by
  rw [setWidth_and_0x0F]
  calc rgb (loNib a) (hiNib b) (loNib b) = loNib a ++ pack (hiNib b) (loNib b) := BitVec.append_assoc
    _ = loNib a ++ b := congrArg (loNib a ++ ·) (byte_eq_pack b).symm
    _ = _ := append_eq_shiftLeft_or (loNib a) b

/-! ## Nibbles and pixels by bytes -/

theorem nibble_eq_hiNib {m n : Nat} (h : m = 2 * n) : s.nibble m = hiNib (s.fbByte n) := by
  rw [State.nibble, if_pos (by omega), show m / 2 = n by omega]

theorem nibble_eq_loNib {m n : Nat} (h : m = 2 * n + 1) : s.nibble m = loNib (s.fbByte n) := by
  rw [State.nibble, if_neg (by omega), show m / 2 = n by omega]

/-- The even pixel of pair `k` (20_memory.md R57). -/
theorem pixelAt_even (s : State) (k : Nat) :
    s.pixelAt (2 * k) = ((s.fbByte (3 * k)).setWidth 12 <<< 4) ||| ((s.fbByte (3 * k + 1)).setWidth 12 >>> 4) := by
  rw [State.pixelAt, if_pos (by omega), show 2 * k / 2 = k by omega, rgb_eq_shiftLeft_or_ushiftRight]

/-- The odd pixel of pair `k` (20_memory.md R57). -/
theorem pixelAt_odd (s : State) (k : Nat) :
    s.pixelAt (2 * k + 1) =
      (((s.fbByte (3 * k + 1)).setWidth 12 &&& 0x0F) <<< 8) ||| (s.fbByte (3 * k + 2)).setWidth 12 := by
  rw [State.pixelAt, if_neg (by omega), show (2 * k + 1) / 2 = k by omega, rgb_eq_and_shiftLeft_or]

/-! ## The bytes a pixel write leaves -/

theorem wholeByte_even (k : Nat) : wholeByte (2 * k) = 3 * k := by
  unfold wholeByte; split <;> omega

theorem wholeByte_odd (k : Nat) : wholeByte (2 * k + 1) = 3 * k + 2 := by
  unfold wholeByte; split <;> omega

theorem sharedByte_even (k : Nat) : sharedByte (2 * k) = 3 * k + 1 := by
  unfold sharedByte; omega

theorem sharedByte_odd (k : Nat) : sharedByte (2 * k + 1) = 3 * k + 1 := by
  unfold sharedByte; omega

/-- The three bytes of pair `k` after a write of its even pixel (20_memory.md R55). -/
theorem fbByte_setPixel_even (s : State) (k : Nat) (c : Colour) :
    (s.setPixel (2 * k) c).fbByte (3 * k) = pack (chanR c) (chanG c) ∧
      (s.setPixel (2 * k) c).fbByte (3 * k + 1) = pack (chanB c) (loNib (s.fbByte (3 * k + 1))) ∧
      (s.setPixel (2 * k) c).fbByte (3 * k + 2) = s.fbByte (3 * k + 2) := by
  have hwhole := fbByte_setPixel_whole (s := s) (2 * k) c
  have hshared := fbByte_setPixel_shared (s := s) (2 * k) c
  rw [wholeByte_even, wholeValue, if_pos (by omega)] at hwhole
  rw [sharedByte_even, sharedValue, if_pos (by omega)] at hshared
  exact ⟨hwhole, hshared,
    fbByte_setPixel_other c (by rw [wholeByte_even]; omega) (by rw [sharedByte_even]; omega)⟩

/-- The three bytes of pair `k` after a write of its odd pixel (20_memory.md R56). -/
theorem fbByte_setPixel_odd (s : State) (k : Nat) (c : Colour) :
    (s.setPixel (2 * k + 1) c).fbByte (3 * k + 1) = pack (hiNib (s.fbByte (3 * k + 1))) (chanR c) ∧
      (s.setPixel (2 * k + 1) c).fbByte (3 * k + 2) = pack (chanG c) (chanB c) ∧
      (s.setPixel (2 * k + 1) c).fbByte (3 * k) = s.fbByte (3 * k) := by
  have hwhole := fbByte_setPixel_whole (s := s) (2 * k + 1) c
  have hshared := fbByte_setPixel_shared (s := s) (2 * k + 1) c
  rw [wholeByte_odd, wholeValue, if_neg (by omega)] at hwhole
  rw [sharedByte_odd, sharedValue, if_neg (by omega)] at hshared
  exact ⟨hshared, hwhole,
    fbByte_setPixel_other c (by rw [wholeByte_odd]; omega) (by rw [sharedByte_odd]; omega)⟩

/-! ## One pixel of the screen -/

/-- WPXU on the screen is one pixel write (40_pixel_writer.md R110). -/
theorem exec_wpxu_onScreen {x y : Coord} (c : Colour) (hx : x.toNat < s.cfg.w) (hy : y.toNat < s.cfg.h) :
    exec (.wpxu x y c) s = .next (s.setPixel (y.toNat * s.cfg.w + x.toNat) c) := by
  show Host.Outcome.next (runMicro [.wpxu (opInt x) (opInt y) c] s) = _
  rw [runMicro, if_pos ((inBounds_op x y).2 ⟨hx, hy⟩), runMicro, opInt, opInt, linear_nat]

/-- A pixel write paints the pixel (20_memory.md R58). -/
theorem paints_setPixel {x y : Nat} (c : Colour) (hx : x < s.cfg.w) :
    paints s (s.setPixel (y * s.cfg.w + x) c) (fun x' y' => x' = x ∧ y' = y) fun _ _ => c := by
  refine ⟨setPixel_onlyFb .., fun a ha => ?_, fun x' y' hx' _ => ⟨?_, fun hne => ?_⟩⟩
  · obtain ⟨hwhole, hshared⟩ := ha x y ⟨rfl, rfl⟩
    exact fbByte_setPixel_other c hwhole hshared
  · rintro ⟨rfl, rfl⟩
    exact pixelAt_setPixel_same ..
  · exact pixelAt_setPixel_other s c fun h => hne (linear_inj hx' hx h)

end Sys2Proof.Machine
end

section
/-!
PROOF. The framebuffer (20_memory.md): the nibbles a pixel owns, and the bytes and nibbles a write of one pixel changes.
-/

namespace Sys2Proof.Machine

/-- Settles O24: WPXU is one pixel write, whose bytes are given by the parity of the linear index. -/
theorem wpxuWritesTheMaskedBytes : Obligations.WpxuWritesTheMaskedBytes := by
  intro s x y c hx hy
  refine ⟨_, exec_wpxu_onScreen c hx hy, paints_setPixel c hx, fun k => ⟨fun heven => ?_, fun hodd => ?_⟩⟩
  · rw [heven, shiftLeft_or_eq_pack, and_0x0F_eq_setWidth_loNib, shiftLeft_or_eq_pack]
    exact fbByte_setPixel_even s k c
  · rw [hodd, shiftLeft_or_eq_pack, and_0xF0_or_eq_pack]
    exact fbByte_setPixel_odd s k c

/-- Settles O28: a byte is the nibbles `2n` and `2n+1`, so the nibbles of pair `k` are those of bytes `3k .. 3k+2`. -/
theorem pixelIsItsThreeNibbles : Obligations.PixelIsItsThreeNibbles := by
  intro s
  refine ⟨pixelAt_eq_nibbles s, fun i j d e hd he h => by omega, fun n => ⟨nibble_eq_hiNib rfl, nibble_eq_loNib rfl⟩,
    fun k => ⟨?_, ?_⟩⟩
  · exact ⟨nibble_eq_hiNib (by omega), nibble_eq_loNib (by omega), nibble_eq_hiNib (by omega), pixelAt_even s k⟩
  · exact ⟨nibble_eq_loNib (by omega), nibble_eq_hiNib (by omega), nibble_eq_loNib (by omega), pixelAt_odd s k⟩

/-- Settles O29: a nibble `n` with `n / 3 ≠ i` is none of the three that pixel `i` owns, and two pixels of the screen
have two linear indices. -/
theorem pixelWriteKeepsEveryOtherNibble : Obligations.PixelWriteKeepsEveryOtherNibble := by
  intro s x y c hx hy
  refine ⟨_, exec_wpxu_onScreen c hx hy, fun n hn => ?_, fun x' y' c' hx' hy' hne =>
    ⟨_, exec_wpxu_onScreen c' hx' hy', ?_, pixelAt_setPixel_same ..⟩⟩
  · rw [nibble_setPixel, if_neg (by omega), if_neg (by omega), if_neg (by omega)]
  · have hidx : y.toNat * s.cfg.w + x.toNat ≠ y'.toNat * s.cfg.w + x'.toNat := fun h => by
      obtain ⟨ex, ey⟩ := linear_inj hx hx' h
      exact hne (Prod.ext (BitVec.eq_of_toNat_eq ex.symm) (BitVec.eq_of_toNat_eq ey.symm))
    exact (pixelAt_setPixel_other _ c' hidx).trans (pixelAt_setPixel_same s _ c)

end Sys2Proof.Machine
end

section
/-!
PROOF. The layer the statements of the encoding rest on: legality by the masks of FLG and by the opcode table's row
(30_encoding.md R82, R84, R86), the encoder on what the decoder builds, and the arms of the assembler (R88).
-/

namespace Sys2Proof

open Machine

/-! ## From a command to its record and back -/

/-- The family EncLegal, put together: every well-formed command has legal fields, which give it back. -/
theorem encodeFields_legal (i : Instr) : Laws.EncLegal.Statement i := by
  cases i with
  | wpxu x y c => exact Laws.EncLegal.wpxu x y c
  | wpx x y c => exact Laws.EncLegal.wpx x y c
  | rpx x y => exact Laws.EncLegal.rpx x y
  | fill c => exact Laws.EncLegal.fill c
  | frect x0 y0 x1 y1 c => exact Laws.EncLegal.frect x0 y0 x1 y1 c
  | lookup font cp => exact Laws.EncLegal.lookup font cp
  | gpix font glyph gx gy => exact Laws.EncLegal.gpix font glyph gx gy
  | dglyph font glyph x y wob sp => exact Laws.EncLegal.dglyph font glyph x y wob sp
  | rrect x0 y0 x1 y1 wob rl rr radius => exact Laws.EncLegal.rrect x0 y0 x1 y1 wob rl rr radius
  | dstr toff tlen x0 y0 x1 font wob clear align =>
    exact Laws.EncLegal.dstr toff tlen x0 y0 x1 font wob clear align
  | dimg image x y => exact Laws.EncLegal.dimg image x y
  | dimgc image cx cy => exact Laws.EncLegal.dimgc image cx cy

theorem decodeRecord_encode {i : Instr} (h : i.wf = true) : decodeRecord (encode i) = .ok i := by
  obtain ⟨hopc, hlegal, hbuild⟩ := encodeFields_legal i h
  rw [decodeRecord, encode, ofRecord_toRecord]
  exact decodeFields_ok.2 ⟨i.opcode, hopc, hlegal, hbuild.symm⟩

/-- A record decodes to a command of an opcode exactly when its fields carry the opcode and are legal under it. -/
theorem decodeRecord_opcode_iff {r : Record} {op : Opcode} :
    (∃ i, decodeRecord r = .ok i ∧ i.opcode = op) ↔
      (Fields.ofRecord r).opc = op.code ∧ op.illegal? (Fields.ofRecord r) = none := by
  simp only [decodeRecord, decodeFields_ok]
  constructor
  · rintro ⟨_, ⟨op', hopc, hlegal, rfl⟩, hop⟩
    rw [opcode_build] at hop
    exact hop ▸ ⟨hopc, hlegal⟩
  · rintro ⟨hopc, hlegal⟩
    exact ⟨_, ⟨op, hopc, hlegal, rfl⟩, opcode_build op _⟩

/-! ## The flags a command uses -/

theorem byte_eq_zero_iff (b : BitVec 8) : b = 0 ↔ b.extractLsb' 6 2 = 0 ∧ b &&& 0b00111111 = 0 := by
  revert b; decide

/-- No flag mask reaches `FLG[7:6]`. -/
theorem extract_and_not_flagMask (op : Opcode) (b : BitVec 8) :
    (b &&& ~~~op.flagMask).extractLsb' 6 2 = b.extractLsb' 6 2 := by
  have h : (~~~op.flagMask).extractLsb' 6 2 = BitVec.allOnes 2 := by cases op <;> rfl
  rw [BitVec.extractLsb'_and, h, BitVec.and_allOnes]

/-- The two conditions of R86 on `FLG` are one: no bit outside the command's flags is set. -/
theorem flg_and_not_flagMask_iff (op : Opcode) (x : Fields) :
    x.flg &&& ~~~op.flagMask = 0 ↔ x.flg.extractLsb' 6 2 = 0 ∧ op.unusedFlagsZero x = true := by
  rw [byte_eq_zero_iff, extract_and_not_flagMask, Opcode.unusedFlagsZero, beq_iff_eq]

theorem and_eq_self_of_and_not {w : Nat} {b m : BitVec w} (h : b &&& ~~~m = 0#w) : b &&& m = b := by
  calc b &&& m = (b &&& m) ||| (b &&& ~~~m) := by rw [h, BitVec.or_zero]
    _ = b := by rw [← BitVec.and_or_distrib_left, BitVec.or_not_self, BitVec.and_allOnes]

/-- `FLG` made again from the subfields each of the three commands with flags uses is `FLG` under its mask. -/
theorem flgOf_eq_and_flagMask (b : BitVec 8) :
    flgOf 0 false false (b.getLsbD 1) (b.getLsbD 0) = b &&& Opcode.flagMask .dglyph ∧
      flgOf 0 (b.getLsbD 3) (b.getLsbD 2) false (b.getLsbD 0) = b &&& Opcode.flagMask .rrect ∧
      flgOf (b.extractLsb' 4 2) false false (b.getLsbD 1) (b.getLsbD 0) = b &&& Opcode.flagMask .dstr := by
  revert b; decide

theorem flg_encodeFields_build (op : Opcode) (x : Fields) :
    (encodeFields (op.build x)).flg = x.flg &&& op.flagMask := by
  obtain ⟨hdglyph, hrrect, hdstr⟩ := flgOf_eq_and_flagMask x.flg
  cases op
  case dglyph => exact hdglyph
  case rrect => exact hrrect
  case dstr => exact hdstr
  all_goals exact BitVec.and_zero.symm

/-! ## From legal fields to a command and back -/

/-- Legal fields are the fields of their command: `FLG` has no bit the command does not use, and what the encoder
leaves blank is zero in them. -/
theorem encodeFields_build {op : Opcode} {x : Fields} (hopc : x.opc = op.code) (hlegal : op.illegal? x = none) :
    encodeFields (op.build x) = x := by
  obtain ⟨hz, hreserved, hfields, hflags, -⟩ := illegal?_none.1 hlegal
  have hflg : (encodeFields (op.build x)).flg = x.flg :=
    (flg_encodeFields_build op x).trans
      (and_eq_self_of_and_not ((flg_and_not_flagMask_iff op x).2 ⟨hreserved, hflags⟩))
  obtain ⟨opc, flg, a, b, c, d, col, z, e, f⟩ := x
  cases op <;> simp_all [Opcode.unusedFieldsZero, Opcode.build, encodeFields, Fields.blank]

theorem wf_build {op : Opcode} {x : Fields} (h : op.illegal? x = none) : (op.build x).wf = true := by
  obtain ⟨-, -, -, -, halign⟩ := illegal?_none.1 h
  cases op
  case dstr => simpa [Opcode.build, Instr.wf] using halign
  all_goals rfl

/-! ## The row of the opcode table -/

theorem record_eq_iff {r q : Record} : r = q ↔ Fields.ofRecord r = Fields.ofRecord q :=
  ⟨congrArg _, record_ext⟩

/-- A field under a mask of ones, at the four widths of R81. -/
theorem field_and_ones :
    (∀ b : BitVec 4, b &&& 0xF#4 = b) ∧ (∀ b : BitVec 8, b &&& 0xFF#8 = b) ∧
      (∀ b : BitVec 12, b &&& 0xFFF#12 = b) ∧ ∀ b : BitVec 16, b &&& 0xFFFF#16 = b :=
  ⟨fun _ => BitVec.and_allOnes, fun _ => BitVec.and_allOnes, fun _ => BitVec.and_allOnes,
    fun _ => BitVec.and_allOnes⟩

/-- A record agrees with an opcode's row field by field: the mask is all ones on the opcode and on what R86 wants
zero, and all zeros on the operands (30_encoding.md R84, R86). -/
theorem tableRow_iff {r : Record} {op : Opcode} :
    r &&& tableMask op = tableMatch op ↔
      (Fields.ofRecord r).opc = op.code ∧ (Fields.ofRecord r).z = 0 ∧
        (Fields.ofRecord r).flg &&& ~~~op.flagMask = 0 ∧ op.unusedFieldsZero (Fields.ofRecord r) = true := by
  rw [record_eq_iff]
  cases op <;>
    simp [Fields.ofRecord, tableMask, tableMatch, BitVec.extractLsb'_and, Opcode.code, Opcode.flagMask,
      Opcode.unusedFieldsZero, field_and_ones, and_assoc, and_left_comm, and_comm]

/-- `ALIGN`, bits 5:4 of `FLG`, is bits 13:12 of the record (30_encoding.md R82). -/
theorem align_ofRecord (r : Record) : (Fields.ofRecord r).align = r.extractLsb' 12 2 := by
  apply BitVec.eq_of_getLsbD_eq
  intro k hk
  simp only [Fields.align, Fields.ofRecord, BitVec.getLsbD_extractLsb', show 4 + k < 8 by omega, decide_true,
    Bool.true_and, show 8 + (4 + k) = 12 + k by omega]

/-! ## The bytes of a record -/

/-- The byte decoder on the bytes of a record and more: the record's answer, and the bytes after it
(30_encoding.md R83). -/
theorem decodeBytes_recordBytes_append (r : Record) (rest : List Byte) :
    decodeBytes (recordBytes r ++ rest) = (decodeRecord r).map fun i => (i, rest) := by
  have h := congrArg decodeRecord (append_recordBytes r)
  show (match decodeRecord _ with | .ok i => _ | .error why => _) = _
  rw [h]
  cases decodeRecord r <;> rfl

/-! ## The assembler -/

theorem eq_of_guardFit {ok : Bool} {i j : Instr} (h : guardFit ok i = some j) : i = j := by
  unfold guardFit at h
  split at h
  · exact Option.some.inj h
  · cases h

theorem dstrOptions_align {options : List Arg} {w c : Bool} {a : BitVec 2}
    (h : dstrOptions options = some (w, c, a)) : ∃ name, a = alignCode name := by
  unfold dstrOptions at h
  split at h <;> cases h <;> exact ⟨_, rfl⟩

/-- No alignment name has the reserved code (30_encoding.md R82). -/
theorem alignCode_ne_three (name : AlignName) : alignCode name ≠ 3 := by cases name <;> decide

theorem assemble_opcode_wf {op : Opcode} {args : List Arg} {i : Instr} (h : assemble op args = some i) :
    i.opcode = op ∧ i.wf = true := by
  unfold assemble at h
  split at h
  case h_10 => -- DSTR: the only command that can be ill formed
    split at h
    · cases h
    · next hoptions =>
      obtain rfl := eq_of_guardFit h
      obtain ⟨name, rfl⟩ := dstrOptions_align hoptions
      exact ⟨rfl, bne_iff_ne.2 (alignCode_ne_three name)⟩
  case h_13 => cases h -- no form of the syntax
  all_goals
    obtain rfl := eq_of_guardFit h
    exact ⟨rfl, rfl⟩

@[simp] theorem guardFit_true (i : Instr) : guardFit true i = some i := rfl

@[simp] theorem field_toNat (x : Coord) : field x.toNat = x := by
  rw [field, BitVec.ofNat_toNat, BitVec.setWidth_eq]

@[simp] theorem fit16_nil : fit16 [] = true := rfl

@[simp] theorem fit16_toNat_cons (x : Coord) (ns : List Nat) : fit16 (x.toNat :: ns) = fit16 ns := by
  rw [fit16, List.all_cons, decide_eq_true x.isLt, Bool.true_and, fit16]

theorem colour_toNat_lt (c : Colour) : c.toNat < 4096 := c.isLt

/-- A DSTR line whose numbers fit: the options decide the flags and the alignment. -/
theorem assemble_dstr (toff tlen x0 y0 x1 font : Coord) {options : List Arg} {w c : Bool} {a : BitVec 2}
    (h : dstrOptions options = some (w, c, a)) :
    assemble .dstr ([.num toff.toNat, .num tlen.toNat, .num x0.toNat, .num y0.toNat, .num x1.toNat,
      .num font.toNat] ++ options) = some (.dstr toff tlen x0 y0 x1 font w c a) := by
  simp [assemble, h]

end Sys2Proof
end

section
/-!
PROOF. The command encoding (30_encoding.md): records and commands, the opcode table, the bytes of a record, and the
assembler.
-/

namespace Sys2Proof

/-- Settles O1: the encoder's fields survive the record, are legal, and build the command again. -/
theorem decodeOfEncodeIsTheCommand : Obligations.DecodeOfEncodeIsTheCommand := by
  intro i h
  exact decodeRecord_encode h

/-- Settles O2: what decodes is built from legal fields, and the encoder makes those fields again. -/
theorem legalRecordIsTheEncodingOfItsCommand : Obligations.LegalRecordIsTheEncodingOfItsCommand := by
  intro r i h
  obtain ⟨op, hopc, hlegal, rfl⟩ := decodeFields_ok.1 h
  exact ⟨wf_build hlegal, by rw [encode, encodeFields_build hopc hlegal, toRecord_ofRecord]⟩

/-- Settles O3: both sides are the conditions of R86 on the fields. -/
theorem legalityIsTheOpcodeTable : Obligations.LegalityIsTheOpcodeTable := by
  intro r op
  rw [decodeRecord_opcode_iff, illegal?_none, tableRow_iff, flg_and_not_flagMask_iff, align_ofRecord]
  tauto

/-- Settles O4: the sixteen bytes, most significant first, are the record. -/
theorem recordBytesAreLittleEndian : Obligations.RecordBytesAreLittleEndian := by
  intro r
  refine ⟨recordBytes_length r, fun j hj => ?_, fun rest => ?_⟩
  · simp [recordBytes, recordByte, hj]
  · rw [decodeBytes_recordBytes_append]
    cases decodeRecord r <;> rfl

/-- Settles O6: a line's form selects its arm of the assembler, and the value of a field fits it; what an arm gives is
well formed, so O1 and O3 apply to its record. -/
theorem assemblerLinesAreLegalRecords : Obligations.AssemblerLinesAreLegalRecords := by
  refine ⟨fun op args i h => ?_, fun x y c => ?_, fun x0 y0 x1 y1 c => ?_, fun font cp => ?_,
    fun font glyph gx gy => ?_, fun font glyph x y wob sp => ?_, fun x0 y0 x1 y1 radius wob rl rr => ?_,
    fun image x y => ?_, ⟨rfl, rfl, rfl⟩, fun toff tlen x0 y0 x1 font => ?_⟩
  case refine_1 =>
    obtain ⟨hop, hwf⟩ := assemble_opcode_wf h
    have hdecode := decodeRecord_encode hwf
    exact ⟨hop, hwf, ((legalityIsTheOpcodeTable (encode i) op).1 ⟨i, hdecode, hop⟩).1, hdecode⟩
  case refine_9 =>
    have hline {options : List Arg} {w c : Bool} {a : BitVec 2} :=
      assemble_dstr toff tlen x0 y0 x1 font (options := options) (w := w) (c := c) (a := a)
    exact ⟨hline rfl, fun w c a => ⟨hline rfl, hline rfl, hline rfl, hline rfl, hline rfl, hline rfl, hline rfl⟩⟩
  all_goals simp [assemble, colour_toNat_lt]

end Sys2Proof
end

section
/-!
PROOF. The layer the statements of unit PW rest on: what each command of the unit does to the state, the screen and
the framebuffer by pixels after a fill, writes to distinct pixels (40_pixel_writer.md R111 to R117).
-/

namespace Sys2Proof.Machine

variable {s t : State}

/-! ## The commands of the unit -/

/-- WPX of a pixel that exists is WPXU (40_pixel_writer.md R111). -/
theorem exec_wpx_onScreen {x y : Coord} (c : Colour) (hx : x.toNat < s.cfg.w) (hy : y.toNat < s.cfg.h) :
    exec (.wpx x y c) s = exec (.wpxu x y c) s :=
  congrArg Host.Outcome.next (if_neg (by omega))

/-- WPX of a pixel that does not exist does nothing (40_pixel_writer.md R111). -/
theorem exec_wpx_offScreen {x y : Coord} (c : Colour) (h : s.cfg.w ≤ x.toNat ∨ s.cfg.h ≤ y.toNat) :
    exec (.wpx x y c) s = .next s :=
  congrArg Host.Outcome.next (if_pos h)

/-- RPX of a pixel that exists writes its colour to RES (40_pixel_writer.md R112). -/
theorem exec_rpx_onScreen {x y : Coord} (hx : x.toNat < s.cfg.w) (hy : y.toNat < s.cfg.h) :
    exec (.rpx x y) s = .next (s.setRes ((s.pixelAt (y.toNat * s.cfg.w + x.toNat)).setWidth 32)) := by
  show Host.Outcome.next (if _ then _ else _) = _
  rw [if_pos ((inBounds_op x y).2 ⟨hx, hy⟩), opInt, opInt, linear_nat]

/-- RPX of a pixel that does not exist takes F_OOB at its coordinate (40_pixel_writer.md R112). -/
theorem exec_rpx_offScreen {x y : Coord} (h : s.cfg.w ≤ x.toNat ∨ s.cfg.h ≤ y.toNat) :
    exec (.rpx x y) s = .next { s with status := 0x32, finfo := y ++ x } := by
  show Host.Outcome.next (if _ then _ else _) = _
  rw [if_neg (mt (inBounds_op x y).1 (by omega)), raise_oob_op]

/-- Every pixel write of an FRECT command is on the screen (40_pixel_writer.md R116). -/
theorem frectMicro_inScreen {w h : Nat} {x0 y0 x1 y1 : Int} {c : Colour} (hx0 : 0 ≤ x0) (hy0 : 0 ≤ y0) :
    ∀ m ∈ frectMicro w h x0 y0 x1 y1 c, m.inScreen w h := by
  intro m hm
  obtain ⟨x, y, rfl⟩ := eq_wpxu_of_mem_frectMicro hm
  obtain ⟨hx, -, hxw, hy, -, hyh, -⟩ := mem_frectMicro.1 hm
  exact ⟨by omega, hxw, by omega, hyh⟩

/-- The pixels FRECT paints (40_pixel_writer.md R115). -/
theorem paints_frect (s : State) (x0 y0 x1 y1 : Coord) (c : Colour) :
    paints s (runMicro (frectMicro s.cfg.w s.cfg.h (opInt x0) (opInt y0) (opInt x1) (opInt y1) c) s)
      (fun x y => min x0.toNat (min x1.toNat s.cfg.w) ≤ x ∧ x < min x1.toNat s.cfg.w ∧
        y0.toNat ≤ y ∧ y < min y1.toNat s.cfg.h)
      fun _ _ => c := by
  refine paints_runMicro (frectMicro_inScreen (Int.natCast_nonneg _) (Int.natCast_nonneg _)) ?_ ?_
  · intro x y c' _ _ hm
    obtain ⟨h1, h2, h3, h4, h5, h6, rfl⟩ := mem_frectMicro.1 hm
    simp only [opInt] at h1 h2 h4 h5
    exact ⟨by omega, rfl⟩
  · rintro x y _ _ ⟨h1, h2, h3, h4⟩
    exact ⟨c, mem_frectMicro.2 (by simp only [opInt, and_true]; omega)⟩

theorem opInt_ofNat {n : Nat} (h : n < 65536) : opInt (BitVec.ofNat 16 n) = n := by
  rw [opInt, BitVec.toNat_ofNat, Nat.mod_eq_of_lt h]

/-- FRECT of the whole screen writes every row, and no pixel past the bottom (40_pixel_writer.md R115). -/
theorem pixel_wholeScreenFrect (s : State) (c : Colour) {x : Nat} (y : Nat) (hx : x < s.cfg.w) :
    (runMicro (frectMicro s.cfg.w s.cfg.h 0 0 s.cfg.w s.cfg.h c) s).pixel x y =
      if y < s.cfg.h then c else s.pixel x y := by
  rw [runMicro_pixel (frectMicro_inScreen (Int.le_refl 0) (Int.le_refl 0)) hx]
  by_cases hy : y < s.cfg.h
  · have hmem : Micro.wpxu x y c ∈ frectMicro s.cfg.w s.cfg.h 0 0 s.cfg.w s.cfg.h c :=
      mem_frectMicro.2 (by simp only [and_true]; omega)
    have hcolour : ∀ c', Micro.wpxu x y c' ∈ frectMicro s.cfg.w s.cfg.h 0 0 s.cfg.w s.cfg.h c → c' = c := by
      intro c' h
      obtain ⟨-, -, -, -, -, -, heq⟩ := mem_frectMicro.1 h
      exact heq
    rw [if_pos hy, lastWrite_eq hmem hcolour, Option.getD_some]
  · have hnone : ∀ c', Micro.wpxu x y c' ∉ frectMicro s.cfg.w s.cfg.h 0 0 s.cfg.w s.cfg.h c := fun c' h => by
      obtain ⟨-, -, -, -, -, hlt, -⟩ := mem_frectMicro.1 h
      omega
    rw [if_neg hy, lastWrite_none hnone, Option.getD_none]

/-! ## A colour read into RES -/

/-- The even pixel of pair `k` as RES holds it (40_pixel_writer.md R112). -/
theorem setWidth_pixelAt_even (s : State) (k : Nat) :
    (s.pixelAt (2 * k)).setWidth 32 =
      ((s.fbByte (3 * k)).setWidth 32 <<< 4) ||| ((s.fbByte (3 * k + 1)).setWidth 32 >>> 4) := by
  have hshift := congrArg (BitVec.setWidth 32) (setWidth_ushiftRight_four (s.fbByte (3 * k + 1)))
  rw [BitVec.setWidth_ushiftRight (by decide), BitVec.setWidth_setWidth (by decide),
    BitVec.setWidth_setWidth (by decide)] at hshift
  have happend : s.pixelAt (2 * k) = s.fbByte (3 * k) ++ hiNib (s.fbByte (3 * k + 1)) := by
    rw [State.pixelAt, if_pos (by omega), show 2 * k / 2 = k by omega]
    exact congrArg (· ++ hiNib (s.fbByte (3 * k + 1))) (byte_eq_pack (s.fbByte (3 * k))).symm
  rw [happend, hshift]
  exact BitVec.setWidth_append_eq_shiftLeft_setWidth_or

/-- The odd pixel of pair `k` as RES holds it (40_pixel_writer.md R112). -/
theorem setWidth_pixelAt_odd (s : State) (k : Nat) :
    (s.pixelAt (2 * k + 1)).setWidth 32 =
      (((s.fbByte (3 * k + 1)).setWidth 32 &&& 0x0F) <<< 8) ||| (s.fbByte (3 * k + 2)).setWidth 32 := by
  have hmask := congrArg (BitVec.setWidth 32) (and_0x0F_eq_setWidth_loNib (s.fbByte (3 * k + 1)))
  rw [BitVec.setWidth_and, BitVec.setWidth_setWidth (by decide)] at hmask
  have happend : s.pixelAt (2 * k + 1) = loNib (s.fbByte (3 * k + 1)) ++ s.fbByte (3 * k + 2) := by
    rw [State.pixelAt, if_neg (by omega), show (2 * k + 1) / 2 = k by omega]
    exact BitVec.append_assoc.trans
      (congrArg (loNib (s.fbByte (3 * k + 1)) ++ ·) (byte_eq_pack (s.fbByte (3 * k + 2))).symm)
  rw [happend]
  exact BitVec.setWidth_append_eq_shiftLeft_setWidth_or.trans (by rw [← hmask]; rfl)

/-! ## FB by its pixels -/

/-- FB is the pairs of the screen, three bytes each (00_scope.md R7). -/
theorem fbBytes_eq (h : s.cfg.w % 2 = 0) : s.fbBytes = 3 * (s.cfg.w * s.cfg.h / 2) := by
  have heven : s.cfg.w * s.cfg.h % 2 = 0 := by rw [Nat.mul_mod, h, Nat.zero_mul]
  simp only [State.fbBytes, fbBytesOf]
  omega

/-- A nibble is a channel of the pixel that owns it (20_memory.md R53). -/
theorem nibble_eq_of_pixelAt_eq {n : Nat} (h : t.pixelAt (n / 3) = s.pixelAt (n / 3)) : t.nibble n = s.nibble n := by
  rw [pixelAt_eq_nibbles, pixelAt_eq_nibbles] at h
  obtain ⟨hr, hg, hb⟩ := rgb_inj h
  have hn : n = 3 * (n / 3) ∨ n = 3 * (n / 3) + 1 ∨ n = 3 * (n / 3) + 2 := by omega
  obtain hn | hn | hn := hn
  · rwa [← hn] at hr
  · rwa [← hn] at hg
  · rwa [← hn] at hb

/-- Where every pixel reads the same, so does every byte. -/
theorem fbByte_eq_of_pixelAt_eq (h : ∀ i, t.pixelAt i = s.pixelAt i) (a : Nat) : t.fbByte a = s.fbByte a := by
  refine byte_ext ?_ ?_
  · rw [← nibble_eq_hiNib rfl, ← nibble_eq_hiNib rfl]
    exact nibble_eq_of_pixelAt_eq (h _)
  · rw [← nibble_eq_loNib rfl, ← nibble_eq_loNib rfl]
    exact nibble_eq_of_pixelAt_eq (h _)

/-- Rows as wide as the screen, one under another and past the bottom, hold every pixel, and so every byte. -/
theorem fbByte_eq_of_pixel_eq (hcfg : t.cfg = s.cfg) (hw : 0 < s.cfg.w)
    (h : ∀ x y, x < s.cfg.w → t.pixel x y = s.pixel x y) (a : Nat) : t.fbByte a = s.fbByte a := by
  refine fbByte_eq_of_pixelAt_eq (fun i => ?_) a
  have hi := h (i % s.cfg.w) (i / s.cfg.w) (Nat.mod_lt _ hw)
  rwa [State.pixel, State.pixel, hcfg, Nat.div_add_mod'] at hi

/-! ## A fill -/

/-- The byte triple of pair `k` after a fill (40_pixel_writer.md R113). -/
theorem fbByte_fillAll_triple (c : Colour) {k : Nat} (hk : k < s.cfg.w * s.cfg.h / 2) :
    (s.fillAll c).fbByte (3 * k) = pack (chanR c) (chanG c) ∧
      (s.fillAll c).fbByte (3 * k + 1) = pack (chanB c) (chanR c) ∧
      (s.fillAll c).fbByte (3 * k + 2) = pack (chanG c) (chanB c) := by
  simp only [fbByte_fillAll, fillByte]
  refine ⟨?_, ?_, ?_⟩
  · rw [if_pos (by omega), if_pos (by omega)]
  · rw [if_pos (by omega), if_neg (by omega), if_pos (by omega)]
  · rw [if_pos (by omega), if_neg (by omega), if_neg (by omega)]

/-- A fill writes the two pixels of every pair of the screen and no other (40_pixel_writer.md R113). -/
theorem pixelAt_fillAll (s : State) (c : Colour) (i : Nat) :
    (s.fillAll c).pixelAt i = if i / 2 < s.cfg.w * s.cfg.h / 2 then c else s.pixelAt i := by
  by_cases hk : i / 2 < s.cfg.w * s.cfg.h / 2
  · obtain ⟨h0, h1, h2⟩ := fbByte_fillAll_triple c hk
    rw [if_pos hk, State.pixelAt, h0, h1, h2]
    simp only [hiNib_pack, loNib_pack, rgb_chan, ite_self]
  · have hbyte : ∀ j, (s.fillAll c).fbByte (3 * (i / 2) + j) = s.fbByte (3 * (i / 2) + j) := fun j => by
      rw [fbByte_fillAll, if_neg (by omega)]
    have h0 : (s.fillAll c).fbByte (3 * (i / 2)) = s.fbByte (3 * (i / 2)) := hbyte 0
    rw [if_neg hk, State.pixelAt, State.pixelAt, h0, hbyte 1, hbyte 2]

/-- A fill writes the pixels of the screen (40_pixel_writer.md R113). -/
theorem pixel_fillAll (hw : s.cfg.w % 2 = 0) (c : Colour) {x : Nat} (y : Nat) (hx : x < s.cfg.w) :
    (s.fillAll c).pixel x y = if y < s.cfg.h then c else s.pixel x y := by
  rw [State.pixel, State.fillAll_cfg, pixelAt_fillAll]
  by_cases hy : y < s.cfg.h
  · have hlt := pixel_bytes_lt hw hx hy
    have heq : s.cfg.w * s.cfg.h * 3 / 2 = 3 * (s.cfg.w * s.cfg.h / 2) := fbBytes_eq hw
    rw [if_pos (by omega), if_pos hy]
  · have hle : s.cfg.h * s.cfg.w ≤ y * s.cfg.w := Nat.mul_le_mul_right _ (by omega)
    rw [Nat.mul_comm] at hle
    rw [if_neg (by omega), if_neg hy, State.pixel]

theorem pack_inj {h l h' l' : Nibble} : pack h l = pack h' l' ↔ h = h' ∧ l = l' := by
  refine ⟨fun e => ⟨?_, ?_⟩, fun ⟨eh, el⟩ => by rw [eh, el]⟩
  · rw [← hiNib_pack h l, e, hiNib_pack]
  · rw [← loNib_pack h l, e, loNib_pack]

/-- The three bytes of a fill are one byte for the grays alone (40_pixel_writer.md R114). -/
theorem packedBytes_eq_iff (r g b : Nibble) :
    (pack r g = pack b r ∧ pack b r = pack g b) ↔ (r = g ∧ g = b) := by
  rw [pack_inj, pack_inj]
  constructor
  · rintro ⟨⟨-, hgr⟩, ⟨hbg, -⟩⟩
    exact ⟨hgr.symm, hbg.symm⟩
  · rintro ⟨rfl, rfl⟩
    exact ⟨⟨rfl, rfl⟩, rfl, rfl⟩

/-! ## Writes to distinct pixels -/

/-- The write calls of a list of pixels with their colours. -/
def pixelWrites (px : List (Nat × Nat × Colour)) : List Micro := px.map fun p => .wpxu p.1 p.2.1 p.2.2

theorem mem_pixelWrites {px : List (Nat × Nat × Colour)} {x y : Nat} {c : Colour} :
    Micro.wpxu x y c ∈ pixelWrites px ↔ (x, y, c) ∈ px := by
  simp only [pixelWrites, List.mem_map, Micro.wpxu.injEq, Int.natCast_inj]
  constructor
  · rintro ⟨p, hp, rfl, rfl, rfl⟩; exact hp
  · intro h; exact ⟨_, h, rfl, rfl, rfl⟩

theorem pixelWrites_inScreen {px : List (Nat × Nat × Colour)} {w h : Nat} (hin : ∀ p ∈ px, p.1 < w ∧ p.2.1 < h) :
    ∀ m ∈ pixelWrites px, m.inScreen w h := by
  intro m hm
  obtain ⟨p, hp, rfl⟩ := List.mem_map.1 hm
  obtain ⟨hx, hy⟩ := hin p hp
  exact ⟨by omega, by omega, by omega, by omega⟩

/-- Of writes to distinct pixels the last one to a pixel is the only one. -/
theorem lastWrite_pixelWrites {px : List (Nat × Nat × Colour)} (hnd : (px.map fun p => (p.1, p.2.1)).Nodup)
    {x y : Nat} {c : Colour} : lastWrite (pixelWrites px) x y = some c ↔ (x, y, c) ∈ px := by
  refine ⟨fun h => mem_pixelWrites.1 (mem_of_lastWrite h), fun h => lastWrite_eq (mem_pixelWrites.2 h) fun c' h' => ?_⟩
  have hsame : (x, y, c') = (x, y, c) := List.inj_on_of_nodup_map hnd (mem_pixelWrites.1 h') h rfl
  exact congrArg (fun p => p.2.2) hsame

/-- Writes to distinct pixels in another order: each pixel has the same last write. -/
theorem lastWrite_pixelWrites_perm {px qx : List (Nat × Nat × Colour)} (hnd : (px.map fun p => (p.1, p.2.1)).Nodup)
    (hperm : px.Perm qx) (x y : Nat) : lastWrite (pixelWrites px) x y = lastWrite (pixelWrites qx) x y :=
  Option.ext fun c => by
    rw [lastWrite_pixelWrites hnd, lastWrite_pixelWrites ((hperm.map _).nodup_iff.1 hnd), hperm.mem_iff]

/-- Writes to distinct pixels of the screen leave the same FB in every order (40_pixel_writer.md R117). -/
theorem fbByte_runMicro_pixelWrites_perm {px qx : List (Nat × Nat × Colour)}
    (hin : ∀ p ∈ px, p.1 < s.cfg.w ∧ p.2.1 < s.cfg.h) (hnd : (px.map fun p => (p.1, p.2.1)).Nodup)
    (hperm : px.Perm qx) (a : Nat) :
    (runMicro (pixelWrites px) s).fbByte a = (runMicro (pixelWrites qx) s).fbByte a := by
  cases px with
  | nil => rw [hperm.nil_eq]
  | cons p ps =>
    have hw : 0 < s.cfg.w := Nat.zero_lt_of_lt (hin p (List.mem_cons_self ..)).1
    have hin' : ∀ q ∈ qx, q.1 < s.cfg.w ∧ q.2.1 < s.cfg.h := fun q hq => hin q (hperm.mem_iff.2 hq)
    refine fbByte_eq_of_pixel_eq (by rw [runMicro_cfg, runMicro_cfg]) (by rwa [runMicro_cfg]) (fun x y hx => ?_) a
    rw [runMicro_cfg] at hx
    rw [runMicro_pixel (pixelWrites_inScreen hin) hx, runMicro_pixel (pixelWrites_inScreen hin') hx,
      lastWrite_pixelWrites_perm hnd hperm]

/-- Two unit calls are not writes to one pixel. -/
def Micro.apart (m n : Micro) : Prop := ∀ x y c c', m = .wpxu x y c → n ≠ .wpxu x y c'

/-- A picture drawn row by row whose calls each tell the place they were made for writes no pixel twice. -/
theorem pairwise_apart_rows {xs ys : List Int} (hxs : xs.Nodup) (hys : ys.Nodup) {f : Int → Int → Micro} {x0 y0 : Int}
    (hf : ∀ i j x y c, f i j = .wpxu x y c → x = x0 + i ∧ y = y0 + j) :
    (ys.flatMap fun j => xs.map fun i => f i j).Pairwise Micro.apart := by
  have hapart : ∀ i j i' j', (i ≠ i' ∨ j ≠ j') → (f i j).apart (f i' j') := by
    intro i j i' j' hne x y c c' hm hn
    have h := hf i j x y c hm
    have h' := hf i' j' x y c' hn
    omega
  refine List.pairwise_flatMap.2 ⟨fun j _ => List.pairwise_map.2 (hxs.imp fun hi => hapart _ _ _ _ (.inl hi)), ?_⟩
  refine hys.imp fun hj m hm n hn => ?_
  obtain ⟨i, -, rfl⟩ := List.mem_map.1 hm
  obtain ⟨i', -, rfl⟩ := List.mem_map.1 hn
  exact hapart _ _ _ _ (.inr hj)

theorem pairwise_apart_frectMicro (w h : Nat) (x0 y0 x1 y1 : Int) (c : Colour) :
    (frectMicro w h x0 y0 x1 y1 c).Pairwise Micro.apart := by
  refine pairwise_apart_rows (x0 := 0) (y0 := 0) (irange_nodup ..) (irange_nodup ..) fun i j x y c' h => ?_
  cases h
  exact ⟨(Int.zero_add _).symm, (Int.zero_add _).symm⟩

/-- A write of DGLYPH is at the place of its local coordinate (41_glyph_decoder.md R145). -/
theorem place_of_glyphPixelMicro {blob : List Byte} {G : Glyph} {x y gx gy u v : Int} {wob : Bool} {c : Colour}
    (h : glyphPixelMicro blob G x y wob gx gy = .wpxu u v c) : u = x + gx ∧ v = y + gy := by
  unfold glyphPixelMicro at h
  split at h
  · cases h
  · cases h; exact ⟨rfl, rfl⟩

theorem pairwise_apart_glyphMicro (e : FontEntry) (g : Nat) (x y : Int) (wob sp : Bool) :
    (glyphMicro e g x y wob sp).Pairwise Micro.apart := by
  unfold glyphMicro
  split
  · exact List.pairwise_singleton ..
  · exact pairwise_apart_rows (irange_nodup ..) (irange_nodup ..) fun _ _ _ _ _ => place_of_glyphPixelMicro

end Sys2Proof.Machine
end

section
/-!
PROOF. Unit PW (40_pixel_writer.md): WPX, RPX, FILL, FRECT, and the order of pixel writes.
-/

namespace Sys2Proof.Machine

/-- Settles O26: on the screen WPX is WPXU, which is one pixel write. -/
theorem wpxWritesOnScreenAndIsANoOpOff : Obligations.WpxWritesOnScreenAndIsANoOpOff := by
  intro s x y c
  refine ⟨ofRecord_toRecord _, fun ⟨hx, hy⟩ => ?_, exec_wpx_offScreen c⟩
  have heq := exec_wpx_onScreen c hx hy
  exact ⟨heq, _, heq.trans (exec_wpxu_onScreen c hx hy), paints_setPixel c hx⟩

/-- Settles O27: RES takes the pixel, which the parity of the linear index gives by its two bytes. -/
theorem rpxReturnsThePixel : Obligations.RpxReturnsThePixel := by
  intro s x y
  refine ⟨ofRecord_toRecord _, fun hx hy k => ⟨fun heven => ?_, fun hodd => ?_⟩, exec_rpx_offScreen⟩
  · rw [exec_rpx_onScreen hx hy, heven, setWidth_pixelAt_even]; rfl
  · rw [exec_rpx_onScreen hx hy, hodd, setWidth_pixelAt_odd]; rfl

/-- Settles O30: a fill writes the triples of the pairs of the screen, which are all of FB as the width is even. -/
theorem fillWritesEveryPixel : Obligations.FillWritesEveryPixel := by
  intro s c hc
  have hw : s.cfg.w % 2 = 0 := (configWf_dims hc).1.1
  refine ⟨ofRecord_toRecord _, s.fillAll c, rfl, rfl, fun k hk => fbByte_fillAll_triple c hk, fun x y hx hy => ?_,
    fun a ha => ?_⟩
  · rw [pixel_fillAll hw c y hx, if_pos hy]
  · rw [fbBytes_eq hw] at ha
    rw [fbByte_fillAll, if_neg (by omega)]

/-- Settles O31: the three bytes of a triple are all that FILL writes. -/
theorem fillFastPathIsNotObservable : Obligations.FillFastPathIsNotObservable := by
  intro c
  refine ⟨packedBytes_eq_iff (chanR c) (chanG c) (chanB c), fun h01 h12 s hc => ⟨s.fillAll c, rfl, fun a ha => ?_⟩⟩
  rw [fbBytes_eq (configWf_dims hc).1.1] at ha
  rw [fbByte_fillAll, if_pos ha, fillByte]
  split
  · rfl
  · split
    · exact h01.symm
    · exact (h01.trans h12).symm

/-- Settles O32: every pixel write of the command is on the screen, so none faults. -/
theorem frectPaintsTheClampedRectangle : Obligations.FrectPaintsTheClampedRectangle := by
  intro s x0 y0 x1 y1 c
  exact ⟨_, rfl, paints_frect s x0 y0 x1 y1 c⟩

/-- Settles O33: on the screen each pixel holds the colour after both, past the bottom what it held. -/
theorem wholeScreenFrectIsFill : Obligations.WholeScreenFrectIsFill := by
  intro s c hc
  obtain ⟨⟨hw, hw2, hwle⟩, -, -, hhle⟩ := configWf_dims hc
  refine ⟨runMicro (frectMicro s.cfg.w s.cfg.h 0 0 s.cfg.w s.cfg.h c) s, s.fillAll c, ?_, rfl,
    fbByte_eq_of_pixel_eq (runMicro_cfg ..) (Nat.zero_lt_of_lt hw2) fun x y hx => ?_⟩
  · rw [← opInt_ofNat (n := s.cfg.w) (by omega), ← opInt_ofNat (n := s.cfg.h) (by omega)]
    rfl
  · rw [State.fillAll_cfg] at hx
    rw [pixel_wholeScreenFrect s c y hx, pixel_fillAll hw c y hx]

/-- Settles O34: a pixel's last write is its only one, whatever the order; a row's columns and a picture's rows are
distinct. -/
theorem distinctPixelWritesCommute : Obligations.DistinctPixelWritesCommute :=
  ⟨fun _ _ _ hin hnd hperm => fbByte_runMicro_pixelWrites_perm hin hnd hperm, pairwise_apart_frectMicro,
    pairwise_apart_glyphMicro⟩

end Sys2Proof.Machine
end

section
/-!
PROOF. The layer the statements of unit GD rest on: what LOOKUP, GPIX and DGLYPH of an asset that is there are, `look`
by its smallest index, the glyph table by its two passes, and the cases of GINT (41_glyph_decoder.md R140 to R145).
-/

namespace Sys2Proof.Machine

variable {s : State} {e : FontEntry} {G : Glyph}

/-- Taking F_ASSET (60_exceptions.md R238). -/
theorem raise_asset (s : State) : s.raise .asset = { s with status := 0x42, finfo := 0 } := rfl

/-! ## LOOKUP -/

theorem exec_lookup_noFont {font : Coord} (cp : CodePoint) (h : s.cfg.fonts[font.toNat]? = none) :
    exec (.lookup font cp) s = .next { s with status := 0x42, finfo := 0 } := by
  show execLookup font cp s = _
  rw [execLookup, State.font?, h, raise_asset]

theorem exec_lookup_font {font : Coord} (cp : CodePoint) (h : s.cfg.fonts[font.toNat]? = some e) :
    exec (.lookup font cp) s = .next { s with res := lookupResult (look e.font.coverage cp) } := by
  show execLookup font cp s = _
  simp only [execLookup, State.font?, h, State.setRes]

/-- A glyph index of 16 bits beside the bit `found` (10_state.md R27). -/
theorem lookupResult_some {g : Nat} (hg : g < 65536) : lookupResult (some g) = BitVec.ofNat 32 (2 ^ 16 + g) := by
  rw [lookupResult_eq]
  simp only [Nat.mod_eq_of_lt (show g < 2 ^ 16 from hg)]

/-- LOOKUP of a code point a font covers; the font has at most 65536 glyphs (41_glyph_decoder.md R142). -/
theorem exec_lookup_found {font : Coord} {cp : CodePoint} {g : Nat} (hf : fontWf e.font = true)
    (hfont : s.cfg.fonts[font.toNat]? = some e) (hl : look e.font.coverage cp = some g) :
    exec (.lookup font cp) s = .next { s with res := BitVec.ofNat 32 (2 ^ 16 + g) } := by
  rw [exec_lookup_font cp hfont, hl, lookupResult_some (look_get hf hl).1]

/-- LOOKUP of a code point a font does not cover (41_glyph_decoder.md R142). -/
theorem exec_lookup_notFound {font : Coord} {cp : CodePoint} (hfont : s.cfg.fonts[font.toNat]? = some e)
    (hl : look e.font.coverage cp = none) : exec (.lookup font cp) s = .next { s with res := 0 } := by
  rw [exec_lookup_font cp hfont, hl, lookupResult]

theorem look_range (first last cp : CodePoint) :
    look (.range first last) cp =
      if first.toNat ≤ cp.toNat ∧ cp.toNat ≤ last.toNat then some (cp.toNat - first.toNat) else none := rfl

/-- In a list the smallest index of the code point is its glyph's (41_glyph_decoder.md R142). -/
theorem look_list_of_smallest {cps : List CodePoint} {cp : CodePoint} {g : Nat} (hg : cps[g]? = some cp)
    (hmin : ∀ g', g' < g → cps[g']? ≠ some cp) : look (.list cps) cp = some g := by
  obtain ⟨hlt, hcp⟩ := List.getElem?_eq_some_iff.1 hg
  rw [look, List.findIdx?_eq_some_iff_getElem]
  refine ⟨hlt, decide_eq_true hcp, fun g' hg' => ?_⟩
  have hne := hmin g' hg'
  rw [List.getElem?_eq_getElem (by omega)] at hne
  simpa using hne

theorem look_list_of_not_mem {cps : List CodePoint} {cp : CodePoint} (h : cp ∉ cps) : look (.list cps) cp = none := by
  rw [look, List.findIdx?_eq_none_iff]
  exact fun q hq => decide_eq_false fun heq => h (heq ▸ hq)

/-! ## The glyph table -/

/-- The glyph of a descriptor, after both passes (41_glyph_decoder.md R140, R141). -/
theorem glyphTable_getElem? {g : Nat} {d : GlyphDesc} (hd : e.font.desc[g]? = some d) :
    (glyphTable e)[g]? = some (secondPass e.font e.mono g (firstPass e.font d)) := by
  rw [glyphTable, List.getElem?_mapIdx, hd, Option.map_some]

theorem isDigitGlyph_iff {f : Font} {g : Nat} :
    isDigitGlyph f g = true ↔ ∃ cp, codePointOf f.coverage g = some cp ∧ 0x30 ≤ cp ∧ cp ≤ 0x39 := by
  rw [isDigitGlyph]
  cases codePointOf f.coverage g <;> simp

/-- The second pass leaves a glyph of a font without MONO, and one that is no digit (41_glyph_decoder.md R141). -/
theorem secondPass_of_not {f : Font} {mono : Bool} {g : Nat} (G : Glyph)
    (h : mono = false ∨ ¬ isDigitGlyph f g = true) : secondPass f mono g G = G := by
  refine if_neg fun hboth => ?_
  obtain ⟨hmono, hdigit⟩ := Bool.and_eq_true_iff.1 hboth
  rcases h with h | h
  · rw [hmono] at h; cases h
  · exact h hdigit

/-- The second pass widens a digit glyph of a font with MONO (41_glyph_decoder.md R141). -/
theorem width_secondPass_of_digit {f : Font} {g : Nat} (G : Glyph) (h : isDigitGlyph f g = true) :
    (secondPass f true g G).width = maxDigitWidth f := by
  simp [secondPass, h]

/-- Some digit glyph has the greatest digit width, when there is a digit glyph (41_glyph_decoder.md R141). -/
theorem maxDigitWidth_attained {f : Font} {g : Nat} {d : GlyphDesc} (hd : f.desc[g]? = some d)
    (hg : isDigitGlyph f g = true) :
    ∃ g' d', f.desc[g']? = some d' ∧ isDigitGlyph f g' = true ∧ d'.width = maxDigitWidth f := by
  have hne : (f.desc.mapIdx fun g d => if isDigitGlyph f g then d.width else 0) ≠ [] :=
    mt List.mapIdx_eq_nil_iff.1 (List.ne_nil_of_mem (List.mem_of_getElem? hd))
  have hmem := List.maximum_mem (List.foldr_max_of_ne_nil hne).symm
  obtain ⟨g', hlt, hw⟩ := List.mem_mapIdx.1 hmem
  change _ = maxDigitWidth f at hw
  by_cases hdigit : isDigitGlyph f g' = true
  · rw [if_pos hdigit] at hw
    exact ⟨g', _, List.getElem?_eq_getElem hlt, hdigit, hw⟩
  · rw [if_neg hdigit] at hw
    have hle := width_le_maxDigitWidth hd hg
    exact ⟨g, d, hd, hg, by omega⟩

/-! ## GINT -/

variable {blob : List Byte} {x y : Int}

/-- GINT is 0 above and below the glyph (41_glyph_decoder.md R143). -/
theorem gint_outsideRows (h : y < 0 ∨ G.height ≤ y) : gint blob G x y = some 0 := if_pos h

/-- GINT is 0 left and right of the bitmap (41_glyph_decoder.md R143). -/
theorem gint_outsideBitmap
    (h : x - ((G.width : Int) - G.bitmapWidth) / 2 < 0 ∨
      (G.bitmapWidth : Int) ≤ x - ((G.width : Int) - G.bitmapWidth) / 2) : gint blob G x y = some 0 := by
  by_cases hy : y < 0 ∨ G.height ≤ y
  · exact gint_outsideRows hy
  · exact (if_neg hy).trans (if_pos h)

/-- GINT is 0 left and right of the glyph, whose bitmap lies inside it (41_glyph_decoder.md R148). -/
theorem gint_outsideColumns (hw : G.bitmapWidth ≤ G.width) (h : x < 0 ∨ (G.width : Int) ≤ x) :
    gint blob G x y = some 0 :=
  gint_outsideBitmap (by omega)

/-- GINT inside the bitmap is a nibble of the byte its row and column name; a row takes whole bytes
(41_glyph_decoder.md R143). -/
theorem gint_insideBitmap {row bx : Nat} {byte : Byte} (hrow : (row : Int) < G.height) (hbx : bx < G.bitmapWidth)
    (hbyte : blob[G.base + (row + G.topSkip) * (evenUp G.bitmapWidth / 2) + bx / 2]? = some byte) :
    gint blob G (bx + ((G.width : Int) - G.bitmapWidth) / 2) row =
      some (if bx % 2 = 0 then hiNib byte else loNib byte) := by
  obtain ⟨v, hv⟩ : ∃ v, evenUp G.bitmapWidth = 2 * v := Nat.dvd_of_mod_eq_zero (evenUp_even _)
  have hoff : (((row : Int) + G.topSkip) * (2 * v : Nat) + (bx : Int)).toNat = 2 * ((row + G.topSkip) * v) + bx := by
    rw [Nat.mul_left_comm 2]
    norm_cast
  rw [hv, Nat.mul_div_cancel_left v (by decide)] at hbyte
  rw [gint, if_neg (by omega), Int.add_sub_cancel, if_neg (by omega), hv]
  simp only [hoff]
  rw [Nat.mul_add_mod, Nat.mul_add_div (by decide), ← Nat.add_assoc, hbyte]

/-! ## GPIX -/

theorem exec_gpix_noFont {font : Coord} (glyph gx gy : Coord) (h : s.cfg.fonts[font.toNat]? = none) :
    exec (.gpix font glyph gx gy) s = .next { s with status := 0x42, finfo := 0 } := by
  show execGpix font glyph gx gy s = _
  rw [execGpix, State.font?, h, raise_asset]

theorem exec_gpix_noGlyph {font glyph : Coord} (gx gy : Coord) (h : s.cfg.fonts[font.toNat]? = some e)
    (hG : (glyphTable e)[glyph.toNat]? = none) :
    exec (.gpix font glyph gx gy) s = .next { s with status := 0x42, finfo := 0 } := by
  show execGpix font glyph gx gy s = _
  simp only [execGpix, State.font?, h, hG, raise_asset]

theorem exec_gpix_glyph {font glyph gx gy : Coord} {v : Nibble} (h : s.cfg.fonts[font.toNat]? = some e)
    (hG : (glyphTable e)[glyph.toNat]? = some G) (hv : gint e.font.blob G gx.toNat gy.toNat = some v) :
    exec (.gpix font glyph gx gy) s = .next { s with res := v.setWidth 32 } := by
  show execGpix font glyph gx gy s = _
  simp only [execGpix, State.font?, h, hG, opInt, hv, State.setRes]

end Sys2Proof.Machine
end

section
/-!
PROOF. DGLYPH as a picture drawn row by row, each unit call the write of one gray (41_glyph_decoder.md R145).
-/

namespace Sys2Proof.Machine

variable {s : State} {e : FontEntry} {G : Glyph} {font glyph : Coord}

/-- The gray DGLYPH writes for a local coordinate (41_glyph_decoder.md R145). -/
def glyphGray (blob : List Byte) (G : Glyph) (wob : Bool) (gx gy : Int) : Colour :=
  gray12 (inkOf wob ((gint blob G gx gy).getD 0))

/-- Where the glyph has no ink DGLYPH writes background (41_glyph_decoder.md R145). -/
theorem glyphGray_of_gint_zero {blob : List Byte} {gx gy : Int} (wob : Bool) (h : gint blob G gx gy = some 0) :
    glyphGray blob G wob gx gy = if wob then 0x000 else 0xFFF := by
  rw [glyphGray, h, Option.getD_some]
  cases wob <;> decide

theorem glyphMicro_eq {g : Nat} (h : (glyphTable e)[g]? = some G) (x y : Int) (wob sp : Bool) :
    glyphMicro e g x y wob sp = (irange 0 G.height).flatMap fun gy =>
      (irange 0 (drawnWidth G sp)).map fun gx => glyphPixelMicro e.font.blob G x y wob gx gy := by
  simp only [glyphMicro, h]

theorem exec_dglyph (x y : Coord) (wob sp : Bool) (h : s.cfg.fonts[font.toNat]? = some e) :
    exec (.dglyph font glyph x y wob sp) s =
      .next (runMicro (glyphMicro e glyph.toNat (opInt x) (opInt y) wob sp) s) := by
  show execDglyph font glyph x y wob sp s = _
  simp only [execDglyph, State.font?, h]

/-- A glyph that fits on the screen is painted (41_glyph_decoder.md R145). -/
theorem paints_glyphMicro {g : Nat} {x y : Coord} {wob sp : Bool} (hf : fontWf e.font = true)
    (hG : (glyphTable e)[g]? = some G) (hx : x.toNat + drawnWidth G sp ≤ s.cfg.w)
    (hy : (y.toNat : Int) + G.height ≤ s.cfg.h) :
    paints s (runMicro (glyphMicro e g (opInt x) (opInt y) wob sp) s)
      (fun px py => x.toNat ≤ px ∧ px < x.toNat + drawnWidth G sp ∧ y.toNat ≤ py ∧ (py : Int) < y.toNat + G.height)
      (fun px py => glyphGray e.font.blob G wob (px - x.toNat : Int) (py - y.toNat : Int)) := by
  simp only [opInt]
  refine paints_runMicro (fun m hm => ?_) (fun px py c _ _ hm => ?_) fun px py _ _ hp => ?_
  · obtain ⟨gx, gy, h1, h2, h3, h4, rfl⟩ := (mem_glyphMicro hf hG).1 hm
    exact ⟨by omega, by omega, by omega, by omega⟩
  · obtain ⟨gx, gy, h1, h2, h3, h4, heq⟩ := (mem_glyphMicro hf hG).1 hm
    obtain ⟨hpx, hpy, rfl⟩ := Micro.wpxu.inj heq
    refine ⟨by omega, ?_⟩
    rw [hpx, hpy, add_sub_cancel_left, add_sub_cancel_left, glyphGray]
  · obtain ⟨h1, h2, h3, h4⟩ := hp
    exact ⟨_, (mem_glyphMicro hf hG).2 ⟨px - x.toNat, py - y.toNat, by omega, by omega, by omega, by omega, by
      rw [add_sub_cancel, add_sub_cancel]⟩⟩

/-- A glyph without rows or columns makes no unit call (41_glyph_decoder.md R145). -/
theorem exec_dglyph_empty {x y : Coord} {wob sp : Bool} (hfont : s.cfg.fonts[font.toNat]? = some e)
    (hG : (glyphTable e)[glyph.toNat]? = some G) (h : drawnWidth G sp = 0 ∨ G.height = 0) :
    exec (.dglyph font glyph x y wob sp) s = .next s := by
  rw [exec_dglyph x y wob sp hfont, glyphMicro_eq hG, picture_empty (by omega), runMicro]

/-- A glyph whose first pixel is off the screen faults there (41_glyph_decoder.md R145; 60_exceptions.md R238). -/
theorem exec_dglyph_firstOff {x y : Coord} {wob sp : Bool} (hf : fontWf e.font = true)
    (hfont : s.cfg.fonts[font.toNat]? = some e) (hG : (glyphTable e)[glyph.toNat]? = some G)
    (hw : 0 < drawnWidth G sp) (hh : 0 < G.height) (hoff : s.cfg.w ≤ x.toNat ∨ s.cfg.h ≤ y.toNat) :
    exec (.dglyph font glyph x y wob sp) s = .next { s with status := 0x32, finfo := y ++ x } := by
  have hb : s.inBounds (opInt x) (opInt y) = false := Bool.eq_false_iff.2 (mt (inBounds_op x y).1 (by omega))
  have hfirst : glyphPixelMicro e.font.blob G (opInt x) (opInt y) wob 0 0 =
      .wpxu (opInt x) (opInt y) (glyphGray e.font.blob G wob 0 0) := by
    rw [glyphPixelMicro_eq hf hG, Int.add_zero, Int.add_zero, glyphGray]
  rw [exec_dglyph x y wob sp hfont, glyphMicro_eq hG, runMicro_first_off (by omega) hh hfirst hb, raise_oob_op]

/-- A glyph whose first row runs over the right edge: the row is painted up to the edge, the fault is taken there
(41_glyph_decoder.md R145; 60_exceptions.md R238). -/
theorem exec_dglyph_overEdge {x y : Coord} {wob sp : Bool} (hf : fontWf e.font = true)
    (hfont : s.cfg.fonts[font.toNat]? = some e) (hG : (glyphTable e)[glyph.toNat]? = some G)
    (hh : 0 < G.height) (hy : y.toNat < s.cfg.h) (hx : x.toNat ≤ s.cfg.w)
    (hover : s.cfg.w < x.toNat + drawnWidth G sp) :
    ∃ u, exec (.dglyph font glyph x y wob sp) s =
        .next { u with status := 0x32, finfo := y ++ BitVec.ofNat 16 s.cfg.w } ∧
      paints s u (fun px py => x.toNat ≤ px ∧ px < s.cfg.w ∧ py = y.toNat)
        (fun px py => glyphGray e.font.blob G wob (px - x.toNat : Int) (py - y.toNat : Int)) := by
  have hrow : ∀ i : Int, 0 ≤ i → i ≤ s.cfg.w - x.toNat →
      glyphPixelMicro e.font.blob G (opInt x) (opInt y) wob i 0 =
        .wpxu (opInt x + i) (opInt y) (glyphGray e.font.blob G wob i 0) := by
    intro i _ _
    rw [glyphPixelMicro_eq hf hG, Int.add_zero, glyphGray]
  obtain ⟨u, hrun, hpaint⟩ := runMicro_over_edge (s := s) (x := opInt x) (y := opInt y) (n := drawnWidth G sp)
    (h := G.height) (k := s.cfg.w - x.toNat) (by omega) (by omega) hh (fun i => glyphGray e.font.blob G wob i 0) hrow
    (by simp only [opInt]; omega) (by simp only [opInt]; omega) (by simp only [opInt]; omega)
  refine ⟨u, ?_, paints_congr hpaint (fun px py => ?_) fun px py hp => ?_⟩
  · rw [exec_dglyph x y wob sp hfont, glyphMicro_eq hG, hrun, raise_oob_edge]
  · simp only [opInt]; omega
  · obtain ⟨-, -, hpy⟩ := hp
    simp only [opInt] at hpy ⊢
    rw [hpy, Int.sub_self]

/-- A glyph whose rows run past the bottom: the rows of the screen are painted whole, the fault is taken at the first
row off it (41_glyph_decoder.md R145; 60_exceptions.md R238). -/
theorem exec_dglyph_pastBottom {x y : Coord} {wob sp : Bool} (hf : fontWf e.font = true)
    (hfont : s.cfg.fonts[font.toNat]? = some e) (hG : (glyphTable e)[glyph.toNat]? = some G)
    (hw : 0 < drawnWidth G sp) (hy : y.toNat < s.cfg.h) (hx : x.toNat + drawnWidth G sp ≤ s.cfg.w)
    (hpast : (s.cfg.h : Int) < y.toNat + G.height) :
    ∃ u, exec (.dglyph font glyph x y wob sp) s =
        .next { u with status := 0x32, finfo := BitVec.ofNat 16 s.cfg.h ++ x } ∧
      paints s u (fun px py => x.toNat ≤ px ∧ px < x.toNat + drawnWidth G sp ∧ y.toNat ≤ py ∧ py < s.cfg.h)
        (fun px py => glyphGray e.font.blob G wob (px - x.toNat : Int) (py - y.toNat : Int)) := by
  have hcall : ∀ i j : Int, 0 ≤ i → i < drawnWidth G sp → 0 ≤ j → j ≤ s.cfg.h - y.toNat →
      glyphPixelMicro e.font.blob G (opInt x) (opInt y) wob i j =
        .wpxu (opInt x + i) (opInt y + j) (glyphGray e.font.blob G wob i j) :=
    fun i j _ _ _ _ => glyphPixelMicro_eq hf hG ..
  obtain ⟨u, hrun, hpaint⟩ := runMicro_past_bottom (s := s) (x := opInt x) (y := opInt y) (n := drawnWidth G sp)
    (h := G.height) (k := s.cfg.h - y.toNat) (by omega) (by omega) (by omega) (glyphGray e.font.blob G wob) hcall
    (by simp only [opInt]; omega) (by simp only [opInt]; omega) (by simp only [opInt]; omega)
    (by simp only [opInt]; omega)
  refine ⟨u, ?_, paints_congr hpaint (fun px py => ?_) fun _ _ _ => rfl⟩
  · rw [exec_dglyph x y wob sp hfont, glyphMicro_eq hG, hrun, raise_oob_bottom]
  · simp only [opInt]; omega

end Sys2Proof.Machine
end

section
/-!
PROOF. Unit GD (41_glyph_decoder.md): LOOKUP, the glyph table, GINT, GPIX and DGLYPH.
-/

namespace Sys2Proof.Machine

/-- Settles O35: what `look` finds has an index of 16 bits, as a font has at most 65536 glyphs. -/
theorem lookupReturnsFoundAndIndex : Obligations.LookupReturnsFoundAndIndex := by
  intro s font cp hc
  refine ⟨ofRecord_toRecord _, ?_⟩
  cases hfont : s.cfg.fonts[font.toNat]? with
  | none => exact exec_lookup_noFont cp hfont
  | some e =>
    have hf := configWf_font hc hfont
    cases hcov : e.font.coverage with
    | range first last =>
      simp only [hcov]
      by_cases hin : first.toNat ≤ cp.toNat ∧ cp.toNat ≤ last.toNat
      · rw [if_pos hin]
        exact exec_lookup_found hf hfont (by rw [hcov, look_range, if_pos hin])
      · rw [if_neg hin]
        exact exec_lookup_notFound hfont (by rw [hcov, look_range, if_neg hin])
    | list cps =>
      simp only [hcov]
      refine ⟨fun g hg hmin => ?_, fun hmem => ?_⟩
      · exact exec_lookup_found hf hfont (by rw [hcov, look_list_of_smallest hg hmin])
      · exact exec_lookup_notFound hfont (by rw [hcov, look_list_of_not_mem hmem])

/-- Settles O36: a digit glyph of a font with MONO takes the greatest digit width, which some digit glyph has; the
second pass leaves every other glyph. -/
theorem glyphTableIsBuiltInTwoPasses : Obligations.GlyphTableIsBuiltInTwoPasses := by
  refine ⟨fun _ _ => rfl, fun _ _ _ => rfl, fun e => List.length_mapIdx .., fun e g d hd => ?_⟩
  have hG := glyphTable_getElem? hd
  obtain ⟨d', hd', hbw, hheight, hskip, hbase, hle, hspacing⟩ := glyphTable_get hG
  obtain rfl : d = d' := Option.some.inj (hd.symm.trans hd')
  refine ⟨_, hG, hbw, hheight, hskip, hbase, hle, hspacing, fun hnot => ?_, fun hmono hdigit => ?_⟩
  · rw [← isDigitGlyph_iff] at hnot
    rw [secondPass_of_not _ hnot]
    rfl
  · have hdigit' := isDigitGlyph_iff.2 hdigit
    rw [hmono, width_secondPass_of_digit _ hdigit']
    refine ⟨fun g' d' cp' hd' hcp' hlo hhi =>
      width_le_maxDigitWidth hd' (isDigitGlyph_iff.2 ⟨cp', hcp', hlo, hhi⟩), ?_⟩
    obtain ⟨g', d', hd', hg', hwidth⟩ := maxDigitWidth_attained hd hdigit'
    obtain ⟨cp', hcp', hlo, hhi⟩ := isDigitGlyph_iff.1 hg'
    exact ⟨g', d', cp', hd', hcp', hlo, hhi, hwidth⟩

/-- Settles O37: the bitmap lies inside the glyph, so a coordinate outside the glyph is outside the bitmap. -/
theorem gintIsBoundedAndLiteral : Obligations.GintIsBoundedAndLiteral := by
  refine ⟨fun blob G x y hw => ⟨fun hout => ?_, gint_outsideBitmap, ?_⟩, ?_⟩
  · rcases hout with h | h | h | h
    · exact gint_outsideRows (.inl h)
    · exact gint_outsideRows (.inr h)
    · exact gint_outsideColumns hw (.inl h)
    · exact gint_outsideColumns hw (.inr h)
  · rintro row bx byte rfl hrow hbx rfl hbyte
    exact gint_insideBitmap hrow hbx hbyte
  · rintro G rfl
    exact ⟨by decide, fun x y hx => gint_outsideColumns (Nat.le_refl 1) (.inr hx)⟩

/-- Settles O38: on a well-formed font GINT has a value at every coordinate. -/
theorem gpixReturnsTheIntensity : Obligations.GpixReturnsTheIntensity := by
  intro s font glyph gx gy hc
  refine ⟨ofRecord_toRecord _, ?_⟩
  cases hfont : s.cfg.fonts[font.toNat]? with
  | none => exact exec_gpix_noFont glyph gx gy hfont
  | some e =>
    cases hG : (glyphTable e)[glyph.toNat]? with
    | none => simp only [hG]; exact exec_gpix_noGlyph gx gy hfont hG
    | some G =>
      obtain ⟨v, hv⟩ := gint_isSome (configWf_font hc hfont) hG gx.toNat gy.toNat
      simp only [hG]
      exact ⟨v, hv, exec_gpix_glyph hfont hG hv⟩

/-- Settles O39: every unit call writes on the screen; past the glyph's width GINT is 0. -/
theorem dglyphPaintsTheGlyph : Obligations.DglyphPaintsTheGlyph := by
  intro s font glyph x y wob sp e G hc hfont hG hx hy
  have hpaint := paints_glyphMicro (wob := wob) (configWf_font hc hfont) hG hx hy
  refine ⟨_, exec_dglyph x y wob sp hfont, hpaint, fun px py h1 h2 h3 h4 => ?_⟩
  obtain ⟨-, -, -, -, -, -, hw, -⟩ := glyphTable_get hG
  obtain ⟨-, -, hpixels⟩ := hpaint
  rw [(hpixels px py (by omega) (by omega)).1 ⟨by omega, h2, h3, h4⟩]
  exact glyphGray_of_gint_zero wob (gint_outsideColumns hw (.inr (by omega)))

/-- Settles O40: the first unit call off the screen is the first one, or the one at the right edge of the first row, or
the first one of the first row past the bottom. -/
theorem dglyphOverTheEdgeRaisesFOob : Obligations.DglyphOverTheEdgeRaisesFOob := by
  intro s font glyph x y wob sp e G hc hfont hG
  have hf := configWf_font hc hfont
  refine ⟨exec_dglyph_empty hfont hG, fun hw hh hoff => ?_, fun hh hy hx hover => ?_, fun hw hy hx hpast => ?_⟩
  · exact exec_dglyph_firstOff hf hfont hG hw hh (by omega)
  · obtain ⟨u, hexec, hpaint⟩ := exec_dglyph_overEdge (wob := wob) hf hfont hG hh hy hx hover
    exact ⟨_, u, hexec, rfl, hpaint⟩
  · obtain ⟨u, hexec, hpaint⟩ := exec_dglyph_pastBottom (wob := wob) hf hfont hG hw hy hx hpast
    exact ⟨_, u, hexec, rfl, hpaint⟩

end Sys2Proof.Machine
end

section
/-!
PROOF. The layer the statements of unit RR rest on: the edge function at both ends of its range, the octant steps as
an initial segment, and the colour of a scan pixel (42_rounded_rect.md R174 to R179).
-/

namespace Sys2Proof.Machine

/-! ## The edge function -/

/-- At step 0 the root is exact (42_rounded_rect.md R174). -/
@[simp] theorem x16_zero (r : Nat) : x16 r 0 = 16 * r :=
  isqrt_unique (by rw [Nat.mul_zero, Nat.sub_zero]; nlinarith) (by rw [Nat.mul_zero, Nat.sub_zero]; nlinarith)

@[simp] theorem x16_self (r : Nat) : x16 r r = 0 :=
  isqrt_unique (by rw [Nat.sub_self]) (by rw [Nat.sub_self]; decide)

@[simp] theorem xi_zero (r : Nat) : xi r 0 = r := by
  rw [xi, x16_zero, Nat.mul_div_cancel_left r (by decide)]

@[simp] theorem xi_self (r : Nat) : xi r r = 0 := by
  rw [xi, x16_self]

theorem toNat_coverageValue (r e : Nat) : (coverageValue r e).toNat = x16 r e % 16 := BitVec.toNat_ofNat ..

theorem coverageValue_zero (r : Nat) : coverageValue r 0 = 0 :=
  BitVec.eq_of_toNat_eq (by rw [toNat_coverageValue, x16_zero, Nat.mul_mod_right]; rfl)

/-- The edge comes in as the step goes out (42_rounded_rect.md R175). -/
theorem xi_antitone (r : Nat) : Antitone (xi r) := fun _ _ h =>
  Nat.div_le_div_right (isqrt_mono (Nat.mul_le_mul_left _ (Nat.sub_le_sub_left (Nat.mul_le_mul h h) _)))

/-! ## The octant steps -/

/-- A test that fails from some number on selects an initial segment. -/
theorem takeWhile_range_eq_filter {p : Nat → Bool} (hp : ∀ a b, a ≤ b → p b = true → p a = true) (n : Nat) :
    (List.range n).takeWhile p = (List.range n).filter p := by
  induction n with
  | zero => rfl
  | succ n ih =>
    rw [List.range_succ, List.takeWhile_append, List.filter_append, ← ih]
    by_cases hn : p n = true
    · have hall : (List.range n).takeWhile p = List.range n :=
        List.takeWhile_eq_self_iff.2 fun a ha => hp a n (List.mem_range.1 ha).le hn
      simp [hall, hn]
    · simpa [hn] using fun h => ((List.takeWhile_prefix p).eq_of_length (h.trans List.length_range.symm)).symm

theorem mem_octantSteps {r e : Nat} : e ∈ octantSteps r ↔ e ≤ r ∧ e ≤ xi r e := by
  have hp : ∀ a b, a ≤ b → decide (b ≤ xi r b) = true → decide (a ≤ xi r a) = true := by
    intro a b hab hb
    exact decide_eq_true ((hab.trans (of_decide_eq_true hb)).trans (xi_antitone r hab))
  rw [octantSteps, ← List.range_eq_range', takeWhile_range_eq_filter hp, List.mem_filter, List.mem_range,
    decide_eq_true_eq, Nat.lt_succ_iff]

theorem octantSteps_eq_range (r : Nat) : octantSteps r = List.range (octantSteps r).length := by
  have hprefix : octantSteps r <+: List.range (r + 1) := by
    rw [List.range_eq_range']
    exact List.takeWhile_prefix _
  have htake := List.prefix_iff_eq_take.1 hprefix
  have hlen := hprefix.length_le
  rw [List.length_range] at hlen
  rwa [List.take_range, Nat.min_eq_left hlen] at htake

theorem lt_length_octantSteps {r e : Nat} : e < (octantSteps r).length ↔ e ≤ r ∧ e ≤ xi r e := by
  rw [← mem_octantSteps, octantSteps_eq_range r, List.length_range, List.mem_range]

/-- A step is below the radius, so both its scans stay in the box (42_rounded_rect.md R175). -/
theorem step_lt_radius (hr : 1 ≤ r) {e : Nat} (he : e < (octantSteps r).length) : e < r := by
  obtain ⟨hle, hxi⟩ := lt_length_octantSteps.1 he
  refine lt_of_le_of_ne hle ?_
  rintro rfl
  rw [xi_self] at hxi
  omega

/-! ## The colour of a scan pixel -/

theorem bgColour_eq (wob : Bool) : bgColour wob = if wob then 0x000 else 0xFFF := rfl

/-- Before the boundary a scan paints background, in a rounded and in a square corner (42_rounded_rect.md R176). -/
theorem scanColour_of_lt (wob rounded : Bool) {r e d : Nat} (h : d < xi r e) :
    scanColour wob r e d rounded = bgColour wob := if_pos h

theorem scanColour_boundary (wob : Bool) {r e d : Nat} (h : d = xi r e) :
    scanColour wob r e d true = aaColour wob r e := by
  simp [scanColour, h]

theorem scanColour_of_gt (wob : Bool) {r e d : Nat} (h : xi r e < d) :
    scanColour wob r e d true = fgColour wob := by
  simp [scanColour, h.not_gt, h.ne']

/-- A square corner is background throughout (42_rounded_rect.md R178). -/
theorem scanColour_square (wob : Bool) (r e d : Nat) : scanColour wob r e d false = bgColour wob := by
  simp [scanColour]

end Sys2Proof.Machine
end

section
/-!
PROOF. The picture RRECT leaves, pixel by pixel: which calls write a pixel of the rectangle, and which of them is the
last (42_rounded_rect.md R173, R180 to R183).
-/

namespace Sys2Proof.Machine

variable {s : State} {x0 y0 wd ht r : Nat} {wob rl rr : Bool}

/-! ## The picture of calls that stay on the screen -/

/-- Calls that stay on the screen paint each pixel they write with the last write to it. -/
theorem paints_lastWrite {ms : List Micro} (hin : ∀ m ∈ ms, m.inScreen s.cfg.w s.cfg.h) :
    paints s (runMicro ms s) (fun x y => (lastWrite ms x y).isSome) fun x y => (lastWrite ms x y).getD 0 := by
  refine ⟨runMicro_fbOnly hin, fun a ha => runMicro_byte fun x y c hm hb => ?_, fun x y hx hy => ?_⟩
  · obtain ⟨h1, -, h3, -⟩ := (inBounds_iff x y).1 hb
    lift x to Nat using h1
    lift y to Nat using h3
    rw [linear_nat]
    exact ha x y (Option.isSome_iff_exists.2 (lastWrite_isSome hm))
  · rw [runMicro_pixel hin hx]
    cases hlast : lastWrite ms x y <;> simp [hlast]

/-! ## The depth of a pixel in its corner box -/

/-- The offset of depth `d` in the box at the near or the far end of a side of length `n`: depth 0 is the corner's
centre pixel (42_rounded_rect.md R173). -/
def boxOffset (n r : Nat) (far : Bool) (d : Nat) : Nat := if far then n - r + d else r - 1 - d

/-- The depth of offset `i` of a side of length `n`, where a corner box reaches it. -/
def edgeDepth (n r i : Nat) : Option Nat :=
  if i < r then some (r - 1 - i) else if n - r ≤ i then some (i - (n - r)) else none

/-- Whether the corners at the end of the row that offset `i` is nearest to are rounded (42_rounded_rect.md R173). -/
def sideRounded (r : Nat) (rl rr : Bool) (i : Nat) : Bool := if i < r then rl else rr

section
variable {n i d : Nat} (hn : 2 * r ≤ n)
include hn

theorem boxOffset_lt (far : Bool) (hd : d < r) : boxOffset n r far d < n := by
  cases far <;> simp [boxOffset] <;> omega

theorem edgeDepth_eq_some (hi : i < n) :
    edgeDepth n r i = some d ↔ d < r ∧ (i + d + 1 = r ∨ i = n - r + d) := by
  unfold edgeDepth
  split_ifs <;> simp <;> omega

theorem edgeDepth_eq_some_iff_boxOffset (hi : i < n) :
    edgeDepth n r i = some d ↔ d < r ∧ ∃ far, i = boxOffset n r far d := by
  rw [edgeDepth_eq_some hn hi, Bool.exists_bool]
  simp only [boxOffset, Bool.false_eq_true, if_false, if_true]
  omega

theorem edgeDepth_boxOffset (far : Bool) (hd : d < r) : edgeDepth n r (boxOffset n r far d) = some d :=
  (edgeDepth_eq_some_iff_boxOffset hn (boxOffset_lt hn far hd)).2 ⟨hd, far, rfl⟩

theorem sideRounded_boxOffset (far : Bool) (hd : d < r) :
    sideRounded r rl rr (boxOffset n r far d) = if far then rr else rl := by
  cases far
  · exact if_pos (show r - 1 - d < r by omega)
  · exact if_neg (show ¬ n - r + d < r by omega)

/-- The two boxes of a side are each other's mirror. -/
theorem edgeDepth_mirror (hi : i < n) : edgeDepth n r (n - 1 - i) = edgeDepth n r i := by
  ext d
  rw [edgeDepth_eq_some hn hi, edgeDepth_eq_some hn (by omega)]
  omega

/-- The cross fill takes depth 0 of the boxes and everything between them (42_rounded_rect.md R181). -/
theorem band_iff_edgeDepth (hr : 1 ≤ r) (hi : i < n) :
    r - 1 ≤ i ∧ i < n - r + 1 ↔ ∀ d, edgeDepth n r i = some d → d = 0 := by
  unfold edgeDepth
  split_ifs <;> simp <;> omega

end

/-! ## The closed form by depths -/

theorem rrectResult_corner {i j dx dy : Nat} (hx : edgeDepth wd r i = some dx) (hy : edgeDepth ht r j = some dy) :
    rrectResult wd ht r wob rl rr i j = cornerResult wob r dx dy (sideRounded r rl rr i) := by
  unfold edgeDepth at hx hy
  simp only [rrectResult, hy, sideRounded]
  split_ifs at hx ⊢ <;> simp_all

theorem rrectResult_between {i j : Nat} (h : edgeDepth wd r i = none ∨ edgeDepth ht r j = none) :
    rrectResult wd ht r wob rl rr i j = some (bgColour wob) := by
  unfold edgeDepth at h
  simp only [rrectResult]
  split_ifs at h ⊢ <;> simp_all [bgColour_eq]

theorem cornerResult_of_lt {dx dy : Nat} (h : dx < dy) (rounded : Bool) :
    cornerResult wob r dx dy rounded = cornerResult wob r dy dx rounded := by
  unfold cornerResult
  by_cases hx : dx ≤ xi r dx <;> by_cases hy : dy ≤ xi r dy <;>
    simp [hx, hy, h.not_ge, h.le, not_lt.2, lt_of_not_ge]

/-- The row scan and the column scan are each other's transpose (42_rounded_rect.md R180). -/
theorem cornerResult_comm (dx dy : Nat) (rounded : Bool) :
    cornerResult wob r dx dy rounded = cornerResult wob r dy dx rounded := by
  rcases lt_trichotomy dx dy with h | rfl | h
  · exact cornerResult_of_lt h rounded
  · rfl
  · exact (cornerResult_of_lt h rounded).symm

/-- Where the cross fill reaches into a corner box the scans paint background too (42_rounded_rect.md R181). -/
theorem cornerResult_zero {d : Nat} (hd : d < r) (rounded : Bool) :
    cornerResult wob r 0 d rounded = some (bgColour wob) := by
  unfold cornerResult
  rw [xi_zero]
  split_ifs with h1 h2
  · rw [scanColour_of_lt _ _ (by rwa [xi_zero])]
  · rw [scanColour_of_lt _ _ (by omega)]
  · omega

/-! ## The scans -/

/-- The calls of one octant step (42_rounded_rect.md R180, R182). -/
def stepMicro (x0 y0 wd ht r : Nat) (wob rl rr : Bool) (e : Nat) : List Micro :=
  (corners x0 y0 (x0 + wd : Nat) (y0 + ht : Nat) r rl rr).flatMap fun q => rowScan wob r e q ++ colScan wob r e q

theorem scanMicro_eq_steps : scanMicro x0 y0 (x0 + wd : Nat) (y0 + ht : Nat) r wob rl rr =
    (List.range (octantSteps r).length).flatMap (stepMicro x0 y0 wd ht r wob rl rr) := by
  rw [← octantSteps_eq_range]
  rfl

section
variable (hw : 2 * r ≤ wd) (hh : 2 * r ≤ ht)
include hw hh

/-- The pixels of the corner boxes are those at box offsets in both directions (42_rounded_rect.md R173). -/
theorem exists_corner_iff {dx dy : Nat} (hdx : dx < r) (hdy : dy < r) {p : Int → Int → Bool → Prop} :
    (∃ q ∈ corners x0 y0 (x0 + wd : Nat) (y0 + ht : Nat) r rl rr,
        p (q.cx + q.sx * dx) (q.cy + q.sy * dy) q.rounded) ↔
      ∃ right low, p (x0 + boxOffset wd r right dx : Nat) (y0 + boxOffset ht r low dy : Nat)
        (if right then rr else rl) := by
  have e1 : ((x0 : Int) + r - 1 + -1 * dx) = (x0 + (r - 1 - dx) : Nat) := by omega
  have e2 : (((x0 + wd : Nat) : Int) - r + 1 * dx) = (x0 + (wd - r + dx) : Nat) := by omega
  have e3 : ((y0 : Int) + r - 1 + -1 * dy) = (y0 + (r - 1 - dy) : Nat) := by omega
  have e4 : (((y0 + ht : Nat) : Int) - r + 1 * dy) = (y0 + (ht - r + dy) : Nat) := by omega
  simp only [corners, List.mem_cons, List.not_mem_nil, or_false, exists_eq_or_imp, exists_eq_left, e1, e2, e3, e4,
    Bool.exists_bool, boxOffset, if_true, Bool.false_eq_true, if_false]
  tauto

/-- The pixel writes of one step: a row scan at depth `e` down the column, a column scan at depth `e` along the row,
in all four boxes (42_rounded_rect.md R180). -/
theorem mem_stepMicro {e : Nat} (he : e < r) {m : Micro} : m ∈ stepMicro x0 y0 wd ht r wob rl rr e ↔
    ∃ d < r, (∃ right low, m = .wpxu (x0 + boxOffset wd r right d : Nat) (y0 + boxOffset ht r low e : Nat)
        (scanColour wob r e d (if right then rr else rl))) ∨
      ∃ right low, m = .wpxu (x0 + boxOffset wd r right e : Nat) (y0 + boxOffset ht r low d : Nat)
        (scanColour wob r e d (if right then rr else rl)) := by
  have row {d : Nat} (hd : d < r) := exists_corner_iff (x0 := x0) (y0 := y0) (rl := rl) (rr := rr) hw hh hd he
    (p := fun x y rounded => m = .wpxu x y (scanColour wob r e d rounded))
  have col {d : Nat} (hd : d < r) := exists_corner_iff (x0 := x0) (y0 := y0) (rl := rl) (rr := rr) hw hh he hd
    (p := fun x y rounded => m = .wpxu x y (scanColour wob r e d rounded))
  rw [stepMicro, mem_step]
  constructor
  · rintro ⟨q, hq, d, hd, h | h⟩
    · exact ⟨d, hd, .inl ((row hd).1 ⟨q, hq, h⟩)⟩
    · exact ⟨d, hd, .inr ((col hd).1 ⟨q, hq, h⟩)⟩
  · rintro ⟨d, hd, h | h⟩
    · obtain ⟨q, hq, h⟩ := (row hd).2 h
      exact ⟨q, hq, d, hd, .inl h⟩
    · obtain ⟨q, hq, h⟩ := (col hd).2 h
      exact ⟨q, hq, d, hd, .inr h⟩

/-- Every write of a step is in the rectangle (42_rounded_rect.md R173). -/
theorem offsets_of_mem_stepMicro {e : Nat} (he : e < r) {m : Micro} (hm : m ∈ stepMicro x0 y0 wd ht r wob rl rr e) :
    ∃ i < wd, ∃ j < ht, ∃ c, m = .wpxu (x0 + i : Nat) (y0 + j : Nat) c := by
  obtain ⟨d, hd, ⟨right, low, h⟩ | ⟨right, low, h⟩⟩ := (mem_stepMicro hw hh he).1 hm
  · exact ⟨_, boxOffset_lt hw right hd, _, boxOffset_lt hh low he, _, h⟩
  · exact ⟨_, boxOffset_lt hw right he, _, boxOffset_lt hh low hd, _, h⟩

/-- The writes of a step to one pixel, by the depths of the pixel (42_rounded_rect.md R180). -/
theorem wpxu_mem_stepMicro {e i j : Nat} (he : e < r) (hi : i < wd) (hj : j < ht) {c : Colour} :
    Micro.wpxu (x0 + i : Nat) (y0 + j : Nat) c ∈ stepMicro x0 y0 wd ht r wob rl rr e ↔
      ∃ dx dy, edgeDepth wd r i = some dx ∧ edgeDepth ht r j = some dy ∧
        (e = dy ∧ c = scanColour wob r e dx (sideRounded r rl rr i) ∨
          e = dx ∧ c = scanColour wob r e dy (sideRounded r rl rr i)) := by
  simp only [mem_stepMicro hw hh he, Micro.wpxu.injEq, Int.natCast_inj, Nat.add_right_inj]
  constructor
  · rintro ⟨d, hd, ⟨right, low, rfl, rfl, rfl⟩ | ⟨right, low, rfl, rfl, rfl⟩⟩
    · exact ⟨d, e, edgeDepth_boxOffset hw right hd, edgeDepth_boxOffset hh low he,
        .inl ⟨rfl, by rw [sideRounded_boxOffset hw right hd]⟩⟩
    · exact ⟨e, d, edgeDepth_boxOffset hw right he, edgeDepth_boxOffset hh low hd,
        .inr ⟨rfl, by rw [sideRounded_boxOffset hw right he]⟩⟩
  · rintro ⟨dx, dy, hx, hy, h⟩
    obtain ⟨hdx, right, rfl⟩ := (edgeDepth_eq_some_iff_boxOffset hw hi).1 hx
    obtain ⟨hdy, low, rfl⟩ := (edgeDepth_eq_some_iff_boxOffset hh hj).1 hy
    rw [sideRounded_boxOffset hw right hdx] at h
    rcases h with ⟨rfl, rfl⟩ | ⟨rfl, rfl⟩
    · exact ⟨dx, hdx, .inl ⟨right, low, rfl, rfl, rfl⟩⟩
    · exact ⟨dy, hdy, .inr ⟨right, low, rfl, rfl, rfl⟩⟩

section
variable {i j dx dy : Nat} (hi : i < wd) (hj : j < ht) (hx : edgeDepth wd r i = some dx)
  (hy : edgeDepth ht r j = some dy)
include hi hj hx hy

/-- The row scan of step `dy` and the column scan of step `dx` reach a pixel of depths `dx`, `dy`
(42_rounded_rect.md R180). -/
theorem wpxu_mem_stepMicro_of_depths {e : Nat} (he : e < r) {c : Colour} :
    Micro.wpxu (x0 + i : Nat) (y0 + j : Nat) c ∈ stepMicro x0 y0 wd ht r wob rl rr e ↔
      e = dy ∧ c = scanColour wob r e dx (sideRounded r rl rr i) ∨
        e = dx ∧ c = scanColour wob r e dy (sideRounded r rl rr i) := by
  simp only [wpxu_mem_stepMicro hw hh he hi hj, hx, hy, Option.some.injEq, exists_eq_left', exists_and_left]

/-- Where both scans of a step reach a pixel, on the diagonal of the box, they agree. -/
theorem lastWrite_stepMicro {e : Nat} (he : e < r) {c : Colour}
    (hc : e = dy ∧ c = scanColour wob r e dx (sideRounded r rl rr i) ∨
      e = dx ∧ c = scanColour wob r e dy (sideRounded r rl rr i)) :
    lastWrite (stepMicro x0 y0 wd ht r wob rl rr e) (x0 + i) (y0 + j) = some c := by
  have hmem {c : Colour} := wpxu_mem_stepMicro_of_depths (x0 := x0) (y0 := y0) (wob := wob) (rl := rl) (rr := rr)
    (c := c) hw hh hi hj hx hy he
  refine lastWrite_eq (hmem.2 hc) fun c' hc' => ?_
  rcases hc with ⟨hrow, rfl⟩ | ⟨hcol, rfl⟩
  · rcases hmem.1 hc' with ⟨-, rfl⟩ | ⟨hcol, rfl⟩
    · rfl
    · rw [← hrow, ← hcol]
  · rcases hmem.1 hc' with ⟨hrow, rfl⟩ | ⟨-, rfl⟩
    · rw [← hrow, ← hcol]
    · rfl

/-- No other step reaches the pixel. -/
theorem lastWrite_stepMicro_other {e : Nat} (he : e < r) (hex : e ≠ dx) (hey : e ≠ dy) :
    lastWrite (stepMicro x0 y0 wd ht r wob rl rr e) (x0 + i) (y0 + j) = none := by
  refine lastWrite_none fun c hc => ?_
  rcases (wpxu_mem_stepMicro_of_depths hw hh hi hj hx hy he).1 hc with ⟨h, -⟩ | ⟨h, -⟩
  · exact hey h
  · exact hex h

/-- The steps leave `cornerResult` in a corner box: the later of steps `dx` and `dy`, where they are steps
(42_rounded_rect.md R182). -/
theorem lastWrite_scanMicro :
    lastWrite (scanMicro x0 y0 (x0 + wd : Nat) (y0 + ht : Nat) r wob rl rr) (x0 + i) (y0 + j) =
      cornerResult wob r dx dy (sideRounded r rl rr i) := by
  have hdx := ((edgeDepth_eq_some hw hi).1 hx).1
  have hdy := ((edgeDepth_eq_some hh hj).1 hy).1
  have other {e : Nat} (he : e < (octantSteps r).length) (hex : e ≠ dx) (hey : e ≠ dy) :=
    lastWrite_stepMicro_other (x0 := x0) (y0 := y0) (wob := wob) (rl := rl) (rr := rr) hw hh hi hj hx hy
      (step_lt_radius (by omega) he) hex hey
  rw [scanMicro_eq_steps, cornerResult]
  split_ifs with h1 h2
  · refine lastWrite_steps _ _ _ _ dx _ (lt_length_octantSteps.2 ⟨hdx.le, h1.1⟩)
      (lastWrite_stepMicro hw hh hi hj hx hy hdx (.inr ⟨rfl, rfl⟩)) fun e hlt he => other he hlt.ne' ?_
    rintro rfl
    have := lt_length_octantSteps.1 he
    omega
  · refine lastWrite_steps _ _ _ _ dy _ (lt_length_octantSteps.2 ⟨hdy.le, h2⟩)
      (lastWrite_stepMicro hw hh hi hj hx hy hdy (.inl ⟨rfl, rfl⟩)) fun e hlt he => other he ?_ hlt.ne'
    rintro rfl
    have := lt_length_octantSteps.1 he
    omega
  · refine lastWrite_steps_none _ _ _ _ fun e he => other he ?_ ?_ <;>
    · rintro rfl
      have := lt_length_octantSteps.1 he
      omega

end

end

/-! ## The command -/

/-- The calls of RRECT (42_rounded_rect.md R184). -/
def rrectMicro (w h x0 y0 wd ht r : Nat) (wob rl rr : Bool) : List Micro :=
  scanMicro x0 y0 (x0 + wd : Nat) (y0 + ht : Nat) r wob rl rr ++
    crossMicro w h x0 y0 (x0 + wd : Nat) (y0 + ht : Nat) r wob

theorem exec_rrect {x0 y0 x1 y1 radius : Coord} (wob rl rr : Bool) (hx : x0.toNat ≤ x1.toNat)
    (hxw : x1.toNat ≤ s.cfg.w) (hy : y0.toNat ≤ y1.toNat) (hyh : y1.toNat ≤ s.cfg.h) (hr : 1 ≤ radius.toNat)
    (hw : 2 * radius.toNat ≤ x1.toNat - x0.toNat) (hh : 2 * radius.toNat ≤ y1.toNat - y0.toNat) :
    exec (.rrect x0 y0 x1 y1 wob rl rr radius) s =
      .next (runMicro (rrectMicro s.cfg.w s.cfg.h x0.toNat y0.toNat (x1.toNat - x0.toNat) (y1.toNat - y0.toNat)
        radius.toNat wob rl rr) s) := by
  have hpre : rrectPre s.cfg.w s.cfg.h x0.toNat y0.toNat x1.toNat y1.toNat radius.toNat = true := by
    simp [rrectPre, *]
  show execRrect x0 y0 x1 y1 wob rl rr radius s = _
  rw [execRrect, if_pos hpre, rrectMicro, Nat.add_sub_cancel' hx, Nat.add_sub_cancel' hy]
  rfl

/-- The three bands of the cross fill (42_rounded_rect.md R181). -/
theorem wpxu_mem_crossMicro {w h : Nat} {x0 y0 x1 y1 x y : Int} {c : Colour} :
    Micro.wpxu x y c ∈ crossMicro w h x0 y0 x1 y1 r wob ↔ c = bgColour wob ∧ x < w ∧ y < h ∧
      (x0 ≤ x ∧ x < x1 ∧ y0 + r - 1 ≤ y ∧ y < y1 - r + 1 ∨
        x0 + r - 1 ≤ x ∧ x < x1 - r + 1 ∧ (y0 ≤ y ∧ y < y0 + r - 1 ∨ y1 - r + 1 ≤ y ∧ y < y1)) := by
  simp only [crossMicro, List.mem_append, mem_frectMicro]
  tauto

/-- The cross fill is background writes alone. -/
theorem eq_wpxu_of_mem_crossMicro {w h : Nat} {x0 y0 x1 y1 : Int} {m : Micro}
    (hm : m ∈ crossMicro w h x0 y0 x1 y1 r wob) : ∃ x y, m = .wpxu x y (bgColour wob) := by
  simp only [crossMicro, List.mem_append] at hm
  rcases hm with (hm | hm) | hm <;> exact eq_wpxu_of_mem_frectMicro hm

section
variable {w h : Nat} (hr : 1 ≤ r) (hw : 2 * r ≤ wd) (hh : 2 * r ≤ ht) (hxw : x0 + wd ≤ w) (hyh : y0 + ht ≤ h)
include hr hw hh hxw hyh

/-- The cross fill takes depth 0 of the boxes, along the row or along the column, and everything between them
(42_rounded_rect.md R181). -/
theorem mem_crossMicro {m : Micro} : m ∈ crossMicro w h x0 y0 (x0 + wd : Nat) (y0 + ht : Nat) r wob ↔
    ∃ i < wd, ∃ j < ht, m = .wpxu (x0 + i : Nat) (y0 + j : Nat) (bgColour wob) ∧
      ((∀ d, edgeDepth wd r i = some d → d = 0) ∨ ∀ d, edgeDepth ht r j = some d → d = 0) := by
  constructor
  · intro hm
    obtain ⟨x, y, rfl⟩ := eq_wpxu_of_mem_crossMicro hm
    obtain ⟨-, -, -, hb⟩ := wpxu_mem_crossMicro.1 hm
    obtain ⟨i, hi⟩ := Int.eq_ofNat_of_zero_le (show 0 ≤ x - x0 by omega)
    obtain ⟨j, hj⟩ := Int.eq_ofNat_of_zero_le (show 0 ≤ y - y0 by omega)
    obtain rfl : x = (x0 + i : Nat) := by omega
    obtain rfl : y = (y0 + j : Nat) := by omega
    refine ⟨i, by omega, j, by omega, rfl, ?_⟩
    rw [← band_iff_edgeDepth hw hr (by omega), ← band_iff_edgeDepth hh hr (by omega)]
    omega
  · rintro ⟨i, hi, j, hj, rfl, hb⟩
    rw [← band_iff_edgeDepth hw hr hi, ← band_iff_edgeDepth hh hr hj] at hb
    exact wpxu_mem_crossMicro.2 ⟨rfl, by omega, by omega, by omega⟩

/-- Every call of RRECT writes a pixel of the rectangle (42_rounded_rect.md R173, R181). -/
theorem offsets_of_mem_rrectMicro {m : Micro} (hm : m ∈ rrectMicro w h x0 y0 wd ht r wob rl rr) :
    ∃ i < wd, ∃ j < ht, ∃ c, m = .wpxu (x0 + i : Nat) (y0 + j : Nat) c := by
  rw [rrectMicro, scanMicro_eq_steps, List.mem_append, List.mem_flatMap] at hm
  rcases hm with ⟨e, he, hm⟩ | hm
  · exact offsets_of_mem_stepMicro hw hh (step_lt_radius hr (List.mem_range.1 he)) hm
  · obtain ⟨i, hi, j, hj, heq, -⟩ := (mem_crossMicro hr hw hh hxw hyh).1 hm
    exact ⟨i, hi, j, hj, _, heq⟩

theorem rrectMicro_inScreen : ∀ m ∈ rrectMicro w h x0 y0 wd ht r wob rl rr, m.inScreen w h := by
  intro m hm
  obtain ⟨i, hi, j, hj, c, rfl⟩ := offsets_of_mem_rrectMicro hr hw hh hxw hyh hm
  exact ⟨by omega, by omega, by omega, by omega⟩

theorem lastWrite_rrectMicro_outside {x y : Nat} (hout : ¬ (x0 ≤ x ∧ x < x0 + wd ∧ y0 ≤ y ∧ y < y0 + ht)) :
    lastWrite (rrectMicro w h x0 y0 wd ht r wob rl rr) x y = none := by
  refine lastWrite_none fun c hc => hout ?_
  obtain ⟨i, hi, j, hj, c', heq⟩ := offsets_of_mem_rrectMicro hr hw hh hxw hyh hc
  obtain ⟨hx, hy, -⟩ := Micro.wpxu.inj heq
  omega

theorem lastWrite_crossMicro_of_pos {i j dx dy : Nat} (hx : edgeDepth wd r i = some dx)
    (hy : edgeDepth ht r j = some dy) (hdx : dx ≠ 0) (hdy : dy ≠ 0) :
    lastWrite (crossMicro w h x0 y0 (x0 + wd : Nat) (y0 + ht : Nat) r wob) (x0 + i) (y0 + j) = none := by
  refine lastWrite_none fun c hc => ?_
  obtain ⟨i', hi', j', hj', heq, hb⟩ := (mem_crossMicro hr hw hh hxw hyh).1 hc
  obtain ⟨hxi, hyj, -⟩ := Micro.wpxu.inj heq
  obtain rfl : i = i' := by omega
  obtain rfl : j = j' := by omega
  exact hb.elim (fun hb => hdx (hb dx hx)) fun hb => hdy (hb dy hy)

section
variable {i j : Nat} (hi : i < wd) (hj : j < ht)
include hi hj

theorem lastWrite_crossMicro_of_zero
    (hb : (∀ d, edgeDepth wd r i = some d → d = 0) ∨ ∀ d, edgeDepth ht r j = some d → d = 0) :
    lastWrite (crossMicro w h x0 y0 (x0 + wd : Nat) (y0 + ht : Nat) r wob) (x0 + i) (y0 + j) =
      some (bgColour wob) :=
  lastWrite_eq ((mem_crossMicro hr hw hh hxw hyh).2 ⟨i, hi, j, hj, rfl, hb⟩) fun _ hc => (wpxu_mem_crossMicro.1 hc).1

/-- RRECT leaves the closed form: the cross fill repaints only what the scans left background
(42_rounded_rect.md R181, R182). -/
theorem lastWrite_rrectMicro_inside : lastWrite (rrectMicro w h x0 y0 wd ht r wob rl rr) (x0 + i) (y0 + j) =
    rrectResult wd ht r wob rl rr i j := by
  rw [rrectMicro, lastWrite_append]
  cases hx : edgeDepth wd r i with
  | none =>
    rw [lastWrite_crossMicro_of_zero hr hw hh hxw hyh hi hj (.inl (by simp [hx])), rrectResult_between (.inl hx),
      Option.some_or]
  | some dx =>
    cases hy : edgeDepth ht r j with
    | none =>
      rw [lastWrite_crossMicro_of_zero hr hw hh hxw hyh hi hj (.inr (by simp [hy])), rrectResult_between (.inr hy),
        Option.some_or]
    | some dy =>
      have hdx := ((edgeDepth_eq_some hw hi).1 hx).1
      have hdy := ((edgeDepth_eq_some hh hj).1 hy).1
      rw [rrectResult_corner hx hy]
      by_cases h0 : dx = 0 ∨ dy = 0
      · rw [lastWrite_crossMicro_of_zero hr hw hh hxw hyh hi hj (by simpa [hx, hy] using h0), Option.some_or]
        rcases h0 with rfl | rfl
        · exact (cornerResult_zero hdy _).symm
        · rw [cornerResult_comm]
          exact (cornerResult_zero hdx _).symm
      · rw [lastWrite_crossMicro_of_pos hr hw hh hxw hyh hx hy (not_or.1 h0).1 (not_or.1 h0).2, Option.none_or,
          lastWrite_scanMicro hw hh hi hj hx hy]

end

end

section
variable (hr : 1 ≤ r) (hw : 2 * r ≤ wd) (hh : 2 * r ≤ ht) (hxw : x0 + wd ≤ s.cfg.w) (hyh : y0 + ht ≤ s.cfg.h)
include hr hw hh hxw hyh

/-- A pixel of the rectangle after RRECT (42_rounded_rect.md R172 to R184). -/
theorem pixel_rrectMicro {i j : Nat} (hi : i < wd) (hj : j < ht) :
    (runMicro (rrectMicro s.cfg.w s.cfg.h x0 y0 wd ht r wob rl rr) s).pixel (x0 + i) (y0 + j) =
      (rrectResult wd ht r wob rl rr i j).getD (s.pixel (x0 + i) (y0 + j)) := by
  rw [runMicro_pixel (rrectMicro_inScreen hr hw hh hxw hyh) (by omega),
    lastWrite_rrectMicro_inside hr hw hh hxw hyh hi hj]

/-- The picture RRECT paints (42_rounded_rect.md R172 to R184). -/
theorem paints_rrectMicro :
    paints s (runMicro (rrectMicro s.cfg.w s.cfg.h x0 y0 wd ht r wob rl rr) s)
      (fun x y => x0 ≤ x ∧ x < x0 + wd ∧ y0 ≤ y ∧ y < y0 + ht ∧
        (rrectResult wd ht r wob rl rr (x - x0) (y - y0)).isSome)
      fun x y => (rrectResult wd ht r wob rl rr (x - x0) (y - y0)).getD 0 := by
  have inside {x y : Nat} (hin : x0 ≤ x ∧ x < x0 + wd ∧ y0 ≤ y ∧ y < y0 + ht) :
      lastWrite (rrectMicro s.cfg.w s.cfg.h x0 y0 wd ht r wob rl rr) x y =
        rrectResult wd ht r wob rl rr (x - x0) (y - y0) := by
    rw [← lastWrite_rrectMicro_inside hr hw hh hxw hyh (by omega) (by omega), Nat.add_sub_cancel' hin.1,
      Nat.add_sub_cancel' hin.2.2.1]
  have outside {x y : Nat} (hout : ¬ (x0 ≤ x ∧ x < x0 + wd ∧ y0 ≤ y ∧ y < y0 + ht)) :
      lastWrite (rrectMicro s.cfg.w s.cfg.h x0 y0 wd ht r wob rl rr) x y = none :=
    lastWrite_rrectMicro_outside hr hw hh hxw hyh hout
  refine paints_congr (paints_lastWrite (rrectMicro_inScreen hr hw hh hxw hyh)) (fun x y => ?_) fun x y hp => ?_
  · by_cases hin : x0 ≤ x ∧ x < x0 + wd ∧ y0 ≤ y ∧ y < y0 + ht
    · rw [inside hin]
      tauto
    · rw [outside hin]
      simp only [Option.isSome_none, Bool.false_eq_true, false_iff]
      tauto
  · by_cases hin : x0 ≤ x ∧ x < x0 + wd ∧ y0 ≤ y ∧ y < y0 + ht
    · rw [inside hin]
    · rw [outside hin] at hp
      cases hp

end

/-! ## The mirrors of the closed form -/

theorem sideRounded_self (rounded : Bool) (i : Nat) : sideRounded r rounded rounded i = rounded := ite_self _

/-- With all corners alike the closed form depends on the two depths alone. -/
theorem rrectResult_congr {i j i' j' : Nat} (rounded : Bool) (hi : edgeDepth wd r i = edgeDepth wd r i')
    (hj : edgeDepth ht r j = edgeDepth ht r j') :
    rrectResult wd ht r wob rounded rounded i j = rrectResult wd ht r wob rounded rounded i' j' := by
  cases hx : edgeDepth wd r i with
  | none => rw [rrectResult_between (.inl hx), rrectResult_between (.inl (hi ▸ hx))]
  | some dx =>
    cases hy : edgeDepth ht r j with
    | none => rw [rrectResult_between (.inr hy), rrectResult_between (.inr (hj ▸ hy))]
    | some dy =>
      rw [rrectResult_corner hx hy, rrectResult_corner (hi ▸ hx) (hj ▸ hy), sideRounded_self, sideRounded_self]

theorem rrectResult_transpose (rounded : Bool) (i j : Nat) :
    rrectResult wd ht r wob rounded rounded i j = rrectResult ht wd r wob rounded rounded j i := by
  cases hx : edgeDepth wd r i with
  | none => rw [rrectResult_between (.inl hx), rrectResult_between (.inr hx)]
  | some dx =>
    cases hy : edgeDepth ht r j with
    | none => rw [rrectResult_between (.inr hy), rrectResult_between (.inl hy)]
    | some dy =>
      rw [rrectResult_corner hx hy, rrectResult_corner hy hx, sideRounded_self, sideRounded_self, cornerResult_comm]

end Sys2Proof.Machine
end

section
/-!
PROOF. Unit RR (42_rounded_rect.md): the edge function, the octant steps, the scan colours and RRECT.
-/

namespace Sys2Proof.Machine

/-- Settles O42: `isqrt` is the two-sided root, and both ends of the range are exact squares. -/
theorem edgeFunctionIsTheFixedPointRoot : Obligations.EdgeFunctionIsTheFixedPointRoot := by
  intro r e _
  obtain ⟨hle, hlt⟩ := isqrt_spec (256 * (r * r - e * e))
  exact ⟨hle, hlt, rfl, toNat_coverageValue r e, x16_zero r, xi_zero r, coverageValue_zero r, x16_self r⟩

/-- Settles O43: `e ≤ xi(e)` is lost for good once it fails, step 0 passes it, and step `r` does not when `r ≥ 1`. -/
theorem octantStepsAreAnInitialSegment : Obligations.OctantStepsAreAnInitialSegment := by
  intro r
  refine ⟨fun e e' h _ => xi_antitone r h, fun e => mem_octantSteps, (octantSteps r).length - 1, ?_, fun hr => ?_⟩
  · have hzero : 0 < (octantSteps r).length := lt_length_octantSteps.2 ⟨r.zero_le, Nat.zero_le _⟩
    rw [Nat.sub_add_cancel hzero]
    exact octantSteps_eq_range r
  · have hlast : ¬ r < (octantSteps r).length := fun h => (step_lt_radius hr h).false
    omega

/-- Settles O46: the last write to each pixel is the closed form. -/
theorem rrectPaintsTheRoundedRectangle : Obligations.RrectPaintsTheRoundedRectangle := by
  intro s x0 y0 x1 y1 r wob rl rr hx hxw hy hyh hr hw hh
  have hpaint := paints_rrectMicro (s := s) (wob := wob) (rl := rl) (rr := rr) hr hw hh
    (show x0.toNat + (x1.toNat - x0.toNat) ≤ s.cfg.w by omega)
    (show y0.toNat + (y1.toNat - y0.toNat) ≤ s.cfg.h by omega)
  rw [Nat.add_sub_cancel' hx, Nat.add_sub_cancel' hy] at hpaint
  exact ⟨_, exec_rrect wob rl rr hx hxw hy hyh hr hw hh, hpaint⟩

/-- Settles O47: a mirror keeps both depths of a pixel, the transpose swaps them, and the colour of a corner pixel is
the same under the swap. -/
theorem rrectIsItsOwnMirror : Obligations.RrectIsItsOwnMirror := by
  intro s x0 y0 x1 y1 r wob old hx hxw hy hyh hr hw hh hold
  refine ⟨_, exec_rrect wob true true hx hxw hy hyh hr hw hh, fun i j hi hj => ?_⟩
  have hpixel {i j : Nat} (hi : i < x1.toNat - x0.toNat) (hj : j < y1.toNat - y0.toNat) :
      (runMicro (rrectMicro s.cfg.w s.cfg.h x0.toNat y0.toNat (x1.toNat - x0.toNat) (y1.toNat - y0.toNat) r.toNat
        wob true true) s).pixel (x0.toNat + i) (y0.toNat + j) =
        (rrectResult (x1.toNat - x0.toNat) (y1.toNat - y0.toNat) r.toNat wob true true i j).getD old := by
    rw [pixel_rrectMicro hr hw hh (by omega) (by omega) hi hj, hold _ _ (by omega) (by omega)]
  refine ⟨?_, ?_, fun hsquare => ?_⟩
  · rw [show x1.toNat - 1 - i = x0.toNat + (x1.toNat - x0.toNat - 1 - i) by omega, hpixel hi hj,
      hpixel (by omega) hj, rrectResult_congr true (edgeDepth_mirror hw hi) rfl]
  · rw [show y1.toNat - 1 - j = y0.toNat + (y1.toNat - y0.toNat - 1 - j) by omega, hpixel hi hj,
      hpixel hi (by omega), rrectResult_congr true rfl (edgeDepth_mirror hh hj)]
  · rw [hpixel hi hj, hpixel (by omega) (by omega), rrectResult_transpose, hsquare]

/-- Settles O44: one equation of `scanColour` for each side of the boundary. -/
theorem scanColourFollowsTheCoverage : Obligations.ScanColourFollowsTheCoverage := fun wob _ _ _ =>
  ⟨scanColour_of_lt wob true, scanColour_boundary wob, scanColour_of_gt wob, scanColour_square wob ..⟩

end Sys2Proof.Machine
end

section
/-!
PROOF. The blit as a picture drawn row by row: the colour of each pixel, the image that fits on the screen, and the
three ways an image leaves it (43_layout_and_blit.md R206 to R209).
-/

namespace Sys2Proof.Machine

variable {s : State} {m : Image} {image : Coord}

/-! ## F_OOB at integer coordinates -/

/-- Taking F_OOB at a coordinate, each component modulo 2^16 in FINFO (10_state.md R28; 60_exceptions.md R238). -/
theorem raise_oob (s : State) (x y : Int) :
    s.raise (.oob x y) = { s with status := 0x32, finfo := BitVec.ofInt 16 y ++ BitVec.ofInt 16 x } := by
  simp [State.raise, statusOfFault, faultCode, finfoOfFault]

/-- A coordinate less a number it is at least, as an integer (43_layout_and_blit.md R209). -/
theorem opInt_sub_ofNat {v : Coord} {n : Nat} (h : n ≤ v.toNat) : opInt (v - BitVec.ofNat 16 n) = opInt v - n := by
  simp only [opInt]; bv_omega

/-- A coordinate less a number is taken modulo 2^16 in FINFO (10_state.md R28). -/
theorem ofInt_opInt_sub (v : Coord) (n : Nat) : BitVec.ofInt 16 (opInt v - n) = v - BitVec.ofNat 16 n := by
  rw [opInt, sub_eq_add_neg, BitVec.ofInt_add, BitVec.ofInt_neg, BitVec.ofInt_natCast, BitVec.ofInt_natCast,
    ← sub_eq_add_neg, BitVec.ofNat_toNat, BitVec.setWidth_eq]

/-! ## The unit calls of the blit -/

/-- The colour of the blit at column `ix`, row `iy` of the image (43_layout_and_blit.md R206, R207). -/
def blitColour (m : Image) (ix iy : Nat) : Colour :=
  let o := (iy * evenUp m.width + ix) * (if m.alpha then 4 else 3)
  if ix < m.width then
    rgb (hiNib (m.bytes[o + 2]?.getD 0)) (hiNib (m.bytes[o + 1]?.getD 0)) (hiNib (m.bytes[o]?.getD 0))
  else black

/-- The colour of the blit in screen columns: the image's true width ends at column `x + width`. -/
theorem blitColour_sub {x px : Nat} (h : x ≤ px) (iy : Nat) :
    blitColour m (px - x) iy =
      let o := (iy * evenUp m.width + (px - x)) * (if m.alpha then 4 else 3)
      if px < x + m.width then
        (m.bytes[o + 2]?.getD 0).extractLsb' 4 4 ++ (m.bytes[o + 1]?.getD 0).extractLsb' 4 4 ++
          (m.bytes[o]?.getD 0).extractLsb' 4 4
      else 0x000 := by
  simp only [blitColour, Nat.sub_lt_iff_lt_add' h]
  rfl

theorem imagePixelMicro_eq_blit (hm : imageWf m = true) (x y : Int) {ix iy : Nat} (hy : iy < m.height) :
    imagePixelMicro m x y ix iy = .wpxu (x + ix) (y + iy) (blitColour m ix iy) :=
  imagePixelMicro_eq hm x y hy

/-- An image without rows or columns makes no unit call (43_layout_and_blit.md R208). -/
theorem imageMicro_empty (x y : Int) (h : evenUp m.width = 0 ∨ m.height = 0) : imageMicro m x y = [] := by
  rw [imageMicro_eq, picture_empty (by omega)]

/-- An image that fits on the screen is painted (43_layout_and_blit.md R206, R207). -/
theorem paints_imageMicro {x y : Nat} (hm : imageWf m = true) (hx : x + evenUp m.width ≤ s.cfg.w)
    (hy : y + m.height ≤ s.cfg.h) :
    paints s (runMicro (imageMicro m x y) s)
      (fun px py => x ≤ px ∧ px < x + evenUp m.width ∧ y ≤ py ∧ py < y + m.height)
      (fun px py => blitColour m (px - x) (py - y)) := by
  refine paints_runMicro (fun k hk => ?_) (fun px py c _ _ hk => ?_) fun px py _ _ hp => ?_
  · obtain ⟨ix, iy, hix, hiy, rfl⟩ := (mem_imageMicro hm).1 hk
    exact ⟨by omega, by omega, by omega, by omega⟩
  · obtain ⟨ix, iy, hix, hiy, heq⟩ := (mem_imageMicro hm).1 hk
    obtain ⟨hpx, hpy, rfl⟩ := Micro.wpxu.inj heq
    obtain rfl : px = x + ix := by omega
    obtain rfl : py = y + iy := by omega
    exact ⟨by omega, by rw [Nat.add_sub_cancel_left, Nat.add_sub_cancel_left, blitColour]⟩
  · obtain ⟨h1, h2, h3, h4⟩ := hp
    refine ⟨blitColour m (px - x) (py - y), (mem_imageMicro hm).2 ⟨px - x, py - y, by omega, by omega, ?_⟩⟩
    rw [← Nat.cast_add, ← Nat.cast_add, Nat.add_sub_cancel' h1, Nat.add_sub_cancel' h3, blitColour]

/-- An image whose first pixel is off the screen, on either side of it, faults there and writes nothing
(43_layout_and_blit.md R208, R209; 60_exceptions.md R234). -/
theorem runMicro_imageMicro_firstOff {x y : Int} (hm : imageWf m = true) (hw : 0 < evenUp m.width)
    (hh : 0 < m.height) (hoff : s.inBounds x y = false) :
    runMicro (imageMicro m x y) s = s.raise (.oob x y) := by
  have hfirst : imagePixelMicro m x y (0 : Int).toNat (0 : Int).toNat = .wpxu x y (blitColour m 0 0) := by
    rw [Int.toNat_zero, imagePixelMicro_eq_blit hm x y hh, Int.natCast_zero, Int.add_zero, Int.add_zero]
  rw [imageMicro_eq, runMicro_first_off (by omega) (by omega) hfirst hoff]

/-! ## DIMG and DIMGC -/

theorem exec_dimg (x y : Coord) (h : s.cfg.images[image.toNat]? = some m) :
    exec (.dimg image x y) s = .next (runMicro (imageMicro m (opInt x) (opInt y)) s) := by
  show execDimg image x y s = _
  simp only [execDimg, State.image?, h]

theorem exec_dimgc (cx cy : Coord) (h : s.cfg.images[image.toNat]? = some m) :
    exec (.dimgc image cx cy) s =
      .next (runMicro (imageMicro m (opInt cx - (m.width / 2 : Nat)) (opInt cy - (m.height / 2 : Nat))) s) := by
  show execDimgc image cx cy s = _
  simp only [execDimgc, State.image?, h]

/-- An image whose first row runs over the right edge: the row is painted up to the edge, the fault is taken there
(43_layout_and_blit.md R208; 60_exceptions.md R238). -/
theorem exec_dimg_overEdge {x y : Coord} (hm : imageWf m = true) (himage : s.cfg.images[image.toNat]? = some m)
    (hh : 0 < m.height) (hy : y.toNat < s.cfg.h) (hx : x.toNat ≤ s.cfg.w)
    (hover : s.cfg.w < x.toNat + evenUp m.width) :
    ∃ u, exec (.dimg image x y) s = .next { u with status := 0x32, finfo := y ++ BitVec.ofNat 16 s.cfg.w } ∧
      paints s u (fun px py => x.toNat ≤ px ∧ px < s.cfg.w ∧ py = y.toNat)
        (fun px py => blitColour m (px - x.toNat) (py - y.toNat)) := by
  have hox : opInt x = x.toNat := rfl
  have hoy : opInt y = y.toNat := rfl
  have hrow : ∀ i : Int, 0 ≤ i → i ≤ s.cfg.w - x.toNat →
      imagePixelMicro m (opInt x) (opInt y) i.toNat (0 : Int).toNat =
        .wpxu (opInt x + i) (opInt y) (blitColour m i.toNat 0) := by
    intro i hi _
    rw [Int.toNat_zero, imagePixelMicro_eq_blit hm _ _ hh, Int.toNat_of_nonneg hi, Int.natCast_zero, Int.add_zero]
  obtain ⟨u, hrun, hpaint⟩ := runMicro_over_edge (s := s) (x := opInt x) (y := opInt y) (n := evenUp m.width)
    (h := m.height) (f := fun gx gy => imagePixelMicro m (opInt x) (opInt y) gx.toNat gy.toNat)
    (k := s.cfg.w - x.toNat) (by omega) (by omega) (by omega) (fun i => blitColour m i.toNat 0) hrow
    (by omega) (by omega) (by omega)
  refine ⟨u, ?_, paints_congr hpaint (fun px py => ?_) fun px py hp => ?_⟩
  · rw [exec_dimg x y himage, imageMicro_eq, hrun, raise_oob_edge]
  · omega
  · obtain ⟨-, -, hpy⟩ := hp
    obtain rfl : py = y.toNat := Int.natCast_inj.1 hpy
    rw [hox, Int.toNat_sub, Nat.sub_self]

/-- An image whose rows run past the bottom: the rows of the screen are painted whole, the fault is taken at the first
row off it (43_layout_and_blit.md R208; 60_exceptions.md R238). -/
theorem exec_dimg_pastBottom {x y : Coord} (hm : imageWf m = true) (himage : s.cfg.images[image.toNat]? = some m)
    (hw : 0 < evenUp m.width) (hy : y.toNat < s.cfg.h) (hx : x.toNat + evenUp m.width ≤ s.cfg.w)
    (hpast : s.cfg.h < y.toNat + m.height) :
    ∃ u, exec (.dimg image x y) s = .next { u with status := 0x32, finfo := BitVec.ofNat 16 s.cfg.h ++ x } ∧
      paints s u (fun px py => x.toNat ≤ px ∧ px < x.toNat + evenUp m.width ∧ y.toNat ≤ py ∧ py < s.cfg.h)
        (fun px py => blitColour m (px - x.toNat) (py - y.toNat)) := by
  have hox : opInt x = x.toNat := rfl
  have hoy : opInt y = y.toNat := rfl
  have hcall : ∀ i j : Int, 0 ≤ i → i < evenUp m.width → 0 ≤ j → j ≤ s.cfg.h - y.toNat →
      imagePixelMicro m (opInt x) (opInt y) i.toNat j.toNat =
        .wpxu (opInt x + i) (opInt y + j) (blitColour m i.toNat j.toNat) := by
    intro i j hi _ hj _
    rw [imagePixelMicro_eq_blit hm _ _ (by omega), Int.toNat_of_nonneg hi, Int.toNat_of_nonneg hj]
  obtain ⟨u, hrun, hpaint⟩ := runMicro_past_bottom (s := s) (x := opInt x) (y := opInt y) (n := evenUp m.width)
    (h := m.height) (f := fun gx gy => imagePixelMicro m (opInt x) (opInt y) gx.toNat gy.toNat)
    (k := s.cfg.h - y.toNat) (by omega) (by omega) (by omega) (fun i j => blitColour m i.toNat j.toNat) hcall
    (by omega) (by omega) (by omega) (by omega)
  refine ⟨u, ?_, paints_congr hpaint (fun px py => ?_) fun px py _ => ?_⟩
  · rw [exec_dimg x y himage, imageMicro_eq, hrun, raise_oob_bottom]
  · omega
  · rw [hox, hoy, Int.toNat_sub, Int.toNat_sub]

end Sys2Proof.Machine
end

section
/-!
PROOF. Image blit (43_layout_and_blit.md R206 to R209): DIMG and DIMGC.
-/

namespace Sys2Proof.Machine

/-- Settles O54: every unit call writes on the screen, and one pixel each. -/
theorem dimgPaintsTheImage : Obligations.DimgPaintsTheImage := by
  intro s image x y m hc himage hx hy
  refine ⟨_, exec_dimg x y himage, paints_congr (paints_imageMicro (configWf_image hc himage) hx hy)
    (fun _ _ => Iff.rfl) fun px py hp => ?_⟩
  exact blitColour_sub hp.1 _

/-- Settles O55: the first unit call off the screen is the first one, or the one at the right edge of the first row, or
the first one of the first row past the bottom. -/
theorem dimgOverTheEdgeRaisesFOob : Obligations.DimgOverTheEdgeRaisesFOob := by
  intro s image x y m hc himage
  have hm := configWf_image hc himage
  refine ⟨fun hempty => ?_, fun hw hh hoff => ?_, fun hh hy hx hover => ?_, fun hw hy hx hpast => ?_⟩
  · rw [exec_dimg x y himage, imageMicro_empty _ _ hempty, runMicro]
  · have hb : s.inBounds (opInt x) (opInt y) = false := Bool.eq_false_iff.2 (mt (inBounds_op x y).1 (by omega))
    rw [exec_dimg x y himage, runMicro_imageMicro_firstOff hm hw hh hb, raise_oob_op]
  · obtain ⟨u, hexec, hpaint⟩ := exec_dimg_overEdge hm himage hh hy hx hover
    exact ⟨_, u, hexec, rfl, paints_congr hpaint (fun _ _ => Iff.rfl) fun px py hp => blitColour_sub hp.1 _⟩
  · obtain ⟨u, hexec, hpaint⟩ := exec_dimg_pastBottom hm himage hw hy hx hpast
    exact ⟨_, u, hexec, rfl, paints_congr hpaint (fun _ _ => Iff.rfl) fun px py hp => blitColour_sub hp.1 _⟩

/-- Settles O56: DIMGC makes the unit calls of DIMG at the centre less half the size, where that is an operand; a
negative coordinate is off the screen. -/
theorem dimgcIsDimgAroundTheCentre : Obligations.DimgcIsDimgAroundTheCentre := by
  intro s image cx cy m hc himage
  have hm := configWf_image hc himage
  refine ⟨fun hx hy => ?_, fun hx hy hw hh => ?_, fun hempty => ?_, fun hw hh hneg => ?_⟩
  · rw [exec_dimgc cx cy himage, exec_dimg _ _ himage, opInt_sub_ofNat hx, opInt_sub_ofNat hy]
  · obtain ⟨honly, hstores, -⟩ := paints_imageMicro hm hw hh
    refine ⟨_, ?_, honly, hstores⟩
    rw [exec_dimgc cx cy himage, opInt, opInt, Int.ofNat_sub hx, Int.ofNat_sub hy]
  · have hsize : evenUp m.width = 0 ∨ m.height = 0 := by unfold evenUp; omega
    rw [exec_dimgc cx cy himage, imageMicro_empty _ _ hsize, runMicro]
  · have hb : s.inBounds (opInt cx - (m.width / 2 : Nat)) (opInt cy - (m.height / 2 : Nat)) = false := by
      rw [← Bool.not_eq_true, inBounds_iff]
      simp only [opInt]
      omega
    rw [exec_dimgc cx cy himage,
      runMicro_imageMicro_firstOff hm (Nat.lt_of_lt_of_le hw (evenUp_ge _)) hh hb, raise_oob, ofInt_opInt_sub,
      ofInt_opInt_sub]

end Sys2Proof.Machine
end

section
/-!
PROOF. The layer the statements of string layout rest on: the unit calls of DSTR by the pixels they write, DSTR past its
head tests, and a program of commands run as one list of unit calls (43_layout_and_blit.md R200 to R205).
-/

namespace Sys2Proof.Machine

variable {s : State} {e : FontEntry} {text : List CodePoint}

/-! ## The side fills -/

/-- Column `x` of the span `[x0, x1)` is left of the text's start or right of its end (43_layout_and_blit.md R203). -/
def onSides (x0 x1 start stop x : Int) : Prop := (x0 ≤ x ∧ x < start) ∨ (stop ≤ x ∧ x < x1)

theorem onSides_nat {x0 x1 x : Nat} {start stop : Int} :
    onSides x0 x1 start stop x ↔ (x0 ≤ x ∧ (x : Int) < start) ∨ (stop ≤ x ∧ x < x1) := by
  rw [onSides, Int.ofNat_le, Int.ofNat_lt]

/-- The side fills of DSTR, none unless `clear_sides` is set (43_layout_and_blit.md R203). -/
def sideCalls (w h : Nat) (e : FontEntry) (x0 y0 x1 start stop : Int) (wob clear : Bool) : List Micro :=
  if clear then sidesMicro w h e x0 y0 x1 start stop wob else []

section
variable {w h : Nat} {x0 y0 x1 start stop : Int} {wob clear : Bool}

theorem wpxu_mem_sideCalls {x y : Int} {c : Colour} :
    .wpxu x y c ∈ sideCalls w h e x0 y0 x1 start stop wob clear ↔
      (clear = true ∧ onSides x0 x1 start stop x) ∧ x < w ∧ y0 ≤ y ∧ y < y0 + drawnHeight e.font ∧ y < h ∧
        c = bgColour wob := by
  cases clear
  · simp [sideCalls]
  · simp only [sideCalls, if_true, mem_sidesMicro, onSides, true_and]

/-- The side fills are pixel writes alone. -/
theorem eq_wpxu_of_mem_sideCalls {m : Micro} (hm : m ∈ sideCalls w h e x0 y0 x1 start stop wob clear) :
    ∃ x y, m = .wpxu x y (bgColour wob) := by
  cases clear
  · cases hm
  · exact (List.mem_append.1 hm).elim eq_wpxu_of_mem_frectMicro eq_wpxu_of_mem_frectMicro

/-- The side fills never fault (43_layout_and_blit.md R203). -/
theorem sideCalls_inScreen (hx0 : 0 ≤ x0) (hy0 : 0 ≤ y0) (hstop : 0 ≤ stop) :
    ∀ m ∈ sideCalls w h e x0 y0 x1 start stop wob clear, m.inScreen w h := by
  intro m hm
  obtain ⟨x, y, rfl⟩ := eq_wpxu_of_mem_sideCalls hm
  obtain ⟨⟨-, hside⟩, hxw, hy, -, hyh, -⟩ := wpxu_mem_sideCalls.1 hm
  have hx : 0 ≤ x := by unfold onSides at hside; omega
  exact ⟨hx, hxw, by omega, hyh⟩

/-- Both side fills are empty when the text leaves no column of the span beside it. -/
theorem sideCalls_empty (hstart : start ≤ x0) (hstop : x1 ≤ stop) :
    sideCalls w h e x0 y0 x1 start stop wob clear = [] := by
  refine List.eq_nil_iff_forall_not_mem.2 fun m hm => ?_
  obtain ⟨x, y, rfl⟩ := eq_wpxu_of_mem_sideCalls hm
  obtain ⟨⟨-, hside⟩, -⟩ := wpxu_mem_sideCalls.1 hm
  unfold onSides at hside
  omega

/-- In the font's rows the side fills leave background on the cleared sides. -/
theorem lastWrite_sideCalls {x y : Nat} (hx : x < w) (hy : y < h) (hrow : y0 ≤ y) (hrow' : y < y0 + drawnHeight e.font)
    (hside : clear = true ∧ onSides x0 x1 start stop x) :
    lastWrite (sideCalls w h e x0 y0 x1 start stop wob clear) x y = some (bgColour wob) := by
  refine lastWrite_eq (c := bgColour wob) (wpxu_mem_sideCalls.2 ⟨hside, by omega, hrow, hrow', by omega, rfl⟩) ?_
  intro c hc
  obtain ⟨-, -, -, -, -, hcolour⟩ := wpxu_mem_sideCalls.1 hc
  exact hcolour

theorem lastWrite_sideCalls_other {x y : Nat} (hside : ¬ (clear = true ∧ onSides x0 x1 start stop x)) :
    lastWrite (sideCalls w h e x0 y0 x1 start stop wob clear) x y = none :=
  lastWrite_none fun _ hc => hside (wpxu_mem_sideCalls.1 hc).1

end

/-! ## The text width and the start column -/

/-- An uncovered character has no width (43_layout_and_blit.md R201). -/
theorem charWidth_uncovered {cp : CodePoint} (h : look e.font.coverage cp = none) : charWidth e cp = 0 := by
  rw [charWidth, h]

/-- A covered character has the width of its glyph (43_layout_and_blit.md R201). -/
theorem charWidth_covered {cp : CodePoint} {g : Nat} (h : look e.font.coverage cp = some g) :
    charWidth e cp = (((glyphTable e)[g]?).map Glyph.width).getD 0 := by
  rw [charWidth, h]

/-- The width of a text by its first character (43_layout_and_blit.md R201). -/
theorem textWidth_cons (e : FontEntry) (cp : CodePoint) (rest : List CodePoint) :
    textWidth e (cp :: rest) = charWidth e cp + e.font.spacing + textWidth e rest := by
  simp only [textWidth, List.length_cons, List.map_cons, List.sum_cons]
  push_cast
  ring

/-- The width of a text with one more character (43_layout_and_blit.md R201). -/
theorem textWidth_append_singleton (e : FontEntry) (text : List CodePoint) (cp : CodePoint) :
    textWidth e (text ++ [cp]) = textWidth e text + e.font.spacing + charWidth e cp := by
  simp only [textWidth, List.length_append, List.map_append, List.sum_append, List.length_singleton, List.map_cons,
    List.map_nil, List.sum_singleton]
  push_cast
  ring

theorem textStart_left (x0 x1 tw : Int) : textStart 1 x0 x1 tw = x0 := rfl

theorem textStart_right (x0 x1 tw : Int) : textStart 2 x0 x1 tw = x1 - tw := rfl

theorem textStart_centre (x0 x1 tw : Int) : textStart 0 x0 x1 tw = max x0 (x0 + (x1 - x0 - tw) / 2) := rfl

/-- The end of a text that starts where R202 says is never negative. -/
theorem textStart_add_nonneg (align : BitVec 2) {x0 x1 tw : Int} (hx0 : 0 ≤ x0) (hx : x0 ≤ x1) (htw : 0 ≤ tw) :
    0 ≤ textStart align x0 x1 tw + tw := by
  unfold textStart
  split_ifs <;> omega

/-! ## The unit calls of DSTR and what they leave -/

/-- The side fills and then the glyphs of a text that starts at column `start` and ends at `stop`
(43_layout_and_blit.md R203, R204). -/
def layoutCalls (w h : Nat) (e : FontEntry) (text : List CodePoint) (x0 y0 x1 start stop : Int) (wob clear : Bool) :
    List Micro :=
  sideCalls w h e x0 y0 x1 start stop wob clear ++ textMicro e y0 wob start text

section
variable {x0 y0 x1 start stop : Int} {wob clear : Bool}

/-- The pixels DSTR writes: in the font's rows, the columns of the glyphs and the cleared sides. -/
theorem row_column_of_mem_layoutCalls {w h : Nat} (hf : fontWf e.font = true) {x y : Int} {c : Colour}
    (hm : .wpxu x y c ∈ layoutCalls w h e text x0 y0 x1 start stop wob clear) :
    (y0 ≤ y ∧ y < y0 + drawnHeight e.font) ∧
      ((∃ k G, charCovers e text start k G x) ∨ (clear = true ∧ onSides x0 x1 start stop x)) := by
  rcases List.mem_append.1 hm with hm | hm
  · obtain ⟨hside, -, hy, hy', -⟩ := wpxu_mem_sideCalls.1 hm
    exact ⟨⟨hy, hy'⟩, .inr hside⟩
  · obtain ⟨k, G, x', y', hcov, hy, hy', c', heq⟩ := mem_textMicro hf _ _ _ _ _ hm
    obtain ⟨rfl, rfl, -⟩ := Micro.wpxu.inj heq
    exact ⟨⟨hy, hy'⟩, .inl ⟨k, G, hcov⟩⟩

/-- When every glyph's columns and rows lie on the screen, no unit call of DSTR faults. -/
theorem layoutCalls_inScreen (hf : fontWf e.font = true) (hx0 : 0 ≤ x0) (hy0 : 0 ≤ y0) (hstop : 0 ≤ stop)
    (hcols : ∀ k G x, charCovers e text start k G x → 0 ≤ x ∧ x < s.cfg.w) (hrows : y0 + drawnHeight e.font ≤ s.cfg.h) :
    ∀ m ∈ layoutCalls s.cfg.w s.cfg.h e text x0 y0 x1 start stop wob clear, m.inScreen s.cfg.w s.cfg.h := by
  intro m hm
  rcases List.mem_append.1 hm with hm | hm
  · exact sideCalls_inScreen hx0 hy0 hstop m hm
  · obtain ⟨k, G, x, y, hcov, hy, hy', c, rfl⟩ := mem_textMicro hf _ _ _ _ _ hm
    obtain ⟨hx, hxw⟩ := hcols k G x hcov
    exact ⟨hx, hxw, by omega, by omega⟩

section
variable {w h x y : Nat}

/-- DSTR writes in the font's rows alone. -/
theorem lastWrite_layoutCalls_offRows (hf : fontWf e.font = true) (hout : ¬ (y0 ≤ y ∧ y < y0 + drawnHeight e.font)) :
    lastWrite (layoutCalls w h e text x0 y0 x1 start stop wob clear) x y = none :=
  lastWrite_none fun _ hm => hout (row_column_of_mem_layoutCalls hf hm).1

variable (hf : fontWf e.font = true) (hrow : y0 ≤ y) (hrow' : y < y0 + drawnHeight e.font)
include hf hrow hrow'

/-- A column of the font's rows that some glyph covers: the last glyph that covers it is drawn over the others and over
the side fills (43_layout_and_blit.md R204). -/
theorem lastWrite_layoutCalls_covered {k : Nat} {G : Glyph} (hcov : charCovers e text start k G x)
    (hlater : ∀ k' G', k < k' → ¬ charCovers e text start k' G' x) :
    lastWrite (layoutCalls w h e text x0 y0 x1 start stop wob clear) x y =
      some (glyphGray e.font.blob G wob (x - charColumn e text start k) (y - y0)) := by
  rw [layoutCalls, lastWrite_append, (lastWrite_textMicro hf y0 wob x y hrow hrow' text start).2 k G hcov hlater,
    Option.some_or, glyphGray]

/-- A column of the font's rows that no glyph covers: the side fills are what is written there. -/
theorem lastWrite_layoutCalls_uncovered (hno : ∀ k G, ¬ charCovers e text start k G x) :
    lastWrite (layoutCalls w h e text x0 y0 x1 start stop wob clear) x y =
      lastWrite (sideCalls w h e x0 y0 x1 start stop wob clear) x y := by
  rw [layoutCalls, lastWrite_append, (lastWrite_textMicro hf y0 wob x y hrow hrow' text start).1 hno, Option.none_or]

end

end

section
variable {toff tlen x0 y0 x1 font : Coord} {wob clear : Bool} {align : BitVec 2}

/-- The reserved ALIGN raises F_ILLEGAL before any other test (43_layout_and_blit.md R205). -/
theorem exec_dstr_reserved (h : align = 3) :
    exec (.dstr toff tlen x0 y0 x1 font wob clear align) s = .next { s with status := 0x12, finfo := 0 } :=
  congrArg Host.Outcome.next (if_pos h)

/-- DSTR of a font that is there: the no-op test, then the text range (43_layout_and_blit.md R205). -/
theorem exec_dstr_font (halign : align ≠ 3) (hfont : s.cfg.fonts[font.toNat]? = some e) :
    exec (.dstr toff tlen x0 y0 x1 font wob clear align) s =
      .next (if tlen.toNat = 0 ∨ x1.toNat < x0.toNat then s
        else if s.cfg.ntxt < toff.toNat + tlen.toNat then s.raise .asset
        else runMicro (dstrMicro s.cfg.w s.cfg.h e (s.text toff.toNat tlen.toNat) x0.toNat y0.toNat x1.toNat wob clear
          align) s) := by
  show execDstr toff tlen x0 y0 x1 font wob clear align s = _
  rw [execDstr, if_neg halign, State.font?, hfont]
  rfl

/-- An empty text or `x1 < x0` is a no-op, whatever the text range (43_layout_and_blit.md R200). -/
theorem exec_dstr_noOp (halign : align ≠ 3) (hfont : s.cfg.fonts[font.toNat]? = some e)
    (h : tlen = 0 ∨ x1.toNat < x0.toNat) : exec (.dstr toff tlen x0 y0 x1 font wob clear align) s = .next s := by
  have hnoOp : tlen.toNat = 0 ∨ x1.toNat < x0.toNat := h.imp_left (congrArg BitVec.toNat)
  rw [exec_dstr_font halign hfont, if_pos hnoOp]

/-- DSTR past its head tests: the font is there, the text is not empty and lies in TXT, and `x0 ≤ x1`
(43_layout_and_blit.md R205). -/
theorem exec_dstr (halign : align ≠ 3) (hfont : s.cfg.fonts[font.toNat]? = some e) (hlen : tlen ≠ 0)
    (hx : x0.toNat ≤ x1.toNat) (hrange : toff.toNat + tlen.toNat ≤ s.cfg.ntxt) :
    let text := s.text toff.toNat tlen.toNat
    let start := textStart align x0.toNat x1.toNat (textWidth e text)
    exec (.dstr toff tlen x0 y0 x1 font wob clear align) s =
      .next (runMicro (layoutCalls s.cfg.w s.cfg.h e text x0.toNat y0.toNat x1.toNat start (start + textWidth e text)
        wob clear) s) := by
  have hlen' : tlen.toNat ≠ 0 := BitVec.toNat_ne_iff_ne.2 hlen
  rw [exec_dstr_font halign hfont, if_neg (by omega), if_neg (by omega)]
  rfl

end

/-! ## The text in TXT -/

@[simp] theorem length_text (s : State) (toff n : Nat) : (s.text toff n).length = n := by
  rw [State.text, List.length_map, List.length_range']

/-- A text that is not empty begins with its first entry of TXT. -/
theorem text_eq_cons {n : Coord} (toff : Nat) (h : n ≠ 0) :
    ∃ rest, s.text toff n.toNat = s.txtEntry toff :: rest ∧ (!rest.isEmpty) = decide (1 < n.toNat) := by
  obtain ⟨k, hk⟩ := Nat.exists_eq_succ_of_ne_zero (BitVec.toNat_ne_iff_ne.2 h)
  refine ⟨s.text (toff + 1) k, ?_, ?_⟩
  · rw [hk, State.text, List.range'_succ, List.map_cons, State.text]
  · rw [hk]
    cases k with
    | zero => rfl
    | succ k => simp [State.text, List.range'_succ]

theorem text_ne_nil {n : Coord} (toff : Nat) (h : n ≠ 0) : s.text toff n.toNat ≠ [] := by
  obtain ⟨rest, htext, -⟩ := text_eq_cons (s := s) toff h
  rw [htext]
  exact List.cons_ne_nil _ _

/-- A text whose first character has a glyph of some size begins with the write of that glyph's first pixel. -/
theorem textMicro_first {cp : CodePoint} {rest : List CodePoint} {g : Nat} {G : Glyph} {x y0 : Int} {wob : Bool}
    (hf : fontWf e.font = true) (hl : look e.font.coverage cp = some g) (hG : (glyphTable e)[g]? = some G)
    (hh : 0 < G.height) (hw : 0 < drawnWidth G (!rest.isEmpty)) :
    ∃ c calls, textMicro e y0 wob x (cp :: rest) = .wpxu x y0 c :: calls := by
  simp only [textMicro, hl, glyphMicro_eq hG, irange_cons hh, List.flatMap_cons,
    irange_cons (Int.natCast_pos.2 hw), List.map_cons, glyphPixelMicro_eq hf hG, List.cons_append, Int.add_zero]
  exact ⟨_, _, rfl⟩

/-! ## A program as unit calls -/

/-- On a machine of configuration `c` that has not faulted, the commands of `p` run the unit calls `ms`
(00_scope.md R2; 10_state.md R24). -/
def expandsInto (c : Config) (p : List Instr) (ms : List Micro) : Prop :=
  ∀ s : State, s.cfg = c → statusFault s.status = false → runProgram p s = .next (runMicro ms s)

/-- After a fault every command is dropped (10_state.md R24). -/
theorem runProgram_faulted (p : List Instr) (h : statusFault s.status = true) : runProgram p s = .next s := by
  cases p with
  | nil => rfl
  | cons i rest => exact if_pos h

theorem expandsInto_nil (c : Config) : expandsInto c [] [] := fun _ _ _ => rfl

/-- A command that runs `ms`, before a program that runs `ns`: a fault of the command ends both. -/
theorem expandsInto_cons {c : Config} {i : Instr} {p : List Instr} {ms ns : List Micro}
    (hi : ∀ s : State, s.cfg = c → exec i s = .next (runMicro ms s)) (hp : expandsInto c p ns) :
    expandsInto c (i :: p) (ms ++ ns) := by
  intro s hs hf
  rw [runMicro_append_fault ms ns hf]
  simp only [runProgram, hf, hi s hs, Bool.false_eq_true, if_false]
  split_ifs with hfault
  · exact runProgram_faulted p hfault
  · exact hp _ ((runMicro_cfg ms s).trans hs) (Bool.eq_false_iff.2 hfault)

section
variable {cp : CodePoint} {rest : List CodePoint} {wob : Bool} (x : Nat)

/-- An uncovered character is skipped, its spacing kept (43_layout_and_blit.md R204). -/
theorem textMicro_uncovered_cons (y0 : Int) (h : look e.font.coverage cp = none) :
    textMicro e y0 wob x (cp :: rest) = textMicro e y0 wob (x + if rest = [] then 0 else e.font.spacing : Nat) rest := by
  simp [textMicro, charWidth_uncovered h, h]

/-- A covered character is drawn, with its spacing unless it is the last (43_layout_and_blit.md R204). -/
theorem textMicro_covered_cons (y0 : Int) {g : Nat} (h : look e.font.coverage cp = some g) :
    textMicro e y0 wob x (cp :: rest) = glyphMicro e g x y0 wob (decide (rest ≠ [])) ++
      textMicro e y0 wob (x + charWidth e cp + if rest = [] then 0 else e.font.spacing : Nat) rest := by
  have hlast : (!rest.isEmpty) = decide (rest ≠ []) := by cases rest <;> rfl
  simp only [textMicro, h, hlast, List.isEmpty_iff, Nat.cast_add]

theorem glyphProgram_uncovered_cons (font y0 : Coord) (h : look e.font.coverage cp = none) :
    glyphProgram font e y0 wob x (cp :: rest) =
      glyphProgram font e y0 wob (x + if rest = [] then 0 else e.font.spacing) rest := by
  rw [glyphProgram, h]

theorem glyphProgram_covered_cons (font y0 : Coord) {g : Nat} (h : look e.font.coverage cp = some g) :
    glyphProgram font e y0 wob x (cp :: rest) =
      .dglyph font (BitVec.ofNat 16 g) (BitVec.ofNat 16 x) y0 wob (decide (rest ≠ [])) ::
        glyphProgram font e y0 wob (x + charWidth e cp + if rest = [] then 0 else e.font.spacing) rest := by
  rw [glyphProgram, h]

end

/-- The DGLYPH commands of a text whose columns have 16-bit numbers run the unit calls of its glyphs
(43_layout_and_blit.md R204). -/
theorem expandsInto_glyphProgram {c : Config} {font : Coord} (hf : fontWf e.font = true)
    (hfont : c.fonts[font.toNat]? = some e) (y0 : Coord) (wob : Bool) :
    ∀ (text : List CodePoint) (x : Nat), (text ≠ [] → x + textWidth e text < 2 ^ 16) →
      expandsInto c (glyphProgram font e y0 wob x text) (textMicro e (opInt y0) wob x text) := by
  intro text
  induction text with
  | nil => exact fun _ _ => expandsInto_nil c
  | cons cp rest ih =>
    intro x hx
    have hwidth := hx (List.cons_ne_nil cp rest)
    have hrest : rest ≠ [] →
        ((x + charWidth e cp + if rest = [] then 0 else e.font.spacing : Nat) : Int) + textWidth e rest < 2 ^ 16 := by
      intro hne
      rw [textWidth_cons] at hwidth
      rw [if_neg hne]
      omega
    cases hl : look e.font.coverage cp with
    | none =>
      rw [textMicro_uncovered_cons x _ hl, glyphProgram_uncovered_cons x font y0 hl]
      rw [charWidth_uncovered hl] at hrest
      exact ih _ hrest
    | some g =>
      have hxlt : x < 65536 := by
        have hnonneg := textWidth_nonneg e (List.cons_ne_nil cp rest)
        omega
      rw [textMicro_covered_cons x _ hl, glyphProgram_covered_cons x font y0 hl]
      refine expandsInto_cons (fun s hs => ?_) (ih _ hrest)
      rw [exec_dglyph _ y0 wob _ (hs ▸ hfont), opInt_ofNat hxlt, BitVec.toNat_ofNat,
        Nat.mod_eq_of_lt (look_get hf hl).1]

/-- The two FRECT commands of `clear_sides` run the side fills (43_layout_and_blit.md R203). -/
theorem expandsInto_sideCalls {c : Config} {x0 y0 x1 start stop bottom : Coord} (wob clear : Bool) {p : List Instr}
    {ms : List Micro} (hbottom : opInt bottom = opInt y0 + drawnHeight e.font) (hp : expandsInto c p ms) :
    expandsInto c
      ((if clear then [.frect x0 y0 start bottom (bgColour wob), .frect stop y0 x1 bottom (bgColour wob)] else []) ++ p)
      (sideCalls c.w c.h e (opInt x0) (opInt y0) (opInt x1) (opInt start) (opInt stop) wob clear ++ ms) := by
  have hfrect (a b d : Coord) (s : State) (hs : s.cfg = c) : exec (.frect a y0 b d (bgColour wob)) s =
      .next (runMicro (frectMicro c.w c.h (opInt a) (opInt y0) (opInt b) (opInt d) (bgColour wob)) s) := by
    rw [← hs]
    rfl
  cases clear
  · exact hp
  · rw [sideCalls, if_pos rfl, if_pos rfl, sidesMicro, ← hbottom, List.append_assoc]
    exact expandsInto_cons (hfrect _ _ _) (expandsInto_cons (hfrect _ _ _) hp)

theorem opInt_ofInt {v : Int} (h0 : 0 ≤ v) (h : v < 2 ^ 16) : opInt (BitVec.ofInt 16 v) = v := by
  lift v to Nat using h0
  rw [BitVec.ofInt_natCast, opInt_ofNat (by omega)]

end Sys2Proof.Machine
end

section
/-!
PROOF. String layout (43_layout_and_blit.md R200 to R205): the text's width and start column, and DSTR.
-/

namespace Sys2Proof.Machine

/-- Settles O49: a character's width is that of its glyph, and each character but the first adds one spacing. -/
theorem appendingACoveredCharacterNeverNarrows : Obligations.AppendingACoveredCharacterNeverNarrows := by
  intro e text cp
  refine ⟨?_, fun _ _ => ?_⟩
  · rw [textWidth, Nat.cast_list_sum, List.map_map]
    congr 3
    funext q
    cases hl : look e.font.coverage q with
    | none => simp [charWidth_uncovered hl]
    | some g => cases hG : (glyphTable e)[g]? <;> simp [charWidth_covered hl, hG]
  · rw [textWidth_append_singleton]
    omega

/-- Settles O50: floor division leaves the larger half of the free columns on the right. -/
theorem startColumnFollowsTheAlignment : Obligations.StartColumnFollowsTheAlignment := by
  intro x0 x1 tw
  rw [textStart_left, textStart_right, textStart_centre]
  exact ⟨rfl, by omega, by omega, fun hwide => by omega, fun hfits => by omega⟩

/-- Settles O48: the reserved ALIGN is the first of the head tests, the empty text and `x1 < x0` come before the text
range. -/
theorem dstrNoOpAndReservedAlign : Obligations.DstrNoOpAndReservedAlign := by
  intro s toff tlen x0 y0 x1 font wob clear align
  refine ⟨fun halign => ?_, fun halign hfont hempty => ?_⟩
  · exact exec_dstr_reserved halign
  · exact exec_dstr_noOp halign (List.getElem?_eq_getElem hfont) hempty

/-- Settles O51: on the screen a pixel holds the last write to it, and the glyphs are drawn after the side fills. -/
theorem dstrPaintsTheText : Obligations.DstrPaintsTheText := by
  intro s toff tlen x0 y0 x1 font wob clear align e hc halign hfont hlen hx hrange text start rows hcols hrows
  have hf := configWf_font hc hfont
  have hstop : 0 ≤ start + textWidth e text :=
    textStart_add_nonneg align (by omega) (by omega) (textWidth_nonneg e (text_ne_nil _ hlen))
  have hin := layoutCalls_inScreen (x1 := x1.toNat) (wob := wob) (clear := clear) hf (Int.natCast_nonneg x0.toNat)
    (Int.natCast_nonneg y0.toNat) hstop hcols hrows
  obtain ⟨honly, hstores, -⟩ := paints_lastWrite hin
  refine ⟨_, exec_dstr halign hfont hlen hx hrange, honly, fun x y hxw hyh => ⟨fun hout => ?_, fun hy hy' => ?_⟩, ?_⟩
  · rw [runMicro_pixel hin hxw, lastWrite_layoutCalls_offRows hf fun h => hout ⟨by omega, h.2⟩, Option.getD_none]
  · have hrow : (y0.toNat : Int) ≤ y := Int.ofNat_le.2 hy
    rw [runMicro_pixel hin hxw]
    refine ⟨fun k G hcov hlater => ?_, fun hno => ?_⟩
    · rw [lastWrite_layoutCalls_covered hf hrow hy' hcov hlater]
      rfl
    · rw [lastWrite_layoutCalls_uncovered hf hrow hy' hno]
      split
      · next hside =>
        rw [lastWrite_sideCalls hxw hyh hrow hy' (hside.imp_right onSides_nat.2), Option.getD_some, bgColour_eq]
      · next hside =>
        rw [lastWrite_sideCalls_other fun h => hside (h.imp_right onSides_nat.1), Option.getD_none]
  · refine fun a ha => hstores a fun x y hw => ha x y ?_
    obtain ⟨c, hc⟩ := Option.isSome_iff_exists.1 hw
    have hm := mem_of_lastWrite hc
    obtain ⟨-, hxw, -⟩ := hin _ hm
    obtain ⟨⟨hy, hy'⟩, hcol⟩ := row_column_of_mem_layoutCalls hf hm
    exact ⟨by omega, by omega, hy', hcol.imp_right (And.imp_right onSides_nat.1)⟩

/-- Settles O52: the text leaves no column of the span beside it, and the first unit call is off the screen. -/
theorem rightAlignedTextWiderThanX1RaisesFOob : Obligations.RightAlignedTextWiderThanX1RaisesFOob := by
  intro s toff tlen x0 y0 x1 font wob clear e g G hc hfont hlen hx hrange hwide hl hG hheight hwidth
  have hoff : s.inBounds (x1.toNat - textWidth e (s.text toff.toNat tlen.toNat)) y0.toNat = false := by
    rw [← Bool.not_eq_true, inBounds_iff]
    omega
  obtain ⟨rest, htext, hlast⟩ := text_eq_cons (s := s) toff.toNat hlen
  obtain ⟨c, calls, hcalls⟩ := textMicro_first (rest := rest) (y0 := y0.toNat) (wob := wob)
    (x := x1.toNat - textWidth e (s.text toff.toNat tlen.toNat)) (configWf_font hc hfont) hl hG hheight
    (hlast.symm ▸ hwidth)
  rw [← htext] at hcalls
  rw [exec_dstr (by decide) hfont hlen hx hrange, textStart_right, sub_add_cancel, layoutCalls,
    sideCalls_empty (by omega) (by omega), List.nil_append, hcalls]
  simp only [runMicro, hoff, Bool.false_eq_true, if_false, raise_oob, BitVec.ofInt_natCast, BitVec.ofNat_toNat,
    BitVec.setWidth_eq]

/-- Settles O53: each command runs its part of the unit calls, which a fault ends as it ends the program. -/
theorem dstrIsItsTier1Program : Obligations.DstrIsItsTier1Program := by
  intro s toff tlen x0 y0 x1 font wob clear align e hc hstatus halign hfont hlen hx hrange text start stop bottom
    hstart hstop hbottom
  have hf := configWf_font hc hfont
  have htw : 0 ≤ textWidth e text := textWidth_nonneg e (text_ne_nil _ hlen)
  obtain ⟨-, -, -, -, hskips, -⟩ := fontWf_bounds hf
  have hbottom' : opInt (BitVec.ofInt 16 bottom) = opInt y0 + drawnHeight e.font :=
    opInt_ofInt (by omega) hbottom
  have hglyphs := expandsInto_glyphProgram hf hfont y0 wob text start.toNat fun _ => by omega
  have hprogram := expandsInto_sideCalls (x0 := x0) (x1 := x1) (start := BitVec.ofInt 16 start)
    (stop := BitVec.ofInt 16 stop) wob clear hbottom' hglyphs s rfl hstatus
  rw [opInt_ofInt hstart (by omega), opInt_ofInt (by omega) hstop, Int.toNat_of_nonneg hstart] at hprogram
  exact (exec_dstr halign hfont hlen hx hrange).trans hprogram.symm

/-- Settles O57: the text makes no unit call, so the side fills are all that is written. -/
theorem dstrOfUncoveredTextClearsItsSides : Obligations.DstrOfUncoveredTextClearsItsSides := by
  intro s toff tlen x0 y0 x1 font wob clear align e halign hfont hlen hx hrange hun tw start rows
  have huncovered : ∀ cp ∈ s.text toff.toNat tlen.toNat, look e.font.coverage cp = none := by
    intro cp hcp
    obtain ⟨k, hk, rfl⟩ := List.mem_map.1 hcp
    obtain ⟨hlo, hhi⟩ := List.mem_range'_1.1 hk
    have hlook := hun (k - toff.toNat) (by omega)
    rwa [Nat.add_sub_cancel' hlo] at hlook
  have htw : textWidth e (s.text toff.toNat tlen.toNat) = tw := by
    rw [textWidth_uncovered e huncovered, length_text]
  have hstop : 0 ≤ start + tw :=
    textStart_add_nonneg align (by omega) (by omega) (htw ▸ textWidth_nonneg e (text_ne_nil _ hlen))
  refine ⟨_, exec_dstr halign hfont hlen hx hrange, ?_⟩
  rw [htw, layoutCalls, textMicro_uncovered e _ _ _ _ huncovered, List.append_nil]
  refine paints_runMicro (sideCalls_inScreen (by omega) (by omega) hstop) (fun x y c hxw hyh hm => ?_)
    fun x y hxw hyh hp => ?_
  · obtain ⟨⟨hclear, hside⟩, -, hy, hy', -, rfl⟩ := wpxu_mem_sideCalls.1 hm
    exact ⟨⟨hclear, hxw, hyh, by omega, hy', onSides_nat.1 hside⟩, rfl⟩
  · obtain ⟨hclear, -, -, hy, hy', hside⟩ := hp
    exact ⟨_, wpxu_mem_sideCalls.2 ⟨⟨hclear, onSides_nat.2 hside⟩, by omega, by omega, hy', by omega, rfl⟩⟩

end Sys2Proof.Machine
end

section
/-!
PROOF. The layer the statements of faults rest on: what a command whose asset, coordinate or rectangle is not there
does, and what a write to CMD does on a faulted block or with an illegal record (60_exceptions.md R232 to R235, R239).
-/

namespace Sys2Proof.Machine

variable {s : State} {e : FontEntry}

/-! ## Fault entry (60_exceptions.md R238) -/

theorem raise_illegal (s : State) : s.raise .illegal = { s with status := 0x12, finfo := 0 } := rfl

theorem raise_precond (s : State) : s.raise .precond = { s with status := 0x22, finfo := 0 } := rfl

/-! ## Writes to CMD -/

/-- A record that agrees with no row, or with that of DSTR alone and has the reserved ALIGN, does not decode
(30_encoding.md R86). -/
theorem decodeRecord_error {r : Record}
    (h : ∀ op : Opcode, r &&& tableMask op = tableMatch op → op = .dstr ∧ r.extractLsb' 12 2 = 3) :
    ∃ why, decodeRecord r = .error why := by
  cases hd : decodeRecord r with
  | error why => exact ⟨why, rfl⟩
  | ok i =>
    obtain ⟨hrow, halign⟩ := (legalityIsTheOpcodeTable r i.opcode).1 ⟨i, hd, rfl⟩
    obtain ⟨hdstr, hreserved⟩ := h i.opcode hrow
    exact absurd hreserved (halign hdstr)

/-- An illegal record written to CMD of an idle, unfaulted block (60_exceptions.md R232). -/
theorem step_writeCmd_illegal {r : Record} {rest : List HostMove} {why : Illegal} (hc : configWf s.cfg = true)
    (hf : statusFault s.status = false) (hb : statusBusy s.status = false) (hh : s.host = .writeCmd r :: rest)
    (hd : decodeRecord r = .error why) : step s = .next { s with host := rest, status := 0x12, finfo := 0 } := by
  rw [step_writeCmd hc hh]
  simp [State.writeCmd, hf, hb, hd, raise_illegal]

/-- A write to CMD of a faulted block is dropped (60_exceptions.md R239). -/
theorem step_writeCmd_faulted {r : Record} {rest : List HostMove} (hc : configWf s.cfg = true)
    (hf : statusFault s.status = true) (hh : s.host = .writeCmd r :: rest) : step s = .next { s with host := rest } := by
  rw [step_writeCmd hc hh]
  simp [State.writeCmd, hf]

/-! ## Accesses off the screen -/

/-- WPXU of a pixel that does not exist takes F_OOB at its coordinate (40_pixel_writer.md R110). -/
theorem exec_wpxu_offScreen {x y : Coord} (c : Colour) (h : s.cfg.w ≤ x.toNat ∨ s.cfg.h ≤ y.toNat) :
    exec (.wpxu x y c) s = .next { s with status := 0x32, finfo := y ++ x } := by
  show Host.Outcome.next (runMicro [.wpxu (opInt x) (opInt y) c] s) = _
  rw [runMicro, if_neg (mt (inBounds_op x y).1 (by omega)), raise_oob_op]

/-! ## The preconditions of RRECT -/

/-- The preconditions, with the lengths of the sides as integers (42_rounded_rect.md R170, R171). -/
theorem rrectPre_iff {w h x0 y0 x1 y1 r : Nat} :
    rrectPre w h x0 y0 x1 y1 r = true ↔ x0 ≤ x1 ∧ x1 ≤ w ∧ y0 ≤ y1 ∧ y1 ≤ h ∧ 1 ≤ r ∧
      2 * (r : Int) ≤ (x1 : Int) - x0 ∧ 2 * (r : Int) ≤ (y1 : Int) - y0 := by
  simp only [rrectPre, Bool.and_eq_true, decide_eq_true_eq]
  omega

theorem exec_rrect_noPre {x0 y0 x1 y1 radius : Coord} (wob rl rr : Bool)
    (h : ¬ rrectPre s.cfg.w s.cfg.h x0.toNat y0.toNat x1.toNat y1.toNat radius.toNat = true) :
    exec (.rrect x0 y0 x1 y1 wob rl rr radius) s = .next { s with status := 0x22, finfo := 0 } := by
  show execRrect x0 y0 x1 y1 wob rl rr radius s = _
  rw [execRrect, if_neg h, raise_precond]

/-! ## Missing assets -/

/-- The glyph table has a glyph for each descriptor and no more (41_glyph_decoder.md R140). -/
theorem glyphTable_eq_none {g : Nat} (h : e.font.desc.length ≤ g) : (glyphTable e)[g]? = none := by
  rw [glyphTable, List.getElem?_mapIdx, List.getElem?_eq_none h, Option.map_none]

theorem exec_dglyph_noFont {font : Coord} (glyph x y : Coord) (wob sp : Bool)
    (h : s.cfg.fonts[font.toNat]? = none) :
    exec (.dglyph font glyph x y wob sp) s = .next { s with status := 0x42, finfo := 0 } := by
  show execDglyph font glyph x y wob sp s = _
  rw [execDglyph, State.font?, h, raise_asset]

theorem exec_dglyph_noGlyph {font glyph : Coord} (x y : Coord) (wob sp : Bool)
    (h : s.cfg.fonts[font.toNat]? = some e) (hG : (glyphTable e)[glyph.toNat]? = none) :
    exec (.dglyph font glyph x y wob sp) s = .next { s with status := 0x42, finfo := 0 } := by
  rw [exec_dglyph x y wob sp h]
  simp only [glyphMicro, hG, runMicro, raise_asset]

theorem exec_dimg_noImage {image : Coord} (x y : Coord) (h : s.cfg.images[image.toNat]? = none) :
    exec (.dimg image x y) s = .next { s with status := 0x42, finfo := 0 } := by
  show execDimg image x y s = _
  rw [execDimg, State.image?, h, raise_asset]

theorem exec_dimgc_noImage {image : Coord} (cx cy : Coord) (h : s.cfg.images[image.toNat]? = none) :
    exec (.dimgc image cx cy) s = .next { s with status := 0x42, finfo := 0 } := by
  show execDimgc image cx cy s = _
  rw [execDimgc, State.image?, h, raise_asset]

section
variable {toff tlen x0 y0 x1 font : Coord} {wob clear : Bool} {align : BitVec 2}

/-- A missing font comes before the no-op test (43_layout_and_blit.md R205). -/
theorem exec_dstr_noFont (halign : align ≠ 3) (h : s.cfg.fonts[font.toNat]? = none) :
    exec (.dstr toff tlen x0 y0 x1 font wob clear align) s = .next { s with status := 0x42, finfo := 0 } := by
  show execDstr toff tlen x0 y0 x1 font wob clear align s = _
  rw [execDstr, if_neg halign, State.font?, h, raise_asset]

/-- A text that is drawn and does not lie in TXT; where the font is missing too, the fault is the same one
(43_layout_and_blit.md R205). -/
theorem exec_dstr_pastTxt (halign : align ≠ 3) (hlen : tlen ≠ 0) (hx : x0.toNat ≤ x1.toNat)
    (hrange : s.cfg.ntxt < toff.toNat + tlen.toNat) :
    exec (.dstr toff tlen x0 y0 x1 font wob clear align) s = .next { s with status := 0x42, finfo := 0 } := by
  cases hfont : s.cfg.fonts[font.toNat]? with
  | none => exact exec_dstr_noFont halign hfont
  | some e =>
    have hlen' : tlen.toNat ≠ 0 := BitVec.toNat_ne_iff_ne.2 hlen
    rw [exec_dstr_font halign hfont, if_neg (by omega), if_pos hrange, raise_asset]

end

end Sys2Proof.Machine
end

section
/-!
PROOF. Faults (60_exceptions.md): what raises each of the four, and that a fault stands until RESET.
-/

namespace Sys2Proof.Machine

/-- Settles O9: the record does not decode, and the write to CMD raises the fault. -/
theorem illegalRecordRaisesFIllegal : Obligations.IllegalRecordRaisesFIllegal := by
  intro s r rest hc hf hb hh hrows
  obtain ⟨why, hd⟩ := decodeRecord_error hrows
  exact step_writeCmd_illegal hc hf hb hh hd

/-- Settles O11: of the moves of `step_cases` a faulted block takes only a dropped write, a read and RESET. -/
theorem onlyResetLeavesAFault : Obligations.OnlyResetLeavesAFault := by
  intro s t hfault hreset h
  have hrunning : statusFault s.status ≠ false := by rw [hfault]; decide
  obtain ⟨-, ⟨-, rfl⟩ | ⟨m, rest, hh, hm⟩⟩ := step_cases h
  · exact ⟨rfl, rfl, rfl, rfl, rfl, rfl⟩
  · obtain ⟨-, -, rfl⟩ | ⟨hf, -⟩ | ⟨_, _, -, -, hf, -⟩ | ⟨_, -, hf, -⟩ | ⟨p, -, rfl⟩ | ⟨rfl, -⟩ := hm
    · exact ⟨rfl, rfl, rfl, rfl, rfl, rfl⟩
    · exact absurd hf hrunning
    · exact absurd hf hrunning
    · exact absurd hf hrunning
    · exact ⟨rfl, rfl, rfl, rfl, rfl, rfl⟩
    · exact absurd (congrArg List.head? hh) hreset

/-- Settles O41: each command tests its numbers before it makes a unit call. -/
theorem missingAssetRaisesFAsset : Obligations.MissingAssetRaisesFAsset := by
  intro s i h
  cases i with
  | lookup font cp => exact exec_lookup_noFont cp (List.getElem?_eq_none h)
  | gpix font glyph gx gy =>
    obtain hfont | ⟨e, hfont, hglyph⟩ := h
    · exact exec_gpix_noFont glyph gx gy (List.getElem?_eq_none hfont)
    · exact exec_gpix_noGlyph gx gy hfont (glyphTable_eq_none hglyph)
  | dglyph font glyph x y wob sp =>
    obtain hfont | ⟨e, hfont, hglyph⟩ := h
    · exact exec_dglyph_noFont glyph x y wob sp (List.getElem?_eq_none hfont)
    · exact exec_dglyph_noGlyph x y wob sp hfont (glyphTable_eq_none hglyph)
  | dstr toff tlen x0 y0 x1 font wob clear align =>
    obtain ⟨halign, hfont | ⟨hlen, hx, hrange⟩⟩ := h
    · exact exec_dstr_noFont halign (List.getElem?_eq_none hfont)
    · exact exec_dstr_pastTxt halign hlen hx hrange
  | dimg image x y => exact exec_dimg_noImage x y (List.getElem?_eq_none h)
  | dimgc image cx cy => exact exec_dimgc_noImage cx cy (List.getElem?_eq_none h)
  | _ => exact h.elim

/-- Settles O10: reads are those of a block that has not faulted. -/
theorem faultIsStickyUntilReset : Obligations.FaultIsStickyUntilReset := by
  intro s m rest hc hf hb hh
  cases m with
  | writeCmd r => exact step_writeCmd_faulted hc hf hh
  | writeTxtw w => exact (step_writeTxtw hc hh).trans (if_pos hf)
  | reset => exact ⟨_, step_reset hc hh, rfl⟩
  | read p =>
    cases p with
    | fbr a => intro ha; exact (portReadsReturnThePorts s (.fbr a) rest hc hh hb).trans (if_pos ha)
    | _ => exact step_readRegister hc hh (by simp)

/-- Settles O25: both commands test the coordinate before they touch FB or RES. -/
theorem uncheckedAccessOffTheScreenRaisesFOob : Obligations.UncheckedAccessOffTheScreenRaisesFOob := by
  intro s x y c hoff
  exact ⟨exec_wpxu_offScreen c hoff, exec_rpx_offScreen hoff⟩

/-- Settles O45: the statement's tests are the model's. -/
theorem rrectPreconditionRaisesFPrecond : Obligations.RrectPreconditionRaisesFPrecond := by
  intro s x0 y0 x1 y1 r wob rl rr hpre
  exact exec_rrect_noPre wob rl rr (mt rrectPre_iff.1 hpre)

end Sys2Proof.Machine
end

section
/-!
PROOF. The layer the statements of reset and of totality rest on: the commands that write FB and cannot fault, the two
ends of RRECT, and the commands that write RES and leave FB (10_state.md R21; 60_exceptions.md R233, R234).
-/

namespace Sys2Proof.Machine

variable {s t : State}

/-- Where FB alone changes no fault is taken. -/
theorem fbOnly.status_finfo (h : fbOnly s t) : t.status = s.status ∧ t.finfo = s.finfo := by
  rw [h]; exact ⟨rfl, rfl⟩

/-! ## Commands that write FB -/

/-- WPX writes FB on the screen and nothing off it (40_pixel_writer.md R111). -/
theorem exec_wpx_fbOnly (s : State) (x y : Coord) (c : Colour) : ∃ t, exec (.wpx x y c) s = .next t ∧ fbOnly s t := by
  obtain ⟨-, hon, hoff⟩ := wpxWritesOnScreenAndIsANoOpOff s x y c
  by_cases hin : x.toNat < s.cfg.w ∧ y.toNat < s.cfg.h
  · obtain ⟨-, t, ht, hfb, -⟩ := hon hin
    exact ⟨t, ht, hfb⟩
  · exact ⟨s, hoff (by omega), rfl⟩

/-- FRECT writes FB alone, for every operand (40_pixel_writer.md R116). -/
theorem exec_frect_fbOnly (s : State) (x0 y0 x1 y1 : Coord) (c : Colour) :
    ∃ t, exec (.frect x0 y0 x1 y1 c) s = .next t ∧ fbOnly s t := by
  obtain ⟨t, ht, hfb, -⟩ := frectPaintsTheClampedRectangle s x0 y0 x1 y1 c
  exact ⟨t, ht, hfb⟩

/-- RRECT writes FB alone, or takes F_PRECOND before it writes anything (42_rounded_rect.md R184; 60_exceptions.md
R233). -/
theorem exec_rrect_fbOnly_or_precond (s : State) (x0 y0 x1 y1 : Coord) (wob rl rr : Bool) (radius : Coord) :
    ∃ t, exec (.rrect x0 y0 x1 y1 wob rl rr radius) s = .next t ∧
      (fbOnly s t ∨ t = { s with status := 0x22, finfo := 0 }) := by
  by_cases hpre : rrectPre s.cfg.w s.cfg.h x0.toNat y0.toNat x1.toNat y1.toNat radius.toNat = true
  · obtain ⟨hx, hxw, hy, hyh, hr, hw, hh⟩ := rrectPre_iff.1 hpre
    obtain ⟨t, ht, hfb, -⟩ := rrectPaintsTheRoundedRectangle s x0 y0 x1 y1 radius wob rl rr hx hxw hy hyh hr
      (by omega) (by omega)
    exact ⟨t, ht, .inl hfb⟩
  · exact ⟨_, exec_rrect_noPre wob rl rr hpre, .inr rfl⟩

/-! ## Commands that leave FB -/

/-- RPX leaves FB, on the screen and off it (40_pixel_writer.md R112). -/
theorem exec_rpx_fb (s : State) (x y : Coord) : ∃ t, exec (.rpx x y) s = .next t ∧ t.fb = s.fb := by
  by_cases hin : x.toNat < s.cfg.w ∧ y.toNat < s.cfg.h
  · exact ⟨_, exec_rpx_onScreen hin.1 hin.2, rfl⟩
  · exact ⟨_, exec_rpx_offScreen (by omega), rfl⟩

/-- LOOKUP leaves FB, whether or not the font is there (41_glyph_decoder.md R142). -/
theorem exec_lookup_fb (s : State) (font : Coord) (cp : CodePoint) :
    ∃ t, exec (.lookup font cp) s = .next t ∧ t.fb = s.fb := by
  cases hfont : s.cfg.fonts[font.toNat]? with
  | none => exact ⟨_, exec_lookup_noFont cp hfont, rfl⟩
  | some e => exact ⟨_, exec_lookup_font cp hfont, rfl⟩

/-- GPIX of a nibble past the blob, which a well-formed font has none of, takes F_ASSET (41_glyph_decoder.md R143,
R144). -/
theorem exec_gpix_noNibble {font glyph gx gy : Coord} {e : FontEntry} {G : Glyph}
    (h : s.cfg.fonts[font.toNat]? = some e) (hG : (glyphTable e)[glyph.toNat]? = some G)
    (hv : gint e.font.blob G gx.toNat gy.toNat = none) :
    exec (.gpix font glyph gx gy) s = .next { s with status := 0x42, finfo := 0 } := by
  show execGpix font glyph gx gy s = _
  simp only [execGpix, State.font?, h, hG, opInt, hv, raise_asset]

/-- GPIX leaves FB, whether or not the glyph and its nibble are there (41_glyph_decoder.md R144). -/
theorem exec_gpix_fb (s : State) (font glyph gx gy : Coord) :
    ∃ t, exec (.gpix font glyph gx gy) s = .next t ∧ t.fb = s.fb := by
  cases hfont : s.cfg.fonts[font.toNat]? with
  | none => exact ⟨_, exec_gpix_noFont glyph gx gy hfont, rfl⟩
  | some e =>
    cases hG : (glyphTable e)[glyph.toNat]? with
    | none => exact ⟨_, exec_gpix_noGlyph gx gy hfont hG, rfl⟩
    | some G =>
      cases hv : gint e.font.blob G gx.toNat gy.toNat with
      | none => exact ⟨_, exec_gpix_noNibble hfont hG hv, rfl⟩
      | some v => exact ⟨_, exec_gpix_glyph hfont hG hv, rfl⟩

end Sys2Proof.Machine
end

section
/-!
PROOF. Reset and hazards (70_reset_and_hazards.md): every command ends, RESET at any time, and an idle block.
-/

namespace Sys2Proof.Machine

/-- Settles O23: every command has a next state by `exec_shape`; what it leaves there follows from the lemma of the
command. -/
theorem everyCommandEndsInANextState : Obligations.EveryCommandEndsInANextState := by
  intro i s
  cases i with
  | wpx x y c =>
    obtain ⟨t, ht, hfb⟩ := exec_wpx_fbOnly s x y c
    exact ⟨t, ht, hfb.status_finfo⟩
  | fill c => exact ⟨s.fillAll c, rfl, rfl, rfl⟩
  | frect x0 y0 x1 y1 c =>
    obtain ⟨t, ht, hfb⟩ := exec_frect_fbOnly s x0 y0 x1 y1 c
    exact ⟨t, ht, hfb.status_finfo⟩
  | rrect x0 y0 x1 y1 wob rl rr radius =>
    obtain ⟨t, ht, hfb | rfl⟩ := exec_rrect_fbOnly_or_precond s x0 y0 x1 y1 wob rl rr radius
    · exact ⟨t, ht, .inl hfb.status_finfo.1⟩
    · exact ⟨_, ht, .inr rfl⟩
  | rpx x y => exact exec_rpx_fb s x y
  | lookup font cp => exact exec_lookup_fb s font cp
  | gpix font glyph gx gy => exact exec_gpix_fb s font glyph gx gy
  | _ =>
    obtain ⟨t, ht, -⟩ := exec_shape _ s
    exact ⟨t, ht, trivial⟩

/-- Settles O14: the step tests neither BUSY nor FAULT before RESET, and the host's side aside the block then holds the
values after reset. -/
theorem resetMoveResetsTheBlock : Obligations.ResetMoveResetsTheBlock := by
  intro s rest hc hh
  obtain ⟨hstatus, hres, hfinfo, -, -, hfb, htxt⟩ := resetLeavesTheStatedValues s.cfg (s.draw + 1) hc
  exact ⟨_, step_reset hc hh, rfl, congrArg statusBusy hstatus, congrArg statusFault hstatus, hres, hfinfo, hfb, htxt⟩

/-- Settles O16: no move is left to take. -/
theorem idleBlockDoesNothing : Obligations.IdleBlockDoesNothing := by
  intro s hc hh
  exact step_idle hc hh

end Sys2Proof.Machine
end

section
/-!
PROOF. The worked encodings (30_encoding.md section 5): each record of the table is the encoding of the command in its
row.
-/

namespace Sys2Proof

/-- Decoding and encoding say the same of a record and a well-formed command (30_encoding.md R84, R86, R87). -/
theorem decodeRecord_eq_ok_iff {r : Record} {i : Instr} : decodeRecord r = .ok i ↔ i.wf = true ∧ encode i = r := by
  constructor
  · exact legalRecordIsTheEncodingOfItsCommand r i
  · rintro ⟨hwf, rfl⟩
    exact decodeRecord_encode hwf

/-- Settles O5: the command of each row is well formed and encodes to the record beside it, and such a record decodes
to its command. -/
theorem workedEncodingsDecode : Obligations.WorkedEncodingsDecode := by
  unfold Obligations.WorkedEncodingsDecode
  simp only [decodeRecord_eq_ok_iff]
  decide

end Sys2Proof
end
